-- ==== Sys2Proof/Word.lean ====
section
/-! DEFINITION. The word types of the block: the widths of its ports and bytes (10_state.md R23, R28, R29). -/

namespace Sys2Proof

/-- One byte: a colour channel (R28) or an entry of the output queue (R29). -/
abbrev Byte := BitVec 8

/-- The command port `cmd_word[63:0]` (R23, R86). -/
abbrev CmdWord := BitVec 64

/-- The response port `rsp_word[31:0]` (R23, R93). -/
abbrev RspWord := BitVec 32

/-- The field `DATA = rsp_word[23:0]` of a response (R93). -/
abbrev RspData := BitVec 24

/-- The wires `pool_free[p]` of one peripheral instance, bit u for unit u. `U <= 256` (R6), so 256 wires hold every
configuration; the wires from U on are never read. -/
abbrev PoolWires := BitVec 256

end Sys2Proof
end

