-- ==== Sys2Proof/Syntax.lean ====
section
/-! DEFINITION. The eight commands (30_encoding.md R88, R89), one constructor per row of spec/opcode_table.json. -/

namespace Sys2Proof

/-- A decoded command. Pins, indices, rows and columns are naturals of 16 bits (R87), so they are naturals here and
WellFormed checks their range; channels and the emitted value are bytes, which the serializer shifts out bit by bit. -/
inductive Instr where
  | init  (pin : Nat)
  | emit  (v : Byte)
  | latch
  | set   (index : Nat) (r g b : Byte)
  | clear
  | flush
  | read  (index : Nat)
  | map   (row column : Nat)
  deriving DecidableEq, Repr

end Sys2Proof
end

