-- ==== Sys2Proof/WellFormed.lean ====
section
/-! DEFINITION. Which commands the encoding can carry: every operand within its field's range (30_encoding.md R87, R95). -/

namespace Sys2Proof

/-- `A` and `B` are 16 bits wide (R86): pin, index, row and column lie in [0, 65535]. -/
abbrev fitsOperand (x : Nat) : Prop := x < 65536

/-- The operand ranges of R95. Bytes are in range by their type. -/
def Instr.wfCheck (i : Instr) : Bool :=
  match i with
  | .init pin       => decide (fitsOperand pin)
  | .emit _         => true
  | .latch          => true
  | .set index _ _ _ => decide (fitsOperand index)
  | .clear          => true
  | .flush          => true
  | .read index     => decide (fitsOperand index)
  | .map row column => decide (fitsOperand row) && decide (fitsOperand column)

/-- A command is well-formed when the check accepts it. -/
abbrev Instr.Wf (i : Instr) : Prop := i.wfCheck = true

end Sys2Proof
end

