-- ==== Sys2Proof/Decode.lean ====
section
/-! DEFINITION. The command word: its fields (30_encoding.md R86, R87), the decoder on all 2^64 words (R90, R91), the
encoder (R86, R88, R89) and the opcode table as mask and match rows (R89, opcode_table.json). -/

namespace Sys2Proof

/-- `OP = cmd_word[63:56]` (R86). -/
def opField (w : CmdWord) : BitVec 8 := w.extractLsb' 56 8
/-- `A = cmd_word[55:40]` (R86). -/
def aField (w : CmdWord) : BitVec 16 := w.extractLsb' 40 16
/-- `B = cmd_word[39:24]` (R86). -/
def bField (w : CmdWord) : BitVec 16 := w.extractLsb' 24 16
/-- `D = cmd_word[23:0]` (R86). -/
def dField (w : CmdWord) : BitVec 24 := w.extractLsb' 0 24
/-- `r = cmd_word[23:16]` of SET (R87). -/
def rField (w : CmdWord) : Byte := w.extractLsb' 16 8
/-- `g = cmd_word[15:8]` of SET (R87). -/
def gField (w : CmdWord) : Byte := w.extractLsb' 8 8
/-- `b = cmd_word[7:0]` of SET, and `v` of EMIT (R87). -/
def lowByte (w : CmdWord) : Byte := w.extractLsb' 0 8
/-- `D[23:8]`, which EMIT needs zero (R88). -/
def dHigh (w : CmdWord) : BitVec 16 := w.extractLsb' 8 16

/-- Why a word is ILLEGAL (R91). The block answers both alike with ILLEGAL_COMMAND; the two names are the model's
(log entry 13). -/
inductive Illegal where
  | reservedOpcode
  | nonZeroField
  deriving DecidableEq, Repr

/-- The decoder of R90. -/
def decode (w : CmdWord) : Except Illegal Instr :=
  if opField w = 0x01 then
    if bField w = 0 ∧ dField w = 0 then .ok (.init (aField w).toNat) else .error .nonZeroField
  else if opField w = 0x02 then
    if aField w = 0 ∧ bField w = 0 ∧ dHigh w = 0 then .ok (.emit (lowByte w)) else .error .nonZeroField
  else if opField w = 0x03 then
    if aField w = 0 ∧ bField w = 0 ∧ dField w = 0 then .ok .latch else .error .nonZeroField
  else if opField w = 0x10 then
    if bField w = 0 then .ok (.set (aField w).toNat (rField w) (gField w) (lowByte w)) else .error .nonZeroField
  else if opField w = 0x11 then
    if aField w = 0 ∧ bField w = 0 ∧ dField w = 0 then .ok .clear else .error .nonZeroField
  else if opField w = 0x12 then
    if aField w = 0 ∧ bField w = 0 ∧ dField w = 0 then .ok .flush else .error .nonZeroField
  else if opField w = 0x13 then
    if bField w = 0 ∧ dField w = 0 then .ok (.read (aField w).toNat) else .error .nonZeroField
  else if opField w = 0x14 then
    if dField w = 0 then .ok (.map (aField w).toNat (bField w).toNat) else .error .nonZeroField
  else .error .reservedOpcode

/-- `cmd_word = {OP, A, B, D}` (R86). -/
def packWord (op : BitVec 8) (a b : BitVec 16) (d : BitVec 24) : CmdWord := op ++ a ++ b ++ d

/-- The word of a command (R86, R88, R89). -/
def encode (i : Instr) : CmdWord :=
  match i with
  | .init pin        => packWord 0x01 (BitVec.ofNat 16 pin) 0 0
  | .emit v          => packWord 0x02 0 0 ((0 : BitVec 16) ++ v)
  | .latch           => packWord 0x03 0 0 0
  | .set index r g b => packWord 0x10 (BitVec.ofNat 16 index) 0 (r ++ g ++ b)
  | .clear           => packWord 0x11 0 0 0
  | .flush           => packWord 0x12 0 0 0
  | .read index      => packWord 0x13 (BitVec.ofNat 16 index) 0 0
  | .map row column  => packWord 0x14 (BitVec.ofNat 16 row) (BitVec.ofNat 16 column) 0

/-- One row of spec/opcode_table.json: a word is this command exactly when `w & mask = value` (R90). -/
structure OpcodeRow where
  mnemonic : String
  mask     : CmdWord
  value    : CmdWord
  deriving DecidableEq, Repr

/-- The row of a command, its mask and match written out from spec/opcode_table.json. -/
def opcodeRow (i : Instr) : OpcodeRow :=
  match i with
  | .init _      => ⟨"INIT",  0xFF0000FFFFFFFFFF, 0x0100000000000000⟩
  | .emit _      => ⟨"EMIT",  0xFFFFFFFFFFFFFF00, 0x0200000000000000⟩
  | .latch       => ⟨"LATCH", 0xFFFFFFFFFFFFFFFF, 0x0300000000000000⟩
  | .set _ _ _ _ => ⟨"SET",   0xFF0000FFFF000000, 0x1000000000000000⟩
  | .clear       => ⟨"CLEAR", 0xFFFFFFFFFFFFFFFF, 0x1100000000000000⟩
  | .flush       => ⟨"FLUSH", 0xFFFFFFFFFFFFFFFF, 0x1200000000000000⟩
  | .read _      => ⟨"READ",  0xFF0000FFFFFFFFFF, 0x1300000000000000⟩
  | .map _ _     => ⟨"MAP",   0xFF00000000FFFFFF, 0x1400000000000000⟩

/-- The whole table, in its order. -/
def opcodeTable : List OpcodeRow :=
  [opcodeRow (.init 0), opcodeRow (.emit 0), opcodeRow .latch, opcodeRow (.set 0 0 0 0), opcodeRow .clear,
   opcodeRow .flush, opcodeRow (.read 0), opcodeRow (.map 0 0)]

/-- Does the word match the row (R90)? -/
def OpcodeRow.Matches (row : OpcodeRow) (w : CmdWord) : Prop := w &&& row.mask = row.value

/-- The command word from `nbits` bits numbered as spec/opcode_table.json numbers them: one 64-bit word, bit 0 its least
significant bit (R8, R92); the bits from `nbits` on are zero. -/
def tableWord (nbits w : Nat) : CmdWord := BitVec.ofNat 64 (w % 2 ^ nbits)

/-- What the decoder reads from such a word; `none` where the word is ILLEGAL. -/
def decodeTableWord (nbits w : Nat) : Option Instr :=
  match decode (tableWord nbits w) with
  | .ok i => some i
  | .error _ => none

end Sys2Proof
end

