-- ==== Sys2Proof/Config.lean ====
section
/-! DEFINITION. The configuration record of 00_scope.md R6, its well-formedness (R7) and the example configuration EX.
`PI = 2` is fixed by the spec (R6): it is the two constructors of `Periph` in Machine/State.lean. There is no free value:
every parameter the spec leaves OPEN is a field, and every statement quantifies over it (log entry 3). -/

namespace Sys2Proof

/-- The parameters of R6, under the spec's names: `side` is S, `units` is U, `qDepth` is QDEPTH, `tBit` is T_BIT,
`t0h`, `t0l`, `t1h`, `t1l` are T0H, T0L, T1H, T1L, `tLatch` is T_LATCH and `validPins` lists VALID_PINS. -/
structure Config where
  side      : Nat
  units     : Nat
  qDepth    : Nat
  tBit      : Nat
  t0h       : Nat
  t0l       : Nat
  t1h       : Nat
  t1l       : Nat
  tLatch    : Nat
  validPins : List Nat
  deriving DecidableEq, Repr

/-- `N = S*S`, the number of pixels (R6, R7). -/
abbrev Config.n (c : Config) : Nat := c.side * c.side

/-- `F_CLK = 800000 * T_BIT`, in Hz (R6). -/
def Config.fClk (c : Config) : Nat := 800000 * c.tBit

/-- The default of T_LATCH, `ceil(100e-6 * F_CLK)` cycles (R6). -/
def Config.defaultTLatch (c : Config) : Nat := (100 * c.fClk + 999999) / 1000000

/-- R7, with the two ranges that R6's table gives and R7 does not repeat: `U <= 256` and VALID_PINS within [0, 65535]
(log entry 4). -/
abbrev Config.Wf (c : Config) : Prop :=
  (1 ≤ c.side ∧ c.side ≤ 255) ∧ (1 ≤ c.units ∧ c.units ≤ 256) ∧ 1 ≤ c.qDepth ∧
  (1 ≤ c.t0h ∧ 1 ≤ c.t0l ∧ 1 ≤ c.t1h ∧ 1 ≤ c.t1l) ∧
  (c.t0h + c.t0l = c.tBit ∧ c.t1h + c.t1l = c.tBit) ∧ c.t0h < c.t1h ∧ 1 ≤ c.tLatch ∧
  ∀ p ∈ c.validPins, p < 65536

/-- EX, the spec's example configuration (R6, R66, D10). The spec fixes that 7 is a valid pin and 99 is not; the model's
list holds 7 alone (log entry 3, DESIGN CHOICE). -/
def Config.ex : Config where
  side := 5
  units := 4
  qDepth := 4
  tBit := 10
  t0h := 3
  t0l := 7
  t1h := 6
  t1l := 4
  tLatch := 800
  validPins := [7]

end Sys2Proof
end

