-- ==== Sys2Proof/Machine/State.lean ====
section
/-! DEFINITION. Every piece of state the spec gives the block (10_state.md R24 to R34), the values of its input ports (R23),
the configuration it was built with (00_scope.md R6), the reasons a step can stop, and the state after reset (R39). -/

namespace Sys2Proof.Machine

/-- The engine state (R24). -/
inductive Eng where
  | uninitialized
  | initialized
  | streaming
  | failed
  deriving DecidableEq, Repr

/-- A peripheral instance of the pool: 0 is the primary, 1 the secondary (R6, R81, R156). -/
inductive Periph where
  | primary
  | secondary
  deriving DecidableEq, Repr

/-- The serializer's phase (R30). -/
inductive Phase where
  | idle
  | high
  | low
  deriving DecidableEq, Repr

/-- A channel of a pixel in wire order: Green, Red, Blue (R32, R44). -/
inductive Chan where
  | green
  | red
  | blue
  deriving DecidableEq, Repr

/-- One pixel of the buffer: three independent 8-bit lanes (R28, R118). -/
structure Pixel where
  r : Byte
  g : Byte
  b : Byte
  deriving DecidableEq, Repr

/-- An event of the wire trace (R34, R62). -/
inductive Event where
  | byte (v : Byte)
  | latch
  | reset
  deriving DecidableEq, Repr

/-- The command unit's state (R32). -/
inductive CmdUnit where
  | ready
  | emitWait (v : Byte)
  | latchWait
  | flushPush (i : Nat) (ch : Chan)
  | flushLatch
  deriving DecidableEq, Repr

/-- The serializer's five fields (R30). -/
structure Serializer where
  phase : Phase
  cnt   : Nat
  sh    : Byte
  bits  : Nat
  cur   : Bool
  deriving DecidableEq, Repr

/-- The values of the input ports during one clock cycle (R23): `in_t` of R10. `free0` and `free1` are `pool_free[0]` and
`pool_free[1]`, `imemOk0` and `imemOk1` are `imem_ok[0]` and `imem_ok[1]`. -/
structure Inputs where
  rst      : Bool
  cmdValid : Bool
  cmdWord  : CmdWord
  free0    : PoolWires
  free1    : PoolWires
  imemOk0  : Bool
  imemOk1  : Bool
  deriving DecidableEq, Repr

/-- One entry of the environment's plan: what the ports carry in one cycle. With `waits` the cycle comes only after a word
offered before it has been accepted, as R78 asks of the host; without, it comes in the next cycle whatever happens, so a plan
without `waits` is any sequence `in_t` of R10 (log entry 2). -/
structure PlannedCycle where
  waits : Bool
  ports : Inputs
  deriving DecidableEq, Repr

/-- The pixel buffer's contents: one entry for each index whose pixel is not (0, 0, 0), indices strictly rising. The unit is
the whole pixel, because R40 says nothing smaller can be addressed (log entry 5). -/
abbrev Memory := List (Nat × Pixel)

/-- The state of the block. -/
structure State where
  /-- The configuration (R6): fixed, no step changes it (log entry 3). -/
  cfg        : Config
  /-- `s.eng` (R24). -/
  eng        : Eng
  /-- `s.claim_inst` (R25). -/
  claimInst  : Option Periph
  /-- `s.claim_unit` (R25). -/
  claimUnit  : Option Nat
  /-- `s.imem_loaded` (R26). -/
  imemLoaded : Option Periph
  /-- `s.pin_sel` (R27). -/
  pinSel     : Option Nat
  /-- `s.buf` (R28). -/
  buf        : Memory
  /-- `s.txq` (R29), head first. -/
  txq        : List Byte
  /-- `s.ser_phase`, `s.ser_cnt`, `s.ser_sh`, `s.ser_bits`, `s.ser_cur` (R30). -/
  ser        : Serializer
  /-- `s.idle_cnt` (R31). -/
  idleCnt    : Nat
  /-- `s.cu` (R32). -/
  cu         : CmdUnit
  /-- `s.rsp_valid` (R33). -/
  rspValid   : Bool
  /-- `s.rsp_word` (R33). -/
  rspWord    : RspWord
  /-- `s.claim_pulse` (R36). -/
  claimPulse : Bool
  /-- `s.wtrace` (R34), oldest event first. -/
  wtrace     : List Event
  /-- The input ports in the present cycle (R10, R23). -/
  inp        : Inputs
  /-- The model's own: what the environment plans for the cycles to come, next first (log entry 2). -/
  script     : List PlannedCycle
  deriving DecidableEq, Repr

/-- Why the machine stops. The block itself has no trap and no stuck state (R145, R153, U14). -/
inductive Fault where
  /-- A FLUSH is about to read a pixel at an index outside [0, N-1], which R40 says does not exist. Raised by the push loop
  (`Sys2Proof.Machine.flushPush`) in states that no run reaches, because R120 never moves past N-1. Safe: the machine stops
  where the spec gives no pixel (log entry 9). -/
  | noSuchPixel
  deriving DecidableEq, Repr

/-- Why the model gives a step no meaning. -/
inductive Refusal where
  /-- The instruction has no meaning in the model yet. Raised by an arm of `exec`; no arm does so. Safe. -/
  | notModelled (mnemonic : String)
  /-- The configuration is not well-formed. Raised by `step` in every state that holds one, because R7 says that a model
  refuses it. Safe. -/
  | illFormedConfig
  deriving DecidableEq, Repr

/-- The serializer at rest (R39). -/
def Serializer.rest : Serializer := ⟨.idle, 0, 0, 0, false⟩

/-- The input ports at State.reset: nothing offered, every unit free, both instruction memories with room (log entry 7,
DESIGN CHOICE: the spec gives inputs no reset value). -/
def Inputs.atReset : Inputs where
  rst := false
  cmdValid := false
  cmdWord := 0
  free0 := BitVec.allOnes 256
  free1 := BitVec.allOnes 256
  imemOk0 := true
  imemOk1 := true

/-- The reset state of R39 for a configuration, with the trace, the present inputs and the inputs to come as given: those
are no registers that reset clears. -/
def State.resetWith (cfg : Config) (trace : List Event) (inp : Inputs)
    (script : List PlannedCycle) : State where
  cfg := cfg
  eng := .uninitialized
  claimInst := none
  claimUnit := none
  imemLoaded := none
  pinSel := none
  buf := []
  txq := []
  ser := Serializer.rest
  idleCnt := 0
  cu := .ready
  rspValid := false
  rspWord := 0
  claimPulse := false
  wtrace := trace
  inp := inp
  script := script

/-- The machine right after reset: the reset state of R39 in the configuration EX, its trace holding the power-on Reset
(log entries 3, 6 and 7). -/
def State.reset : State := State.resetWith Config.ex [.reset] Inputs.atReset []

end Sys2Proof.Machine
end

