-- ==== Sys2Proof/Machine/Flags.lean ====
section
/-! DEFINITION. The block has no flags or condition codes (10_state.md R37). What it has instead is the status of a
response: the status codes (30_encoding.md R94), the response word (R93) and the engine-state check (60_exceptions.md R147). -/

namespace Sys2Proof.Machine

/-- The status of a response (R94). -/
inductive Status where
  | ok
  | resourceExhausted
  | outOfRange
  | notInitialized
  | alreadyInitialized
  | invalidPin
  | illegalCommand
  | failed
  deriving DecidableEq, Repr

/-- `STATUS` (R94). The values 0x08 to 0xFF are never produced. -/
def statusCode (st : Status) : BitVec 8 :=
  match st with
  | .ok => 0x00
  | .resourceExhausted => 0x01
  | .outOfRange => 0x02
  | .notInitialized => 0x03
  | .alreadyInitialized => 0x04
  | .invalidPin => 0x05
  | .illegalCommand => 0x06
  | .failed => 0x07

/-- `rsp_word = {STATUS, DATA}` (R93). -/
def responseWord (st : Status) (data : RspData) : RspWord := statusCode st ++ data

/-- Checks 2 and 3 of R147 for INIT: it runs in UNINITIALIZED alone. The pseudocode of R80 says "not UNINITIALIZED", so
STREAMING, in which no word can be accepted, answers as INITIALIZED does (log entry 10). -/
def initCheck (eng : Eng) : Option Status :=
  match eng with
  | .uninitialized => none
  | .initialized => some .alreadyInitialized
  | .streaming => some .alreadyInitialized
  | .failed => some .failed

/-- Checks 2 and 3 of R147 for EMIT, LATCH, SET, CLEAR, READ and FLUSH: they run in INITIALIZED alone (log entry 10 for
STREAMING). -/
def runningCheck (eng : Eng) : Option Status :=
  match eng with
  | .initialized => none
  | .uninitialized => some .notInitialized
  | .streaming => some .notInitialized
  | .failed => some .failed

/-- Checks 2 and 3 of R147 for MAP: it runs in every engine state but FAILED (D26). -/
def mapCheck (eng : Eng) : Option Status :=
  match eng with
  | .failed => some .failed
  | .uninitialized => none
  | .initialized => none
  | .streaming => none

end Sys2Proof.Machine
end

