-- ==== Sys2Proof/Machine/Operands.lean ====
section
/-! DEFINITION. The operand forms: the operand checks of R147, the lanes of a pixel (42_matrix.md R118), the wire order of
its channels (R120), and the DATA field of a response (30_encoding.md R93). -/

namespace Sys2Proof.Machine

/-- The buffer index of SET and READ is in range (R146). -/
abbrev indexInRange (cfg : Config) (index : Nat) : Prop := index < cfg.n

/-- The coordinate of MAP is in range (R146). -/
abbrev coordInRange (cfg : Config) (row column : Nat) : Prop := row < cfg.side ∧ column < cfg.side

/-- INIT's pin is valid (R80). -/
abbrev pinValid (cfg : Config) (pin : Nat) : Prop := pin ∈ cfg.validPins

/-- The pixel (0, 0, 0). -/
def Pixel.black : Pixel := ⟨0, 0, 0⟩

/-- `chan(p, ch)` (R118). -/
def chanOf (p : Pixel) (ch : Chan) : Byte :=
  match ch with
  | .green => p.g
  | .red => p.r
  | .blue => p.b

/-- `next(i, ch)` of R120; `none` is DONE. -/
def nextPush (n i : Nat) (ch : Chan) : Option (Nat × Chan) :=
  match ch with
  | .green => some (i, .red)
  | .red => some (i, .blue)
  | .blue => if i + 1 < n then some (i + 1, .green) else none

/-- The number of an instance, 0 or 1 (R156). -/
def Periph.num (p : Periph) : Nat :=
  match p with
  | .primary => 0
  | .secondary => 1

/-- INIT's DATA `{0x00, zext_8(claim_inst), claim_unit}` (R84, R93). -/
def claimData (p : Periph) (u : Nat) : RspData := (0 : BitVec 8) ++ BitVec.ofNat 8 p.num ++ BitVec.ofNat 8 u

/-- READ's DATA `{r, g, b}` (R93). -/
def pixelData (p : Pixel) : RspData := p.r ++ p.g ++ p.b

/-- MAP's DATA `{0x00, index[15:0]}` (R93). -/
def indexData (index : Nat) : RspData := (0 : BitVec 8) ++ BitVec.ofNat 16 index

end Sys2Proof.Machine
end

