-- ==== Sys2Proof/Machine/Ops.lean ====
section
/-! DEFINITION. The shared operations over the state: the pixel buffer (00_scope.md R9, 20_memory.md R40 to R43), the
output queue, the response register (10_state.md R33), the wire trace (41_serializer.md R62), the claim (40_engine.md R81,
R82) and reset (70_reset_and_hazards.md R180). The block takes no exception (60_exceptions.md R153); `raise` is what stands
in the place of one: it ends a command with an error status. -/

namespace Sys2Proof.Machine

/-! The pixel buffer. -/

/-- The pixel at an index; an index that is not listed holds (0, 0, 0), the reset contents (R39). -/
def Memory.read (m : Memory) (i : Nat) : Pixel :=
  match m with
  | [] => Pixel.black
  | (j, p) :: rest => if i = j then p else Memory.read rest i

/-- Write the pixel at an index, keeping the canonical form: writing (0, 0, 0) removes the entry. -/
def Memory.write (m : Memory) (i : Nat) (p : Pixel) : Memory :=
  match m with
  | [] => if p = Pixel.black then [] else [(i, p)]
  | (j, q) :: rest =>
    if i < j then (if p = Pixel.black then (j, q) :: rest else (i, p) :: (j, q) :: rest)
    else if i = j then (if p = Pixel.black then rest else (i, p) :: rest)
    else (j, q) :: Memory.write rest i p

/-- The canonical form: indices strictly rising, no entry equal to what an unlisted index reads as. -/
abbrev Memory.Wf (m : Memory) : Prop := m.Pairwise (fun c d => c.1 < d.1) ∧ ∀ c ∈ m, c.2 ≠ Pixel.black

/-- Every listed index exists (R40). -/
abbrev Memory.Within (m : Memory) (n : Nat) : Prop := ∀ c ∈ m, c.1 < n

/-- `BufRead(i)` (R9). -/
def bufRead (s : State) (i : Nat) : Pixel := s.buf.read i

/-- `BufWrite(i, p)` (R9). -/
def bufWrite (i : Nat) (p : Pixel) (s : State) : State := { s with buf := s.buf.write i p }

/-- `BufWrite(i, (0, 0, 0))` for every i in 0..N-1 (R82, R116). -/
def bufClear (s : State) : State := { s with buf := [] }

/-! The queue, the trace, the response register. -/

/-- The space test of R60 and R100, `|s.txq| < QDEPTH`. -/
abbrev hasSpace (s : State) : Prop := s.txq.length < s.cfg.qDepth

/-- `push(s.txq, v)` (R9). -/
def push (v : Byte) (s : State) : State := { s with txq := s.txq ++ [v] }

/-- `emit_event(e)` (R9). -/
def emitEvent (e : Event) (s : State) : State := { s with wtrace := s.wtrace ++ [e] }

/-- `respond(code, data)` (R78): the command completes, the response register is written, the command unit is READY. -/
def respond (st : Status) (data : RspData) (s : State) : State :=
  { s with rspValid := true, rspWord := responseWord st data, cu := .ready, claimPulse := false }

/-- `raise Status(code)` (R9, R145): the command ends with an error status, DATA 0, and no other effect. -/
def raise (st : Status) (s : State) : State := respond st 0 s

/-- An edge at which no command completes (R78): no response, and the command unit goes on in `cu`. -/
def goOn (cu : CmdUnit) (s : State) : State :=
  { s with rspValid := false, cu := cu, claimPulse := false }

/-- `latch_done(s)` (R101). -/
abbrev latchDone (s : State) : Prop := s.txq = [] ∧ s.ser.phase = .idle ∧ s.cfg.tLatch ≤ s.idleCnt

/-! The claim. -/

/-- The lowest-numbered free unit of an instance (R81). -/
def firstFree (units : Nat) (free : PoolWires) : Option Nat :=
  (List.range units).find? (fun u => free.getLsbD u)

/-- `claim(pool_free)` (R81): instance 0 first, then instance 1. -/
def claim (units : Nat) (inp : Inputs) : Option (Periph × Nat) :=
  match firstFree units inp.free0 with
  | some u => some (.primary, u)
  | none =>
    match firstFree units inp.free1 with
    | some u => some (.secondary, u)
    | none => none

/-- `imem_ok[p]` (R23). -/
def Inputs.imemOk (inp : Inputs) (p : Periph) : Bool :=
  match p with
  | .primary => inp.imemOk0
  | .secondary => inp.imemOk1

/-- `configure(p, u, pin)` (R82), but for `claim_pulse`, which INIT sets with its response. -/
def configure (p : Periph) (u pin : Nat) (s : State) : State :=
  bufClear { s with
    claimInst := some p, claimUnit := some u, imemLoaded := some p, pinSel := some pin,
    txq := [], ser := Serializer.rest, idleCnt := 0, eng := .initialized }

/-! The input ports (R23, R78, R189). -/

/-- Is the word on the command port accepted in this cycle? `cmd_valid` and `cmd_ready` are both 1 (R10, R35). -/
abbrev accepts (s : State) : Prop := s.inp.cmdValid = true ∧ s.cu = .ready

/-- The ports when the environment does nothing new: no reset, no command; the platform's wires keep their level. -/
def Inputs.quiet (inp : Inputs) : Inputs := { inp with rst := false, cmdValid := false }

/-- The host still offers a word that the block has not accepted (R78, R189). -/
abbrev wordHeld (s : State) : Prop := s.inp.rst = false ∧ s.inp.cmdValid = true ∧ s.cu ≠ .ready

/-- The ports in the next cycle: the next cycle of the plan, or, where that waits for a held word, the word goes on being
offered; after the plan's last cycle the host only holds what it still offers (R78, R189, log entry 2). -/
def nextInputs (s : State) : Inputs × List PlannedCycle :=
  match s.script with
  | [] => if wordHeld s then (s.inp, []) else (s.inp.quiet, [])
  | x :: rest => if wordHeld s ∧ x.waits = true then (s.inp, x :: rest) else (x.ports, rest)

/-- Reset (R180): at an edge with `rst = 1` the next state is the reset state of R39, the trace gains Reset, and nothing else
happens. -/
def resetEdge (s : State) : State :=
  State.resetWith s.cfg (s.wtrace ++ [.reset]) (nextInputs s).1 (nextInputs s).2

end Sys2Proof.Machine
end

