-- ==== Sys2Proof/Machine/Engine.lean ====
section
/-! DEFINITION. The engine commands INIT, EMIT and LATCH (40_engine.md R80 to R85, R100 to R102). A meaning is what the
command unit does at the edge where the command is accepted; the serializer's part of that edge is added by the step (R60). -/

namespace Sys2Proof.Machine

/-- INIT's failure: the engine enters FAILED with status RESOURCE_EXHAUSTED (R80, R148). -/
def exhaust (s : State) : State := raise .resourceExhausted { s with eng := .failed }

/-- INIT's success: configure, respond with the claim, and pulse `claim_valid` for one cycle (R82, R84). -/
def claimed (p : Periph) (u pin : Nat) (s : State) : State :=
  { respond .ok (claimData p u) (configure p u pin s) with claimPulse := true }

/-- INIT (R80). -/
def execInit (pin : Nat) (s : State) : Host.Outcome State Fault Refusal :=
  match initCheck s.eng with
  | some st => .next (raise st s)
  | none =>
    if pinValid s.cfg pin then
      match claim s.cfg.units s.inp with
      | none => .next (exhaust s)
      | some (p, u) => if s.inp.imemOk p then .next (claimed p u pin s) else .next (exhaust s)
    else .next (raise .invalidPin s)

/-- The push of EMIT, at its acceptance edge and at every edge of its wait (R100). -/
def emitPush (v : Byte) (s : State) : State :=
  if hasSpace s then respond .ok 0 (push v s) else goOn (.emitWait v) s

/-- EMIT (R100). -/
def execEmit (v : Byte) (s : State) : Host.Outcome State Fault Refusal :=
  match runningCheck s.eng with
  | some st => .next (raise st s)
  | none => .next (emitPush v s)

/-- The latch test of LATCH, at its acceptance edge and at every edge of its wait (R101). -/
def latchTest (s : State) : State :=
  if latchDone s then respond .ok 0 (emitEvent .latch s) else goOn .latchWait s

/-- LATCH (R101). -/
def execLatch (s : State) : Host.Outcome State Fault Refusal :=
  match runningCheck s.eng with
  | some st => .next (raise st s)
  | none => .next (latchTest s)

end Sys2Proof.Machine
end

