-- ==== Sys2Proof/Machine/Matrix.lean ====
section
/-! DEFINITION. The matrix commands SET, CLEAR, READ, FLUSH and MAP (42_matrix.md R115 to R126). A meaning is what the
command unit does at the edge where the command is accepted; the serializer's part of that edge is added by the step (R60). -/

namespace Sys2Proof.Machine

/-- SET (R115). -/
def execSet (index : Nat) (r g b : Byte) (s : State) : Host.Outcome State Fault Refusal :=
  match runningCheck s.eng with
  | some st => .next (raise st s)
  | none =>
    if indexInRange s.cfg index then .next (respond .ok 0 (bufWrite index ⟨r, g, b⟩ s))
    else .next (raise .outOfRange s)

/-- CLEAR (R116). -/
def execClear (s : State) : Host.Outcome State Fault Refusal :=
  match runningCheck s.eng with
  | some st => .next (raise st s)
  | none => .next (respond .ok 0 (bufClear s))

/-- READ (R117). -/
def execRead (index : Nat) (s : State) : Host.Outcome State Fault Refusal :=
  match runningCheck s.eng with
  | some st => .next (raise st s)
  | none =>
    if indexInRange s.cfg index then .next (respond .ok (pixelData (bufRead s index)) s)
    else .next (raise .outOfRange s)

/-- The command unit's state after the push of channel `ch` of pixel `i` (R120). -/
def afterPush (n i : Nat) (ch : Chan) : CmdUnit :=
  match nextPush n i ch with
  | some (j, ch') => .flushPush j ch'
  | none => .flushLatch

/-- `flush_push(i, ch)` (R120). A read at an index that does not exist (R40) faults; no run comes there (log entry 9). -/
def flushPush (i : Nat) (ch : Chan) (s : State) : Host.Outcome State Fault Refusal :=
  if hasSpace s then
    if indexInRange s.cfg i then .next (goOn (afterPush s.cfg.n i ch) (push (chanOf (bufRead s i) ch) s))
    else .fault .noSuchPixel
  else .next (goOn (.flushPush i ch) s)

/-- The latch test at the end of a FLUSH (R121). -/
def flushLatchTest (s : State) : State :=
  if latchDone s then respond .ok 0 (emitEvent .latch { s with eng := .initialized }) else goOn .flushLatch s

/-- FLUSH (R119): STREAMING begins, and the first push runs at this same edge. -/
def execFlush (s : State) : Host.Outcome State Fault Refusal :=
  match runningCheck s.eng with
  | some st => .next (raise st s)
  | none => flushPush 0 .green { s with eng := .streaming }

/-- The serpentine index of a coordinate on a panel of side `side`, by the formula of R122. -/
def serpentine (side row column : Nat) : Nat :=
  if row % 2 = 0 then (side * side - 1) - (row * side + column)
  else (side * side - 1) - (row * side + (side - 1 - column))

/-- The inverse of the mapping (R126): not a command, given for testing. -/
def unmap (side idx : Nat) : Nat × Nat :=
  let row := side - 1 - idx / side
  let k := idx % side
  (row, if row % 2 = 0 then side - 1 - k else k)

/-- MAP (R122). -/
def execMap (row column : Nat) (s : State) : Host.Outcome State Fault Refusal :=
  match mapCheck s.eng with
  | some st => .next (raise st s)
  | none =>
    if coordInRange s.cfg row column then .next (respond .ok (indexData (serpentine s.cfg.side row column)) s)
    else .next (raise .outOfRange s)

end Sys2Proof.Machine
end

