-- ==== Sys2Proof/Machine/Dispatch.lean ====
section
/-! DEFINITION. One arm per command: what the command unit does at the edge where it accepts the command. -/

namespace Sys2Proof.Machine

def exec (i : Instr) (s : State) : Host.Outcome State Fault Refusal :=
  match i with
  | .init pin => Sys2Proof.Machine.execInit pin s
  | .emit v => Sys2Proof.Machine.execEmit v s
  | .latch => Sys2Proof.Machine.execLatch s
  | .set index r g b => Sys2Proof.Machine.execSet index r g b s
  | .clear => Sys2Proof.Machine.execClear s
  | .flush => Sys2Proof.Machine.execFlush s
  | .read index => Sys2Proof.Machine.execRead index s
  | .map row column => Sys2Proof.Machine.execMap row column s

end Sys2Proof.Machine
end

