-- ==== Sys2Proof/Machine/Sequencer.lean ====
section
/-! DEFINITION. The command unit between acceptances: the later edges of EMIT, LATCH and FLUSH (40_engine.md R100, R101,
42_matrix.md R120, R121), the edge without a command, the word taken from the port (R78) and the answer to an ILLEGAL word
(60_exceptions.md R145). -/

namespace Sys2Proof.Machine

/-- The command unit at an edge where it accepts no word: it goes on with the command in progress, or stays READY. -/
def continueCommand (s : State) : Host.Outcome State Fault Refusal :=
  match s.cu with
  | .ready => .next (goOn .ready s)
  | .emitWait v => .next (emitPush v s)
  | .latchWait => .next (latchTest s)
  | .flushPush i ch => flushPush i ch s
  | .flushLatch => .next (flushLatchTest s)

/-- The word accepted at this edge, if any (R10, R78). -/
def acceptedWord (s : State) : Option CmdWord := if accepts s then some s.inp.cmdWord else none

/-- An ILLEGAL word completes with status ILLEGAL_COMMAND, in every engine state, and changes nothing else (R91, R145). -/
def execIllegal (s : State) : Host.Outcome State Fault Refusal := .next (raise .illegalCommand s)

end Sys2Proof.Machine
end

