-- ==== Sys2Proof/Machine/Serializer.lean ====
section
/-! DEFINITION. The bit-timing serializer (41_serializer.md R55 to R59) and how one clock edge combines it with the command
unit (R60). -/

namespace Sys2Proof.Machine

/-- `TH(b)` (R56). -/
def highTime (cfg : Config) (b : Bool) : Nat := if b then cfg.t1h else cfg.t0h

/-- `TL(b)` (R56). -/
def lowTime (cfg : Config) (b : Bool) : Nat := if b then cfg.t1l else cfg.t0l

/-- The serializer steps exactly in INITIALIZED and STREAMING (R55). -/
def Eng.active (e : Eng) : Bool :=
  match e with
  | .initialized => true
  | .streaming => true
  | .uninitialized => false
  | .failed => false

/-- What the serializer does at an edge: its next fields, the next idle count, and the byte it popped and started, if any. -/
structure SerEdge where
  ser     : Serializer
  idleCnt : Nat
  started : Option Byte
  deriving DecidableEq, Repr

/-- The start of the bit cell of bit 7 of `v`, the bits below it left in `sh` (R56, R58). -/
def bitCell (cfg : Config) (v : Byte) (bits : Nat) : Serializer :=
  ⟨.high, highTime cfg (v.getLsbD 7), v <<< 1, bits, v.getLsbD 7⟩

/-- `start_byte(v)` (R56): the head of the queue is popped and its bit 7 begins. -/
def startByte (cfg : Config) (v : Byte) : SerEdge := ⟨bitCell cfg v 8, 0, some v⟩

/-- The IDLE phase (R56) and the idle counter (R59). -/
def idlePhase (s : State) : SerEdge :=
  match s.txq with
  | v :: _ => startByte s.cfg v
  | [] => ⟨s.ser, min (s.idleCnt + 1) s.cfg.tLatch, none⟩

/-- The HIGH phase (R57). -/
def highPhase (s : State) : SerEdge :=
  if s.ser.cnt > 1 then ⟨{ s.ser with cnt := s.ser.cnt - 1 }, s.idleCnt, none⟩
  else ⟨{ s.ser with phase := .low, cnt := lowTime s.cfg s.ser.cur }, s.idleCnt, none⟩

/-- The LOW phase and the move to the next bit or byte (R58). -/
def lowPhase (s : State) : SerEdge :=
  if s.ser.cnt > 1 then ⟨{ s.ser with cnt := s.ser.cnt - 1 }, s.idleCnt, none⟩
  else if s.ser.bits > 1 then ⟨bitCell s.cfg s.ser.sh (s.ser.bits - 1), s.idleCnt, none⟩
  else
    match s.txq with
    | v :: _ => startByte s.cfg v
    | [] => ⟨Serializer.rest, s.idleCnt, none⟩

/-- The serializer's step, computed from the state at the start of the edge (R55 to R59). -/
def serializerEdge (s : State) : SerEdge :=
  match s.ser.phase with
  | .idle => idlePhase s
  | .high => highPhase s
  | .low => lowPhase s

/-- What the command unit appended to a list at this edge: the part of `new` after `old`. -/
def appended {α : Type} (old new : List α) : List α := new.drop old.length

/-- The queue after the pop, if the serializer popped (R60, point 4). -/
def queueAfter (started : Option Byte) (q : List Byte) : List Byte :=
  match started with
  | some _ => q.tail
  | none => q

/-- The serializer's trace event of an edge, if any (R62). -/
def startEvents (started : Option Byte) : List Event :=
  match started with
  | some v => [.byte v]
  | none => []

/-- R60: the serializer's step of the edge, computed from `s`, put together with the state `t` that the command unit made of
the same `s`. The queue is popped, then what the command unit pushed is appended; the trace gets the serializer's event
first. Where the serializer does not step (R55), `t` stands as it is. -/
def withSerializer (s t : State) : State :=
  if s.eng.active then
    { t with
      ser := (serializerEdge s).ser
      idleCnt := (serializerEdge s).idleCnt
      txq := queueAfter (serializerEdge s).started s.txq ++ appended s.txq t.txq
      wtrace := s.wtrace ++ startEvents (serializerEdge s).started ++ appended s.wtrace t.wtrace }
  else t

/-- The whole edge: the command unit's part `t`, the serializer's part, and the ports of the next cycle. -/
def closeEdge (s t : State) : State :=
  { withSerializer s t with inp := (nextInputs s).1, script := (nextInputs s).2 }

end Sys2Proof.Machine
end

