-- ==== Sys2Proof/Machine/Step.lean ====
section
/-! DEFINITION. One step is one clock edge (00_scope.md R10): the command unit accepts a word or goes on, and the serializer
steps beside it (41_serializer.md R60). -/

namespace Sys2Proof.Machine

/-- The command unit's part of an edge (R78): decode and run the accepted word, or go on with the command in progress. -/
def commandUnit (s : State) : Host.Outcome State Fault Refusal :=
  match acceptedWord s with
  | none => continueCommand s
  | some w =>
    match decode w with
    | .ok i => exec i s
    | .error _ => execIllegal s

/-- One clock edge (R10, R60): a configuration that is not well-formed is refused (R7); `rst = 1` gives the reset state
(R180); otherwise the command unit and the serializer both step. -/
def step (s : State) : Host.Outcome State Fault Refusal :=
  if s.cfg.Wf then
    if s.inp.rst then .next (resetEdge s)
    else
      match commandUnit s with
      | .next t => .next (closeEdge s t)
      | .fault r => .fault r
      | .refused r => .refused r
  else .refused .illFormedConfig

/-- `s` with a command word offered on the port in this cycle and the command unit ready to take it: the word's bits are
numbered as spec/opcode_table.json numbers them. The next step accepts and runs exactly this word (log entry 8). -/
def State.withFetchWord (s : State) (nbits w : Nat) : State :=
  { s with cu := .ready, inp := { s.inp with rst := false, cmdValid := true, cmdWord := tableWord nbits w } }

end Sys2Proof.Machine
end

