-- ==== Sys2Proof/Machine/HostSide.lean ====
section
/-! DEFINITION. The host's side of the command port, outside the block: the command text and its assembler
(30_encoding.md R95) and the macros SETXY, FILL and FRAME (R96). No step reads this file. Text is a list of characters. What
R95 leaves open (blanks, the case of letters, leading zeros) is log entry 12, DESIGN CHOICE. -/

namespace Sys2Proof.Machine

/-- A blank between words: a space or a tab. -/
def isBlank (c : Char) : Bool := c == ' ' || c == '\t'

/-- The text before the comment: a `;` starts one (R95). -/
def stripComment (line : List Char) : List Char := line.takeWhile (fun c => c != ';')

/-- The text without the blanks at its two ends. -/
def trimBlanks (text : List Char) : List Char := ((text.dropWhile isBlank).reverse.dropWhile isBlank).reverse

/-- The pieces between commas. -/
def splitCommas (text : List Char) : List (List Char) :=
  match text with
  | [] => [[]]
  | c :: rest =>
    if c = ',' then [] :: splitCommas rest
    else
      match splitCommas rest with
      | [] => [[c]]
      | piece :: pieces => (c :: piece) :: pieces

/-- The value of a digit in base 10 or 16. -/
def digitValue (base : Nat) (c : Char) : Option Nat :=
  let d :=
    if '0' ≤ c ∧ c ≤ '9' then some (c.toNat - '0'.toNat)
    else if 'a' ≤ c ∧ c ≤ 'f' then some (c.toNat - 'a'.toNat + 10)
    else if 'A' ≤ c ∧ c ≤ 'F' then some (c.toNat - 'A'.toNat + 10)
    else none
  d.filter (fun v => v < base)

/-- The digits read on from the value `acc`. -/
def digitsFrom (base acc : Nat) (text : List Char) : Option Nat :=
  match text with
  | [] => some acc
  | c :: rest =>
    match digitValue base c with
    | some d => digitsFrom base (acc * base + d) rest
    | none => none

/-- An operand: decimal, or hexadecimal with `0x` (R95). -/
def parseNumber (text : List Char) : Option Nat :=
  match text with
  | [] => none
  | '0' :: 'x' :: [] => none
  | '0' :: 'x' :: digits => digitsFrom 16 0 digits
  | digits => digitsFrom 10 0 digits

/-- A 16-bit operand: pin, index, row or column must be in [0, 65535] (R95). -/
def parseOperand (text : List Char) : Option Nat := (parseNumber text).filter (fun x => x < 65536)

/-- An 8-bit operand: r, g, b and v must be in [0, 255] (R95). -/
def parseByte (text : List Char) : Option Byte :=
  ((parseNumber text).filter (fun x => x < 256)).map (BitVec.ofNat 8)

/-- The operands of a line: none, or the pieces between commas, without their blanks. -/
def lineOperands (text : List Char) : List (List Char) :=
  if trimBlanks text = [] then [] else (splitCommas text).map trimBlanks

/-- The command of one line, or none where the line is none of the forms of R95 or an operand is out of range. -/
def assembleLine (line : List Char) : Option Instr :=
  let text := trimBlanks (stripComment line)
  let name := text.takeWhile (fun c => !isBlank c)
  match lineOperands (text.drop name.length) with
  | [] =>
    if name = ['L', 'A', 'T', 'C', 'H'] then some .latch
    else if name = ['C', 'L', 'E', 'A', 'R'] then some .clear
    else if name = ['F', 'L', 'U', 'S', 'H'] then some .flush
    else none
  | [x] =>
    if name = ['I', 'N', 'I', 'T'] then (parseOperand x).map .init
    else if name = ['R', 'E', 'A', 'D'] then (parseOperand x).map .read
    else if name = ['E', 'M', 'I', 'T'] then (parseByte x).map .emit
    else none
  | [x, y] =>
    if name = ['M', 'A', 'P'] then
      match parseOperand x, parseOperand y with
      | some row, some column => some (.map row column)
      | _, _ => none
    else none
  | [x, y, z, w] =>
    if name = ['S', 'E', 'T'] then
      match parseOperand x, parseByte y, parseByte z, parseByte w with
      | some index, some r, some g, some b => some (.set index r g b)
      | _, _, _, _ => none
    else none
  | _ => none

/-- The command word of one line (R95: each line is encoded by R86 and R88). -/
def assembleWord (line : List Char) : Option CmdWord := (assembleLine line).map encode

/-- `SETXY row, column, r, g, b` (R96): its first command. -/
def setXyFirst (row column : Nat) : Instr := .map row column

/-- `SETXY`: the command that follows MAP's response, if MAP succeeded (R96). -/
def setXyThen (response : RspWord) (r g b : Byte) : Option Instr :=
  if response.extractLsb' 24 8 = statusCode .ok then some (.set (response.extractLsb' 0 24).toNat r g b) else none

/-- `FILL r, g, b` (R96). -/
def fillCommands (cfg : Config) (r g b : Byte) : List Instr := (List.range cfg.n).map (fun i => .set i r g b)

/-- `FRAME v1, ..., vk` (R96). -/
def frameCommands (vs : List Byte) : List Instr := vs.map .emit ++ [.latch]

end Sys2Proof.Machine
end

