-- ==== Sys2Proof/Machine/Outputs.lean ====
section
/-! DEFINITION. The output ports as functions of the state alone (00_scope.md R10, 10_state.md R23, R35, R36). The ports
`rsp_valid` and `rsp_word` are the registers `rspValid` and `rspWord` themselves (R33). -/

namespace Sys2Proof.Machine

/-- `cmd_ready` (R35). -/
def cmdReady (s : State) : Bool := decide (s.cu = .ready)

/-- `line_oe` (R36): the block drives its pin exactly in INITIALIZED and STREAMING. -/
def lineOe (s : State) : Bool := decide (s.eng = .initialized ∨ s.eng = .streaming)

/-- `line` (R36). -/
def line (s : State) : Bool := lineOe s && decide (s.ser.phase = .high)

/-- The level of the pin itself: `none` while the block does not drive it, when a model must take it as unknown (R36, U6,
log entry 11). -/
def pinLevel (s : State) : Option Bool := if lineOe s then some (line s) else none

/-- The output port `pin_sel` (R36). -/
def pinSelPort (s : State) : BitVec 16 := if lineOe s then BitVec.ofNat 16 (s.pinSel.getD 0) else 0

/-- The output port `claim_inst` (R36). -/
def claimInstPort (s : State) : BitVec 1 :=
  match s.claimInst with
  | some p => BitVec.ofNat 1 p.num
  | none => 0

/-- The output port `claim_unit` (R36). -/
def claimUnitPort (s : State) : BitVec 8 :=
  match s.claimUnit with
  | some u => BitVec.ofNat 8 u
  | none => 0

/-- The output port `claim_valid` (R36). -/
def claimValid (s : State) : Bool := s.claimPulse

end Sys2Proof.Machine
end

