-- ==== Sys2Proof/Safety.lean ====
section
/-! DEFINITION. What claims about the block are stated in: runs of many edges, the invariant of every run, the frames of the
wire trace (41_serializer.md R62), the waveform of bytes and its decoder (R61, R63), and the bytes a FLUSH sends
(42_matrix.md R120). -/

namespace Sys2Proof.Machine

/-! Runs. -/

/-- `k` clock edges, stopping at a fault or a refusal. -/
def runSteps (k : Nat) (s : State) : Host.Outcome State Fault Refusal :=
  match k with
  | 0 => .next s
  | k + 1 =>
    match step s with
    | .next t => runSteps k t
    | .fault r => .fault r
    | .refused r => .refused r

/-- The environment never resets the block, now or later. -/
abbrev noReset (s : State) : Prop := s.inp.rst = false ∧ ∀ x ∈ s.script, x.ports.rst = false

/-- A well-formed command is offered and accepted at this edge, and the edge is no reset. -/
abbrev acceptsCommand (s : State) (i : Instr) : Prop :=
  s.cfg.Wf ∧ s.inp.rst = false ∧ accepts s ∧ decode s.inp.cmdWord = .ok i

/-! The invariant. -/

/-- The buffer is in canonical form and lists no index outside [0, N-1] (R28, R40). -/
abbrev bufferOk (s : State) : Prop := s.buf.Wf ∧ s.buf.Within s.cfg.n

/-- `|s.txq| <= QDEPTH` (R29, R60). -/
abbrev queueOk (s : State) : Prop := s.txq.length ≤ s.cfg.qDepth

/-- The serializer's counters in their ranges (R30): at rest in IDLE; otherwise the current phase has from 1 to its full
length of cycles left, from 1 to 8 bits are unfinished, and `sh` holds the bits not yet started at its top, zeros below. -/
abbrev serializerOk (s : State) : Prop :=
  (s.ser.phase = .idle → s.ser = Serializer.rest) ∧
  (s.ser.phase = .high → s.ser.cnt ≤ highTime s.cfg s.ser.cur) ∧
  (s.ser.phase = .low → s.ser.cnt ≤ lowTime s.cfg s.ser.cur) ∧
  (s.ser.phase ≠ .idle → 1 ≤ s.ser.cnt ∧ 1 ≤ s.ser.bits ∧ s.ser.bits ≤ 8 ∧ s.ser.sh <<< (s.ser.bits - 1) = 0)

/-- `s.idle_cnt` lies in [0, T_LATCH] (R31) and is 0 in every cycle that is not IDLE (R59). -/
abbrev idleCounterOk (s : State) : Prop :=
  s.idleCnt ≤ s.cfg.tLatch ∧ (s.ser.phase ≠ .idle → s.idleCnt = 0)

/-- The command unit and the engine state agree: STREAMING exactly during a FLUSH, the other waits only in INITIALIZED, and
the pixel to be pushed exists (R24, R32, R120). -/
def commandUnitOk (s : State) : Bool :=
  match s.cu with
  | .ready => decide (s.eng ≠ .streaming)
  | .emitWait _ => decide (s.eng = .initialized)
  | .latchWait => decide (s.eng = .initialized)
  | .flushPush i _ => decide (s.eng = .streaming ∧ i < s.cfg.n)
  | .flushLatch => decide (s.eng = .streaming)

/-- The Hardware Channel Handle (R25 to R27): a running engine holds a claim of an existing unit, the program in the
claimed instance and a valid pin. -/
abbrev handleHeld (s : State) : Prop :=
  s.claimInst.isSome = true ∧ s.imemLoaded = s.claimInst ∧ s.claimUnit.any (fun u => decide (u < s.cfg.units)) = true ∧
  s.pinSel.any (fun p => decide (p ∈ s.cfg.validPins)) = true

/-- Outside INITIALIZED and STREAMING nothing is claimed, and the buffer, the queue, the serializer and the idle counter hold
their reset values (R25 to R27, R55, R150). -/
abbrev nothingHeld (s : State) : Prop :=
  s.claimInst = none ∧ s.claimUnit = none ∧ s.imemLoaded = none ∧ s.pinSel = none ∧
  s.buf = [] ∧ s.txq = [] ∧ s.ser = Serializer.rest ∧ s.idleCnt = 0

/-- The handle and the engine state agree. -/
abbrev handleOk (s : State) : Prop :=
  (s.eng.active = true → handleHeld s) ∧ (s.eng.active = false → nothingHeld s)

/-- The response register (R33, R94): a response is presented only in a READY cycle, its status is one of the eight, DATA is
0 unless the status is OK (R93), and the claim pulse comes with INIT's response in INITIALIZED (R36). -/
abbrev responseOk (s : State) : Prop :=
  (s.rspValid = true → s.cu = .ready) ∧
  (s.rspWord.extractLsb' 24 8).toNat ≤ 7 ∧
  (s.rspWord.extractLsb' 24 8 ≠ 0 → s.rspWord.extractLsb' 0 24 = 0) ∧
  (s.claimPulse = true → s.rspValid = true ∧ s.eng = .initialized)

/-- The invariant of every run, in every well-formed configuration. -/
structure Inv (s : State) : Prop where
  cfg         : s.cfg.Wf
  buffer      : bufferOk s
  queue       : queueOk s
  serializer  : serializerOk s
  idleCounter : idleCounterOk s
  commandUnit : commandUnitOk s = true
  handle      : handleOk s
  response    : responseOk s

/-! Words of statements about one edge. -/

/-- The command unit's part `o` of an edge from `s`, closed by the serializer's part and the next inputs (R60). -/
def closeWith (s : State) (o : Host.Outcome State Fault Refusal) : Host.Outcome State Fault Refusal :=
  match o with
  | .next t => .next (closeEdge s t)
  | .fault r => .fault r
  | .refused r => .refused r

/-- `s` after a command that completed with the response `w` and had no other effect (R78, R145). -/
def onlyResponse (w : RspWord) (s : State) : State :=
  { s with rspValid := true, rspWord := w, cu := .ready, claimPulse := false }

/-- `t` and `t'` differ at most in the input ports, which are no state of the block. -/
abbrev sameBlock (t t' : State) : Prop := t = { t' with inp := t.inp, script := t.script }

/-- A byte starts at this edge (R56, R58): the serializer is IDLE or at the end of a byte's last cycle, and the queue holds a
byte. -/
abbrev byteStarts (s : State) : Prop :=
  (s.ser.phase = .idle ∨ (s.ser.phase = .low ∧ s.ser.cnt ≤ 1 ∧ s.ser.bits ≤ 1)) ∧ s.txq ≠ []

/-- `pool_free[p][u]` (R23). -/
def unitFree (inp : Inputs) (p : Periph) (u : Nat) : Bool :=
  match p with
  | .primary => inp.free0.getLsbD u
  | .secondary => inp.free1.getLsbD u

/-- Instance `p` has no free unit. -/
abbrev noneFree (s : State) (p : Periph) : Prop := ∀ v < s.cfg.units, unitFree s.inp p v = false

/-- R81 in words: unit `u` of instance `p` is free, no lower unit of `p` is, and instance 1 is taken only when instance 0 has
no free unit. -/
abbrev firstToClaim (s : State) (p : Periph) (u : Nat) : Prop :=
  u < s.cfg.units ∧ unitFree s.inp p u = true ∧ (∀ v < u, unitFree s.inp p v = false) ∧
  (p = .secondary → noneFree s .primary)

/-! The wire trace. -/

/-- The latched frames of a trace whose open frame so far is `cur` (R62). -/
def latchedFrom (cur : List Byte) (trace : List Event) : List (List Byte) :=
  match trace with
  | [] => []
  | .byte v :: rest => latchedFrom (cur ++ [v]) rest
  | .latch :: rest => cur :: latchedFrom [] rest
  | .reset :: rest => latchedFrom [] rest

/-- The latched frames of a trace, oldest first (R62): what a claim about the LEDs speaks of. -/
def latchedFrames (trace : List Event) : List (List Byte) := latchedFrom [] trace

/-- The open frame after a trace: the bytes since its last boundary, `cur` before it (R62). -/
def openFrom (cur : List Byte) (trace : List Event) : List Byte :=
  match trace with
  | [] => cur
  | .byte v :: rest => openFrom (cur ++ [v]) rest
  | .latch :: rest => openFrom [] rest
  | .reset :: rest => openFrom [] rest

/-- The bytes since the last boundary of a trace (R62). -/
def openFrame (trace : List Event) : List Byte := openFrom [] trace

/-- The wire bytes of one pixel: Green, Red, Blue (R44). -/
def pixelBytes (p : Pixel) : List Byte := [p.g, p.r, p.b]

/-- The 3*N bytes a FLUSH sends: every pixel in ascending index order, each in GRB order (R44, R120). -/
def frameBytes (cfg : Config) (m : Memory) : List Byte := (List.range cfg.n).flatMap (fun i => pixelBytes (m.read i))

/-- The bytes a FLUSH in progress has still to push, from channel `ch` of pixel `i` on (R120). -/
def bytesFrom (cfg : Config) (m : Memory) (i : Nat) (ch : Chan) : List Byte :=
  (frameBytes cfg m).drop (3 * i + (match ch with | .green => 0 | .red => 1 | .blue => 2))

/-- The bytes the block has taken on and not yet started: those in the queue, then those its command has still to push. -/
def bytesOwed (s : State) : List Byte :=
  match s.cu with
  | .ready => s.txq
  | .emitWait v => s.txq ++ [v]
  | .latchWait => s.txq
  | .flushPush i ch => s.txq ++ bytesFrom s.cfg s.buf i ch
  | .flushLatch => s.txq

/-- The bytes of a trace, in order (R62). -/
def traceBytes (trace : List Event) : List Byte :=
  match trace with
  | [] => []
  | .byte v :: rest => v :: traceBytes rest
  | .latch :: rest => traceBytes rest
  | .reset :: rest => traceBytes rest

/-- The bytes that a command accepted at this edge takes on: EMIT's byte, FLUSH's whole frame, nothing for any other (R100,
R120). -/
def bytesTakenOn (s : State) : List Byte :=
  match acceptedWord s with
  | none => []
  | some w =>
    match decode w with
    | .error _ => []
    | .ok (.init _) => []
    | .ok (.emit v) => if s.eng = .initialized then [v] else []
    | .ok .latch => []
    | .ok (.set _ _ _ _) => []
    | .ok .clear => []
    | .ok .flush => if s.eng = .initialized then frameBytes s.cfg s.buf else []
    | .ok (.read _) => []
    | .ok (.map _ _) => []

/-! The waveform. -/

/-- The line levels of one bit cell: TH(b) cycles high, then TL(b) cycles low (R61). -/
def bitWave (cfg : Config) (b : Bool) : List Bool :=
  List.replicate (highTime cfg b) true ++ List.replicate (lowTime cfg b) false

/-- The line levels of the top `k` bits of a byte, bit 7 first (R45, R61). -/
def topBitsWave (cfg : Config) (k : Nat) (v : Byte) : List Bool :=
  match k with
  | 0 => []
  | k + 1 => bitWave cfg (v.getLsbD 7) ++ topBitsWave cfg k (v <<< 1)

/-- The line levels of one byte: 8 bit cells (R61). -/
def byteWave (cfg : Config) (v : Byte) : List Bool := topBitsWave cfg 8 v

/-- The lengths of the high pulses of a waveform, `cur` being the length of the pulse under way (R63). R63 says nothing of a
waveform that ends while the line is high: such a pulse counts with its length so far, so a 1 bit cut off after T0H cycles
reads as 0 (DESIGN CHOICE, log entry 16). -/
def pulsesFrom (cur : Nat) (wave : List Bool) : List Nat :=
  match wave with
  | [] => if cur = 0 then [] else [cur]
  | true :: rest => pulsesFrom (cur + 1) rest
  | false :: rest => if cur = 0 then pulsesFrom 0 rest else cur :: pulsesFrom 0 rest

/-- The bit that a high pulse stands for: 1 for T1H cycles, 0 for T0H (R63). That another length stands for no bit is the
model's choice (DESIGN CHOICE, log entry 16): R63 says that the block produces no other high pulses. -/
def pulseBit (cfg : Config) (len : Nat) : Option Bool :=
  if len = cfg.t1h then some true else if len = cfg.t0h then some false else none

/-- Bytes from bits, eight to a byte, most significant first (R63). That bits short of a whole byte are left out is the
model's choice (DESIGN CHOICE, log entry 16). -/
def bytesOfBits (bits : List Bool) : List Byte :=
  match bits with
  | b7 :: b6 :: b5 :: b4 :: b3 :: b2 :: b1 :: b0 :: rest =>
    (BitVec.ofBool b7 ++ BitVec.ofBool b6 ++ BitVec.ofBool b5 ++ BitVec.ofBool b4 ++ BitVec.ofBool b3 ++
      BitVec.ofBool b2 ++ BitVec.ofBool b1 ++ BitVec.ofBool b0) :: bytesOfBits rest
  | _ => []

/-- The receiver of R63: the bytes read from a waveform by the lengths of its high pulses; `none` if some pulse is no bit
(log entry 16). -/
def decodeWave (cfg : Config) (wave : List Bool) : Option (List Byte) :=
  ((pulsesFrom 0 wave).mapM (pulseBit cfg)).map bytesOfBits

/-! Command text, said without the assembler's own reading of it (R95). -/

/-- Text of blanks alone (log entry 12). -/
abbrev blanks (text : List Char) : Prop := ∀ c ∈ text, isBlank c = true

/-- The value of digits in a base, most significant first. -/
def digitsValue (base : Nat) (digits : List Nat) : Nat := digits.foldl (fun acc d => acc * base + d) 0

/-- The text writes the number, decimal or hexadecimal with `0x` (R95); letter case and leading zeros as log entry 12 has
them. -/
def writesNumber (n : Nat) (text : List Char) : Prop :=
  (∃ digits : List Nat, digits ≠ [] ∧ (∀ d ∈ digits, d < 10) ∧ n = digitsValue 10 digits ∧
    text = digits.map Nat.digitChar) ∨
  (∃ (digits : List Nat) (chars : List Char), digits ≠ [] ∧ (∀ d ∈ digits, d < 16) ∧ n = digitsValue 16 digits ∧
    text = '0' :: 'x' :: chars ∧
    List.Forall₂ (fun d c => c = Nat.digitChar d ∨ c = (Nat.digitChar d).toUpper) digits chars)

/-- An operand's text: a written number, with blanks around it or none. -/
def operandText (n : Nat) (text : List Char) : Prop :=
  ∃ before number after, blanks before ∧ blanks after ∧ writesNumber n number ∧ text = before ++ number ++ after

/-- Texts with commas between them. -/
def joinCommas (texts : List (List Char)) : List Char :=
  match texts with
  | [] => []
  | [text] => text
  | text :: rest => text ++ ',' :: joinCommas rest

/-- The line is `name operand, operand, ...`, with a comment or none (R95); blanks as log entry 12 has them. -/
def commandLine (name : List Char) (operands : List (List Char)) (line : List Char) : Prop :=
  ∃ before tail comment, line = before ++ name ++ tail ++ comment ∧ blanks before ∧
    (comment = [] ∨ ∃ rest, comment = ';' :: rest) ∧ (∀ x ∈ operands, ',' ∉ x ∧ ';' ∉ x) ∧
    ((operands = [] ∧ blanks tail) ∨ (operands ≠ [] ∧ ∃ c, isBlank c = true ∧ tail = c :: joinCommas operands))

/-- The mnemonic of a command (R89, R95). -/
def mnemonicText (i : Instr) : List Char := (opcodeRow i).mnemonic.toList

/-- The operands of a command in the order of its text form (R95). -/
def textOperands (i : Instr) : List Nat :=
  match i with
  | .init pin => [pin]
  | .emit v => [v.toNat]
  | .latch => []
  | .set index r g b => [index, r.toNat, g.toNat, b.toNat]
  | .clear => []
  | .flush => []
  | .read index => [index]
  | .map row column => [row, column]

/-- The least number out of the range of the field that operand `k` of the command's form goes to (R95): 256 for r, g, b and v,
65536 for pin, index, row and column. -/
def fieldLimit (i : Instr) (k : Nat) : Nat :=
  match i with
  | .init _ => 65536
  | .emit _ => 256
  | .latch => 65536
  | .set _ _ _ _ => if k = 0 then 65536 else 256
  | .clear => 65536
  | .flush => 65536
  | .read _ => 65536
  | .map _ _ => 65536

end Sys2Proof.Machine
end

