-- ==== Sys2Proof/Certificates/Slice0/Obligations.lean ====
section
/-! DEFINITION. The statements for the provers. Each says what the block does, in a state that any run or none may reach;
`Inv` stands as a premise only where a state no run reaches would make the statement false, and `StepKeepsInvariant` states
that every step keeps it. The configuration is a field of the state, so every statement holds for every configuration. -/

open Sys2Proof Sys2Proof.Machine

/-! Encoding. -/

/-- R97: the nine examples of the spec, text to word, word to command. -/
def Obligations.SpecExampleWordsDecode : Prop :=
  (assembleWord "INIT 7".toList = some 0x0100070000000000 ∧ decode 0x0100070000000000 = .ok (.init 7)) ∧
  (assembleWord "EMIT 0xA5".toList = some 0x02000000000000A5 ∧ decode 0x02000000000000A5 = .ok (.emit 0xA5)) ∧
  (assembleWord "LATCH".toList = some 0x0300000000000000 ∧ decode 0x0300000000000000 = .ok .latch) ∧
  (assembleWord "SET 3, 0x12, 0x34, 0x56".toList = some 0x1000030000123456 ∧
    decode 0x1000030000123456 = .ok (.set 3 0x12 0x34 0x56)) ∧
  (assembleWord "CLEAR".toList = some 0x1100000000000000 ∧ decode 0x1100000000000000 = .ok .clear) ∧
  (assembleWord "FLUSH".toList = some 0x1200000000000000 ∧ decode 0x1200000000000000 = .ok .flush) ∧
  (assembleWord "READ 24".toList = some 0x1300180000000000 ∧ decode 0x1300180000000000 = .ok (.read 24)) ∧
  (assembleWord "MAP 2, 3".toList = some 0x1400020003000000 ∧ decode 0x1400020003000000 = .ok (.map 2 3)) ∧
  (∃ e, decode 0x02000100000000A5 = .error e)

/-- R86 to R90: decoding the word of a well-formed command gives the command back, every operand at every value. -/
def Obligations.DecodeUndoesEncode : Prop :=
  ∀ i : Instr, i.Wf → decode (encode i) = .ok i

/-- R90, R91: a word that decodes is the word of its command, and the command is well-formed: no bit of a word is dropped. -/
def Obligations.EncodeUndoesDecode : Prop :=
  ∀ (w : CmdWord) (i : Instr), decode w = .ok i → i.Wf ∧ encode i = w

/-- R90: a word decodes as command X, with the operands of R87, exactly when `(w & mask_X) = match_X`; it is ILLEGAL exactly
when it matches no row; and it matches at most one. -/
def Obligations.DecodeFollowsTheOpcodeTable : Prop :=
  ∀ w : CmdWord,
    (∀ pin, decode w = .ok (.init pin) ↔ w &&& 0xFF0000FFFFFFFFFF = 0x0100000000000000 ∧ pin = (w.extractLsb' 40 16).toNat) ∧
    (∀ v, decode w = .ok (.emit v) ↔ w &&& 0xFFFFFFFFFFFFFF00 = 0x0200000000000000 ∧ v = w.extractLsb' 0 8) ∧
    (decode w = .ok .latch ↔ w &&& 0xFFFFFFFFFFFFFFFF = 0x0300000000000000) ∧
    (∀ index r g b, decode w = .ok (.set index r g b) ↔
      w &&& 0xFF0000FFFF000000 = 0x1000000000000000 ∧ index = (w.extractLsb' 40 16).toNat ∧
      r = w.extractLsb' 16 8 ∧ g = w.extractLsb' 8 8 ∧ b = w.extractLsb' 0 8) ∧
    (decode w = .ok .clear ↔ w &&& 0xFFFFFFFFFFFFFFFF = 0x1100000000000000) ∧
    (decode w = .ok .flush ↔ w &&& 0xFFFFFFFFFFFFFFFF = 0x1200000000000000) ∧
    (∀ index, decode w = .ok (.read index) ↔
      w &&& 0xFF0000FFFFFFFFFF = 0x1300000000000000 ∧ index = (w.extractLsb' 40 16).toNat) ∧
    (∀ row column, decode w = .ok (.map row column) ↔
      w &&& 0xFF00000000FFFFFF = 0x1400000000000000 ∧ row = (w.extractLsb' 40 16).toNat ∧
      column = (w.extractLsb' 24 16).toNat) ∧
    ((∃ e, decode w = .error e) ↔ ∀ row ∈ opcodeTable, ¬ row.Matches w) ∧
    (∀ row ∈ opcodeTable, ∀ row' ∈ opcodeTable, row.Matches w → row'.Matches w → row = row')

/-! The step. -/

/-- R10, R78, R60: at an edge that accepts a word which decodes to `i`, the step is the meaning of `i`, closed by the
serializer's part of the edge and the next inputs. -/
def Obligations.StepRunsTheDecodedCommand : Prop :=
  ∀ (s : State) (i : Instr), s.cfg.Wf → s.inp.rst = false → s.inp.cmdValid = true → s.cu = .ready →
    decode s.inp.cmdWord = .ok i → step s = closeWith s (exec i s)

/-- The model's convention of log entry 8: the word of a well-formed command, offered by `withFetchWord`, is the command that
the next step accepts. -/
def Obligations.OfferedWordIsAccepted : Prop :=
  ∀ (s : State) (i : Instr), s.cfg.Wf → i.Wf →
    decodeTableWord 64 (encode i).toNat = some i ∧ acceptsCommand (s.withFetchWord 64 (encode i).toNat) i

/-- R91: a word that matches no row completes with ILLEGAL_COMMAND, in every engine state, and changes nothing but the
response register (the serializer steps on, R60). -/
def Obligations.IllegalWordsChangeNothing : Prop :=
  ∀ s : State, s.cfg.Wf → s.inp.rst = false → s.inp.cmdValid = true → s.cu = .ready →
    (∀ row ∈ opcodeTable, ¬ row.Matches s.inp.cmdWord) →
    step s = .next (closeEdge s (onlyResponse 0x06000000 s))

/-- R7: a configuration that breaks any of the listed conditions is refused; one that meets them, and the ranges of R6's
table, is never refused. -/
def Obligations.IllFormedConfigurationIsRefused : Prop :=
  ∀ s : State,
    (¬ (1 ≤ s.cfg.side ∧ s.cfg.side ≤ 255 ∧ s.cfg.n = s.cfg.side * s.cfg.side ∧ 1 ≤ s.cfg.units ∧ 1 ≤ s.cfg.qDepth ∧
        1 ≤ s.cfg.t0h ∧ 1 ≤ s.cfg.t0l ∧ 1 ≤ s.cfg.t1h ∧ 1 ≤ s.cfg.t1l ∧ s.cfg.t0h + s.cfg.t0l = s.cfg.tBit ∧
        s.cfg.t1h + s.cfg.t1l = s.cfg.tBit ∧ s.cfg.t0h < s.cfg.t1h ∧ 1 ≤ s.cfg.tLatch) →
      step s = .refused .illFormedConfig) ∧
    (1 ≤ s.cfg.side ∧ s.cfg.side ≤ 255 ∧ 1 ≤ s.cfg.units ∧ s.cfg.units ≤ 256 ∧ 1 ≤ s.cfg.qDepth ∧
        1 ≤ s.cfg.t0h ∧ 1 ≤ s.cfg.t0l ∧ 1 ≤ s.cfg.t1h ∧ 1 ≤ s.cfg.t1l ∧ s.cfg.t0h + s.cfg.t0l = s.cfg.tBit ∧
        s.cfg.t1h + s.cfg.t1l = s.cfg.tBit ∧ s.cfg.t0h < s.cfg.t1h ∧ 1 ≤ s.cfg.tLatch ∧
        (∀ p ∈ s.cfg.validPins, p < 65536) →
      ∀ r, step s ≠ .refused r)

/-- The model's environment, log entry 2 (R10, R78, R189): a plan whose cycles do not wait is presented cycle by cycle,
whatever the block does, so every sequence of port values is a run's; a plan whose next cycle waits leaves an offered word on
the port until the edge that accepts it. -/
def Obligations.PortsFollowTheEnvironmentsPlan : Prop :=
  ∀ s t : State, step s = .next t →
    (∀ ports rest, s.script = ⟨false, ports⟩ :: rest → t.inp = ports ∧ t.script = rest) ∧
    (∀ ports rest, s.script = ⟨true, ports⟩ :: rest → s.inp.rst = true ∨ s.inp.cmdValid = false ∨ accepts s →
      t.inp = ports ∧ t.script = rest) ∧
    (∀ ports rest, s.script = ⟨true, ports⟩ :: rest → s.inp.rst = false → s.inp.cmdValid = true → ¬ accepts s →
      t.inp = s.inp ∧ t.script = s.script) ∧
    (s.script = [] → t.script = [] ∧ t.inp.rst = false ∧
      (t.inp.cmdValid = true ↔ s.inp.rst = false ∧ s.inp.cmdValid = true ∧ ¬ accepts s) ∧
      (t.inp.cmdValid = true → t.inp = s.inp))

/-! Reset. -/

/-- R39, R180: an edge with `rst = 1`, from any state, leaves every field at its reset value, appends Reset and does nothing
else; the line is undriven; and the first state after power-on holds the same values. -/
def Obligations.ResetLeavesTheResetState : Prop :=
  (∀ s : State, s.cfg.Wf → s.inp.rst = true →
    ∃ t, step s = .next t ∧ t.cfg = s.cfg ∧ t.eng = .uninitialized ∧ t.claimInst = none ∧ t.claimUnit = none ∧
      t.imemLoaded = none ∧ t.pinSel = none ∧ (∀ i, t.buf.read i = ⟨0, 0, 0⟩) ∧ t.txq = [] ∧
      t.ser = ⟨.idle, 0, 0, 0, false⟩ ∧ t.idleCnt = 0 ∧ t.cu = .ready ∧ t.rspValid = false ∧ t.claimPulse = false ∧
      t.rspWord = 0 ∧ t.wtrace = s.wtrace ++ [.reset] ∧ pinLevel t = none) ∧
  (State.reset.eng = .uninitialized ∧ State.reset.claimInst = none ∧ State.reset.claimUnit = none ∧
    State.reset.imemLoaded = none ∧ State.reset.pinSel = none ∧ (∀ i, State.reset.buf.read i = ⟨0, 0, 0⟩) ∧
    State.reset.txq = [] ∧ State.reset.ser = ⟨.idle, 0, 0, 0, false⟩ ∧ State.reset.idleCnt = 0 ∧
    State.reset.cu = .ready ∧ State.reset.rspValid = false ∧ State.reset.claimPulse = false ∧
    State.reset.rspWord = 0 ∧ pinLevel State.reset = none)

/-- R181: a reset edge ends the open frame without latching it: no latched frame is added, and the next frame starts empty. -/
def Obligations.ResetEndsTheFrameUnlatched : Prop :=
  ∀ s t : State, s.inp.rst = true → step s = .next t →
    latchedFrames t.wtrace = latchedFrames s.wtrace ∧ openFrame t.wtrace = [] ∧ bytesOwed t = [] ∧ pinLevel t = none

/-! The invariant. -/

/-- The reset state meets the invariant, in every well-formed configuration, whatever the trace and the inputs. -/
def Obligations.ResetStateMeetsInvariant : Prop :=
  Inv State.reset ∧ ∀ cfg trace inp script, cfg.Wf → Inv (State.resetWith cfg trace inp script)

/-- The headline: every step keeps the invariant, with every input. -/
def Obligations.StepKeepsInvariant : Prop :=
  ∀ s t : State, Inv s → step s = .next t → Inv t

/-- U14: the block has no stuck state. In every state that meets the invariant, with every input, the step goes on: no fault,
no refusal. -/
def Obligations.InvariantStatesNeverStop : Prop :=
  ∀ s : State, Inv s → ∃ t, step s = .next t

/-! INIT. -/

/-- R81, R82, R84: INIT in UNINITIALIZED, with a valid pin and room for the program, claims the lowest free unit of instance 0
or, where that has none, of instance 1; writes what `configure` lists; reports the claim; and changes nothing else. -/
def Obligations.InitClaimsTheFirstFreeUnit : Prop :=
  ∀ (s : State) (pin : Nat) (p : Periph) (u : Nat), s.eng = .uninitialized → pin ∈ s.cfg.validPins →
    firstToClaim s p u → s.inp.imemOk p = true →
    exec (.init pin) s = .next { s with
      claimInst := some p, claimUnit := some u, imemLoaded := some p, pinSel := some pin, buf := [], txq := [],
      ser := ⟨.idle, 0, 0, 0, false⟩, idleCnt := 0, claimPulse := true, eng := .initialized, cu := .ready,
      rspValid := true,
      rspWord := (0 : BitVec 16) ++ BitVec.ofNat 8 (match p with | .primary => 0 | .secondary => 1) ++ BitVec.ofNat 8 u }

/-- R148: RESOURCE_EXHAUSTED is raised when no unit is free, or when the instance that would be claimed has no room for the
program; it enters FAILED and sets no claim and no pin; and it is the answer to no word but an INIT's. -/
def Obligations.InitFailsWithoutResources : Prop :=
  (∀ (s : State) (pin : Nat), s.eng = .uninitialized → pin ∈ s.cfg.validPins →
    (noneFree s .primary ∧ noneFree s .secondary) ∨ (∃ p u, firstToClaim s p u ∧ s.inp.imemOk p = false) →
    exec (.init pin) s = .next (onlyResponse 0x01000000 { s with eng := .failed })) ∧
  (∀ s t : State, step s = .next t → t.rspValid = true → t.rspWord.extractLsb' 24 8 = 0x01 →
    ∃ pin, acceptsCommand s (.init pin))

/-- R83 (a), (b) and R188: a second INIT and an INIT with an invalid pin are answered by their status and change nothing. -/
def Obligations.InitIsGuarded : Prop :=
  ∀ (s : State) (pin : Nat),
    (s.eng = .initialized → exec (.init pin) s = .next (onlyResponse 0x04000000 s)) ∧
    (s.eng = .uninitialized → pin ∉ s.cfg.validPins → exec (.init pin) s = .next (onlyResponse 0x05000000 s))

/-! EMIT. -/

/-- R100: EMIT in INITIALIZED pushes its byte at the acceptance edge if the queue has space, and otherwise waits and pushes it
at the first later edge with space; nothing else changes; before INIT and in FAILED it is answered by its status. -/
def Obligations.EmitPushesOrWaits : Prop :=
  ∀ (s : State) (v : Byte),
    (s.eng = .initialized → s.txq.length < s.cfg.qDepth →
      exec (.emit v) s = .next
        { s with txq := s.txq ++ [v], cu := .ready, rspValid := true, rspWord := 0, claimPulse := false }) ∧
    (s.eng = .initialized → s.cfg.qDepth ≤ s.txq.length →
      exec (.emit v) s = .next { s with cu := .emitWait v, rspValid := false, claimPulse := false }) ∧
    (s.cu = .emitWait v → s.txq.length < s.cfg.qDepth →
      commandUnit s = .next
        { s with txq := s.txq ++ [v], cu := .ready, rspValid := true, rspWord := 0, claimPulse := false }) ∧
    (s.cu = .emitWait v → s.cfg.qDepth ≤ s.txq.length →
      commandUnit s = .next { s with rspValid := false, claimPulse := false }) ∧
    (s.eng = .uninitialized → exec (.emit v) s = .next (onlyResponse 0x03000000 s)) ∧
    (s.eng = .failed → exec (.emit v) s = .next (onlyResponse 0x07000000 s))

/-- R64: an EMIT that waits completes within `8*T_BIT + 1` edges, having pushed its byte; until then there is no response. -/
def Obligations.EmitWaitIsBounded : Prop :=
  ∀ (s : State) (v : Byte), Inv s → noReset s → s.cu = .emitWait v →
    ∃ k t, k ≤ 8 * s.cfg.tBit + 1 ∧ runSteps k s = .next t ∧ t.rspValid = true ∧ t.rspWord = 0 ∧ t.cu = .ready ∧
      t.txq.getLast? = some v ∧
      ∀ j, 0 < j → j < k → ∃ u, runSteps j s = .next u ∧ u.rspValid = false ∧ u.cu = .emitWait v

/-! LATCH. -/

/-- R101: LATCH in INITIALIZED ends the frame at once if the queue is empty, the serializer IDLE and the idle count at
T_LATCH; otherwise it waits and ends the frame at the first later edge where all three hold; nothing else changes;
before INIT and in FAILED it is answered by its status. -/
def Obligations.LatchEndsTheFrameOrWaits : Prop :=
  ∀ s : State,
    (s.eng = .initialized → s.txq = [] → s.ser.phase = .idle → s.cfg.tLatch ≤ s.idleCnt →
      exec .latch s = .next
        { s with wtrace := s.wtrace ++ [.latch], cu := .ready, rspValid := true, rspWord := 0, claimPulse := false }) ∧
    (s.eng = .initialized → ¬ (s.txq = [] ∧ s.ser.phase = .idle ∧ s.cfg.tLatch ≤ s.idleCnt) →
      exec .latch s = .next { s with cu := .latchWait, rspValid := false, claimPulse := false }) ∧
    (s.cu = .latchWait → s.txq = [] → s.ser.phase = .idle → s.cfg.tLatch ≤ s.idleCnt →
      commandUnit s = .next
        { s with wtrace := s.wtrace ++ [.latch], cu := .ready, rspValid := true, rspWord := 0, claimPulse := false }) ∧
    (s.cu = .latchWait → ¬ (s.txq = [] ∧ s.ser.phase = .idle ∧ s.cfg.tLatch ≤ s.idleCnt) →
      commandUnit s = .next { s with rspValid := false, claimPulse := false }) ∧
    (s.eng = .uninitialized → exec .latch s = .next (onlyResponse 0x03000000 s)) ∧
    (s.eng = .failed → exec .latch s = .next (onlyResponse 0x07000000 s))

/-- R64, R102 (e): a LATCH that waits completes within `(QDEPTH + 1) * 8 * T_BIT + T_LATCH + 1` edges, when every byte that
was queued has been started in order and the frame is ended. -/
def Obligations.LatchWaitIsBounded : Prop :=
  ∀ s : State, Inv s → noReset s → s.cu = .latchWait →
    ∃ k t, k ≤ (s.cfg.qDepth + 1) * 8 * s.cfg.tBit + s.cfg.tLatch + 1 ∧ runSteps k s = .next t ∧ t.rspValid = true ∧
      t.rspWord = 0 ∧ t.cu = .ready ∧ t.txq = [] ∧ t.wtrace = s.wtrace ++ s.txq.map Event.byte ++ [.latch] ∧
      ∀ j, 0 < j → j < k → ∃ u, runSteps j s = .next u ∧ u.rspValid = false ∧ u.cu = .latchWait

/-- R52, R59: whenever a step ends a frame, the present cycle and each of the `T_LATCH` cycles before it were IDLE with an
empty queue and the line driven low. The run starts in any state whose idle count is 0 (a reset, an INIT, a byte). -/
def Obligations.LatchEndsAFullIdlePeriod : Prop :=
  ∀ (s t u : State) (k : Nat), Inv s → s.idleCnt = 0 → runSteps k s = .next t → step t = .next u →
    u.wtrace = t.wtrace ++ [.latch] →
    s.cfg.tLatch ≤ k ∧
    ∀ j ≤ s.cfg.tLatch, ∃ x, runSteps (k - j) s = .next x ∧ pinLevel x = some false ∧ x.ser.phase = .idle ∧ x.txq = []

/-! SET, CLEAR, READ. -/

/-- R115: SET writes the pixel at its index and no other, and changes nothing else; out of range, before INIT and in FAILED it
is answered by its status and writes nothing. -/
def Obligations.SetWritesOnePixel : Prop :=
  ∀ (s : State) (index : Nat) (r g b : Byte),
    (s.eng = .initialized → index < s.cfg.side * s.cfg.side → s.buf.Wf →
      ∃ m : Memory, exec (.set index r g b) s = .next
          { s with buf := m, cu := .ready, rspValid := true, rspWord := 0, claimPulse := false } ∧
        m.Wf ∧ ∀ j, m.read j = if j = index then ⟨r, g, b⟩ else s.buf.read j) ∧
    (s.eng = .initialized → s.cfg.side * s.cfg.side ≤ index →
      exec (.set index r g b) s = .next (onlyResponse 0x02000000 s)) ∧
    (s.eng = .uninitialized → exec (.set index r g b) s = .next (onlyResponse 0x03000000 s)) ∧
    (s.eng = .failed → exec (.set index r g b) s = .next (onlyResponse 0x07000000 s))

/-- R116: CLEAR zeroes every pixel at one edge and changes nothing else; before INIT and in FAILED it is answered by its
status. -/
def Obligations.ClearZeroesEveryPixel : Prop :=
  ∀ s : State,
    (s.eng = .initialized →
      ∃ m : Memory, exec .clear s = .next
          { s with buf := m, cu := .ready, rspValid := true, rspWord := 0, claimPulse := false } ∧
        m.Wf ∧ ∀ j, m.read j = ⟨0, 0, 0⟩) ∧
    (s.eng = .uninitialized → exec .clear s = .next (onlyResponse 0x03000000 s)) ∧
    (s.eng = .failed → exec .clear s = .next (onlyResponse 0x07000000 s))

/-- R117: READ answers with the pixel as `{r, g, b}` and changes nothing but the response register; out of range, before INIT
and in FAILED it is answered by its status. -/
def Obligations.ReadReturnsThePixel : Prop :=
  ∀ (s : State) (index : Nat),
    (s.eng = .initialized → index < s.cfg.side * s.cfg.side →
      exec (.read index) s = .next (onlyResponse
        ((0 : BitVec 8) ++ (s.buf.read index).r ++ (s.buf.read index).g ++ (s.buf.read index).b) s)) ∧
    (s.eng = .initialized → s.cfg.side * s.cfg.side ≤ index →
      exec (.read index) s = .next (onlyResponse 0x02000000 s)) ∧
    (s.eng = .uninitialized → exec (.read index) s = .next (onlyResponse 0x03000000 s)) ∧
    (s.eng = .failed → exec (.read index) s = .next (onlyResponse 0x07000000 s))

/-- R50 and the source's properties L1-3, L1-4: a READ after a SET of its index returns exactly the colour, a READ of another
index returns what it returned before, and a READ after CLEAR returns (0, 0, 0). -/
def Obligations.ReadSeesTheLatestWrite : Prop :=
  ∀ (s t : State) (i j : Nat) (r g b : Byte), s.eng = .initialized → s.buf.Wf → i < s.cfg.n → j < s.cfg.n →
    (exec (.set i r g b) s = .next t →
      (∃ u, exec (.read i) t = .next u ∧ u.rspValid = true ∧ u.rspWord = (0 : BitVec 8) ++ r ++ g ++ b) ∧
      (j ≠ i → ∃ u u', exec (.read j) t = .next u ∧ exec (.read j) s = .next u' ∧ u.rspWord = u'.rspWord)) ∧
    (exec .clear s = .next t → ∃ u, exec (.read j) t = .next u ∧ u.rspValid = true ∧ u.rspWord = 0)

/-! FLUSH. -/

/-- R119: FLUSH in INITIALIZED enters STREAMING and pushes the green channel of pixel 0 at the same edge, or waits for space;
nothing else changes; before INIT and in FAILED it is answered by its status. -/
def Obligations.FlushStartsStreaming : Prop :=
  ∀ s : State, s.cfg.Wf →
    (s.eng = .initialized → s.txq.length < s.cfg.qDepth →
      exec .flush s = .next { s with
        eng := .streaming, txq := s.txq ++ [(s.buf.read 0).g], cu := .flushPush 0 .red, rspValid := false,
        claimPulse := false }) ∧
    (s.eng = .initialized → s.cfg.qDepth ≤ s.txq.length →
      exec .flush s = .next { s with
        eng := .streaming, cu := .flushPush 0 .green, rspValid := false, claimPulse := false }) ∧
    (s.eng = .uninitialized → exec .flush s = .next (onlyResponse 0x03000000 s)) ∧
    (s.eng = .failed → exec .flush s = .next (onlyResponse 0x07000000 s))

/-- R120: the push loop: with space it pushes the channel it is at and moves on Green, Red, Blue, next pixel, ending after the
blue of pixel N-1; without space it stays; nothing else changes. -/
def Obligations.FlushPushesChannelByChannel : Prop :=
  ∀ (s : State) (i : Nat), i < s.cfg.n →
    (s.cu = .flushPush i .green → s.txq.length < s.cfg.qDepth →
      commandUnit s = .next { s with
        txq := s.txq ++ [(s.buf.read i).g], cu := .flushPush i .red, rspValid := false, claimPulse := false }) ∧
    (s.cu = .flushPush i .red → s.txq.length < s.cfg.qDepth →
      commandUnit s = .next { s with
        txq := s.txq ++ [(s.buf.read i).r], cu := .flushPush i .blue, rspValid := false, claimPulse := false }) ∧
    (s.cu = .flushPush i .blue → i + 1 < s.cfg.n → s.txq.length < s.cfg.qDepth →
      commandUnit s = .next { s with
        txq := s.txq ++ [(s.buf.read i).b], cu := .flushPush (i + 1) .green, rspValid := false, claimPulse := false }) ∧
    (s.cu = .flushPush i .blue → i + 1 = s.cfg.n → s.txq.length < s.cfg.qDepth →
      commandUnit s = .next { s with
        txq := s.txq ++ [(s.buf.read i).b], cu := .flushLatch, rspValid := false, claimPulse := false }) ∧
    (∀ ch, s.cu = .flushPush i ch → s.cfg.qDepth ≤ s.txq.length →
      commandUnit s = .next { s with rspValid := false, claimPulse := false })

/-- R121: a FLUSH that has pushed its last byte ends, with one Latch and back to INITIALIZED, exactly at an edge where
`latch_done` holds, and stays otherwise; nothing else changes. -/
def Obligations.FlushEndsWithOneLatch : Prop :=
  ∀ s : State, s.cu = .flushLatch →
    (s.txq = [] → s.ser.phase = .idle → s.cfg.tLatch ≤ s.idleCnt →
      commandUnit s = .next { s with
        eng := .initialized, wtrace := s.wtrace ++ [.latch], cu := .ready, rspValid := true, rspWord := 0,
        claimPulse := false }) ∧
    (¬ (s.txq = [] ∧ s.ser.phase = .idle ∧ s.cfg.tLatch ≤ s.idleCnt) →
      commandUnit s = .next { s with rspValid := false, claimPulse := false })

/-- R119 to R121, R124, R44, the headline of FLUSH: from any state that meets the invariant, whatever is left in the queue, a
FLUSH runs to its end: the trace gains the bytes left in the queue, then the 3*N bytes of the buffer as it was at acceptance
in GRB order, then exactly one Latch, so that one frame is latched; in every cycle before its response the block is
STREAMING, not ready and silent. -/
def Obligations.FlushSendsTheWholeBuffer : Prop :=
  ∀ s : State, Inv s → noReset s → acceptsCommand s .flush → s.eng = .initialized →
    ∃ k t, runSteps (k + 1) s = .next t ∧ t.rspValid = true ∧ t.rspWord = 0 ∧ t.cu = .ready ∧ t.eng = .initialized ∧
      t.buf = s.buf ∧ t.txq = [] ∧
      t.wtrace = s.wtrace ++ (s.txq ++ frameBytes s.cfg s.buf).map Event.byte ++ [.latch] ∧
      latchedFrames t.wtrace =
        latchedFrames s.wtrace ++ [openFrame s.wtrace ++ s.txq ++ frameBytes s.cfg s.buf] ∧
      ∀ j, 0 < j → j ≤ k → ∃ u, runSteps j s = .next u ∧ u.eng = .streaming ∧ u.cu ≠ .ready ∧ u.rspValid = false ∧
        u.buf = s.buf

/-- R125: the duration of a FLUSH accepted at edge t with the queue empty and the serializer IDLE (the run's step number j is
edge t + j - 1): byte k starts at edge `t + 1 + 8*T_BIT*k`, the serializer enters IDLE in cycle `t + 2 + 24*N*T_BIT`, the
latch completes at edge `t + 2 + 24*N*T_BIT + T_LATCH` and the response appears in the next cycle. -/
def Obligations.FlushTakesItsExactTime : Prop :=
  ∀ s : State, Inv s → noReset s → acceptsCommand s .flush → s.eng = .initialized → s.txq = [] → s.ser.phase = .idle →
    (∀ k < 3 * s.cfg.n, ∃ u v,
      runSteps (1 + 8 * s.cfg.tBit * k) s = .next u ∧
      u.wtrace = s.wtrace ++ ((frameBytes s.cfg s.buf).take k).map Event.byte ∧
      runSteps (2 + 8 * s.cfg.tBit * k) s = .next v ∧
      v.wtrace = s.wtrace ++ ((frameBytes s.cfg s.buf).take (k + 1)).map Event.byte) ∧
    (∃ u v, runSteps (1 + 24 * s.cfg.n * s.cfg.tBit) s = .next u ∧ u.ser.phase ≠ .idle ∧
      runSteps (2 + 24 * s.cfg.n * s.cfg.tBit) s = .next v ∧ v.ser.phase = .idle) ∧
    (∃ u v, runSteps (2 + 24 * s.cfg.n * s.cfg.tBit + s.cfg.tLatch) s = .next u ∧ u.eng = .streaming ∧
      u.rspValid = false ∧
      runSteps (3 + 24 * s.cfg.n * s.cfg.tBit + s.cfg.tLatch) s = .next v ∧ v.eng = .initialized ∧
      v.rspValid = true ∧ v.rspWord = 0 ∧
      v.wtrace = s.wtrace ++ (frameBytes s.cfg s.buf).map Event.byte ++ [.latch])

/-! MAP. -/

/-- R122, R123: MAP of a coordinate in range answers, in UNINITIALIZED and INITIALIZED, with the index of the serpentine
formula, whose closed form is `(S-1-row)*S + (row even ? S-1-column : column)`; out of range it answers OUT_OF_RANGE; it
changes nothing but the response register. -/
def Obligations.MapComputesTheSerpentineIndex : Prop :=
  ∀ (s : State) (row column : Nat), s.cfg.side ≤ 255 →
    (s.eng = .uninitialized ∨ s.eng = .initialized → row < s.cfg.side → column < s.cfg.side →
      ∃ index : Nat, exec (.map row column) s = .next (onlyResponse ((0 : BitVec 16) ++ BitVec.ofNat 16 index) s) ∧
        index < s.cfg.side * s.cfg.side ∧ index ≤ 65024 ∧
        (row % 2 = 0 → index + (row * s.cfg.side + column) = s.cfg.side * s.cfg.side - 1) ∧
        (row % 2 = 1 → index + (row * s.cfg.side + (s.cfg.side - 1 - column)) = s.cfg.side * s.cfg.side - 1) ∧
        index = (s.cfg.side - 1 - row) * s.cfg.side + (if row % 2 = 0 then s.cfg.side - 1 - column else column)) ∧
    (s.eng = .uninitialized ∨ s.eng = .initialized → s.cfg.side ≤ row ∨ s.cfg.side ≤ column →
      exec (.map row column) s = .next (onlyResponse 0x02000000 s)) ∧
    (s.eng = .failed → exec (.map row column) s = .next (onlyResponse 0x07000000 s))

/-- R126: for every side S the mapping is a bijection from the coordinates onto [0, S*S - 1], with the inverse `unmap`, and
index 0 lies at (S-1, S-1) when S is odd and at (S-1, 0) when S is even. -/
def Obligations.SerpentineIsABijection : Prop :=
  ∀ side : Nat, 1 ≤ side →
    (∀ row column, row < side → column < side →
      serpentine side row column < side * side ∧ unmap side (serpentine side row column) = (row, column)) ∧
    (∀ idx, idx < side * side →
      (unmap side idx).1 < side ∧ (unmap side idx).2 < side ∧
      serpentine side (unmap side idx).1 (unmap side idx).2 = idx) ∧
    (side % 2 = 1 → serpentine side (side - 1) (side - 1) = 0) ∧
    (side % 2 = 0 → serpentine side (side - 1) 0 = 0)

/-! Errors. -/

/-- R147: the checks in their order, the first that fails giving the status: ILLEGAL before FAILED before the engine-state
check before the operand check before the resource check; and no word is accepted in STREAMING. -/
def Obligations.StatusFollowsThePriority : Prop :=
  (∀ (s : State) (e : Illegal), s.cfg.Wf → s.inp.rst = false → accepts s → decode s.inp.cmdWord = .error e →
    step s = .next (closeEdge s (onlyResponse 0x06000000 s))) ∧
  (∀ (s : State) (i : Instr), s.eng = .failed → exec i s = .next (onlyResponse 0x07000000 s)) ∧
  (∀ (s : State) (v r g b : Byte) (index : Nat), s.eng = .uninitialized →
    exec (.emit v) s = .next (onlyResponse 0x03000000 s) ∧ exec .latch s = .next (onlyResponse 0x03000000 s) ∧
    exec (.set index r g b) s = .next (onlyResponse 0x03000000 s) ∧
    exec .clear s = .next (onlyResponse 0x03000000 s) ∧ exec (.read index) s = .next (onlyResponse 0x03000000 s) ∧
    exec .flush s = .next (onlyResponse 0x03000000 s)) ∧
  (∀ (s : State) (pin : Nat), s.eng = .initialized → exec (.init pin) s = .next (onlyResponse 0x04000000 s)) ∧
  (∀ (s : State) (pin : Nat), s.eng = .uninitialized → pin ∉ s.cfg.validPins →
    exec (.init pin) s = .next (onlyResponse 0x05000000 s)) ∧
  (∀ (s : State) (index : Nat) (r g b : Byte), s.eng = .initialized → s.cfg.n ≤ index →
    exec (.set index r g b) s = .next (onlyResponse 0x02000000 s) ∧
    exec (.read index) s = .next (onlyResponse 0x02000000 s)) ∧
  (∀ (s : State) (row column : Nat), s.eng = .uninitialized ∨ s.eng = .initialized →
    s.cfg.side ≤ row ∨ s.cfg.side ≤ column → exec (.map row column) s = .next (onlyResponse 0x02000000 s)) ∧
  (∀ (s : State) (pin : Nat), s.eng = .uninitialized → pin ∈ s.cfg.validPins →
    noneFree s .primary → noneFree s .secondary →
    exec (.init pin) s = .next (onlyResponse 0x01000000 { s with eng := .failed })) ∧
  (∀ s : State, Inv s → s.eng = .streaming → ¬ accepts s)

/-- R145, R149: whatever command answers with an error status, DATA is 0 and nothing but the response register has changed,
but for RESOURCE_EXHAUSTED, which also leaves FAILED. -/
def Obligations.ErrorsHaveNoEffect : Prop :=
  ∀ (i : Instr) (s t : State), exec i s = .next t → t.rspValid = true → t.rspWord.extractLsb' 24 8 ≠ 0 →
    t.rspWord.extractLsb' 0 24 = 0 ∧
    (t.rspWord.extractLsb' 24 8 ≠ 0x01 → t = onlyResponse t.rspWord s) ∧
    (t.rspWord.extractLsb' 24 8 = 0x01 → t = onlyResponse t.rspWord { s with eng := .failed })

/-- R150: FAILED is entered only by RESOURCE_EXHAUSTED and left only by reset; in it every decodable command answers FAILED,
every ILLEGAL word ILLEGAL_COMMAND, the line is not driven, and queue and serializer stay idle. -/
def Obligations.FailedIsLeftOnlyByReset : Prop :=
  (∀ s t : State, Inv s → s.eng = .failed → s.inp.rst = false → step s = .next t →
    t.eng = .failed ∧ pinLevel t = none ∧ t.txq = [] ∧ t.ser = ⟨.idle, 0, 0, 0, false⟩ ∧ t.wtrace = s.wtrace ∧
    (accepts s → t.rspValid = true ∧
      ((∃ i, decode s.inp.cmdWord = .ok i) → t.rspWord = 0x07000000) ∧
      ((∃ e, decode s.inp.cmdWord = .error e) → t.rspWord = 0x06000000))) ∧
  (∀ s t : State, Inv s → s.eng ≠ .failed → step s = .next t → t.eng = .failed →
    s.eng = .uninitialized ∧ t.rspValid = true ∧ t.rspWord = 0x01000000)

/-- R93, R94: the status of every response is one of the eight; DATA is 0 but for INIT's claim, READ's pixel and MAP's index;
EMIT, LATCH and FLUSH, at whichever edge they complete, answer OK with DATA 0 or an error. -/
def Obligations.ResponsesCarryTheirData : Prop :=
  (∀ (i : Instr) (s t : State), exec i s = .next t → t.rspValid = true →
    (t.rspWord.extractLsb' 24 8).toNat ≤ 7 ∧
    (t.rspWord.extractLsb' 24 8 = 0 → t.rspWord.extractLsb' 0 24 ≠ 0 →
      (∃ pin p u, i = .init pin ∧ t.claimInst = some p ∧ t.claimUnit = some u ∧
        t.rspWord = (0 : BitVec 16) ++ BitVec.ofNat 8 (match p with | .primary => 0 | .secondary => 1) ++ BitVec.ofNat 8 u) ∨
      (∃ index, i = .read index ∧
        t.rspWord = (0 : BitVec 8) ++ (s.buf.read index).r ++ (s.buf.read index).g ++ (s.buf.read index).b) ∨
      (∃ row column, i = .map row column ∧
        t.rspWord = (0 : BitVec 16) ++ BitVec.ofNat 16 (serpentine s.cfg.side row column)))) ∧
  (∀ s t : State, continueCommand s = .next t → t.rspValid = true → t.rspWord = 0)

/-- R33, R78: without reset, a cycle presents a response exactly when a command completed at the edge before it, the command
unit then being READY; in every other cycle `rsp_word` keeps its value; and `claim_pulse` is set exactly in the cycle after an
INIT that brought the engine to INITIALIZED. -/
def Obligations.ResponseIsAOneCyclePulse : Prop :=
  ∀ s t : State, s.inp.rst = false → step s = .next t →
    (t.rspValid = true → t.cu = .ready ∧ (accepts s ∨ s.cu ≠ .ready)) ∧
    (t.rspValid = false → t.rspWord = s.rspWord) ∧
    (accepts s ∨ s.cu ≠ .ready → t.cu = .ready → t.rspValid = true) ∧
    (t.claimPulse = true ↔ s.eng = .uninitialized ∧ t.eng = .initialized ∧ ∃ pin, acceptsCommand s (.init pin))

/-- R192: INIT, SET, CLEAR, READ, MAP and every command answered by an error complete at their acceptance edge. STREAMING, in
which no word is accepted (R147), is left out. -/
def Obligations.OneEdgeCommandsRespondAtOnce : Prop :=
  ∀ (s t : State) (i : Instr), s.eng ≠ .streaming → exec i s = .next t →
    ((∃ pin, i = .init pin) ∨ (∃ index r g b, i = .set index r g b) ∨ i = .clear ∨ (∃ index, i = .read index) ∨
      (∃ row column, i = .map row column) ∨ s.eng = .uninitialized ∨ s.eng = .failed) →
    t.rspValid = true ∧ t.cu = .ready

/-! Rules of the whole machine. -/

/-- R85: no command but INIT writes the claim, the loaded instance or the pin, or depends on the platform's wires; only INIT
and FLUSH write the engine state at their acceptance edge, and only the end of a FLUSH at a later one; INIT completes at the
edge where it is accepted. -/
def Obligations.OnlyInitWritesTheHandle : Prop :=
  (∀ (i : Instr) (s t : State), (∀ pin, i ≠ .init pin) → exec i s = .next t →
    t.claimInst = s.claimInst ∧ t.claimUnit = s.claimUnit ∧ t.imemLoaded = s.imemLoaded ∧ t.pinSel = s.pinSel ∧
    (t.eng ≠ s.eng → i = .flush) ∧
    ∀ inp', exec i { s with inp := inp' } = .next { t with inp := inp' }) ∧
  (∀ s t : State, continueCommand s = .next t →
    t.claimInst = s.claimInst ∧ t.claimUnit = s.claimUnit ∧ t.imemLoaded = s.imemLoaded ∧ t.pinSel = s.pinSel ∧
    (t.eng ≠ s.eng → s.cu = .flushLatch) ∧
    ∀ inp', continueCommand { s with inp := inp' } = .next { t with inp := inp' }) ∧
  (∀ (pin : Nat) (s t : State), exec (.init pin) s = .next t → t.rspValid = true ∧ t.cu = .ready)

/-- R25 to R27: once written, the claim, the loaded instance and the pin are kept by every step but a reset. -/
def Obligations.HandleIsKeptUntilReset : Prop :=
  ∀ s t : State, Inv s → s.claimInst ≠ none → s.inp.rst = false → step s = .next t →
    t.claimInst = s.claimInst ∧ t.claimUnit = s.claimUnit ∧ t.imemLoaded = s.imemLoaded ∧ t.pinSel = s.pinSel

/-- R41: a step changes the buffer only by an accepted INIT, SET or CLEAR, or by reset; EMIT, LATCH and MAP do not even
depend on it. -/
def Obligations.OnlyTheseCommandsReachTheBuffer : Prop :=
  (∀ s t : State, step s = .next t → t.buf ≠ s.buf →
    s.inp.rst = true ∨ ∃ i, acceptsCommand s i ∧
      ((∃ pin, i = .init pin) ∨ (∃ index r g b, i = .set index r g b) ∨ i = .clear)) ∧
  (∀ (s t : State) (i : Instr) (m : Memory), (∃ v, i = .emit v) ∨ i = .latch ∨ (∃ row column, i = .map row column) →
    exec i s = .next t → exec i { s with buf := m } = .next { t with buf := m })

/-- R24: without reset the engine state moves only from UNINITIALIZED to INITIALIZED or FAILED by an accepted INIT, from
INITIALIZED to STREAMING by an accepted FLUSH, and from STREAMING to INITIALIZED when a FLUSH ends. -/
def Obligations.EngineStateMovesAsListed : Prop :=
  ∀ s t : State, Inv s → s.inp.rst = false → step s = .next t → t.eng ≠ s.eng →
    (s.eng = .uninitialized ∧ (t.eng = .initialized ∨ t.eng = .failed) ∧ ∃ pin, acceptsCommand s (.init pin)) ∨
    (s.eng = .initialized ∧ t.eng = .streaming ∧ acceptsCommand s .flush) ∨
    (s.eng = .streaming ∧ t.eng = .initialized ∧ s.cu = .flushLatch ∧ latchDone s)

/-- R34, R62: every step, reset included, keeps the trace so far and appends at most one event; and no step changes the
configuration. -/
def Obligations.TraceOnlyGrows : Prop :=
  ∀ s t : State, step s = .next t →
    t.cfg = s.cfg ∧ (t.wtrace = s.wtrace ∨ ∃ e, t.wtrace = s.wtrace ++ [e])

/-- R35, R85: while a command is in progress the block does not depend on what the command port or the platform's wires
carry. -/
def Obligations.BusyBlockIgnoresItsPorts : Prop :=
  ∀ (s t : State) (inp' : Inputs) (script' : List PlannedCycle), s.cu ≠ .ready → inp'.rst = s.inp.rst → step s = .next t →
    ∃ t', step { s with inp := inp', script := script' } = .next t' ∧ sameBlock t' t

/-! The serializer. -/

/-- R56: in IDLE, the head of the queue starts: its bit 7 begins a high phase of TH cycles, the trace gains the byte, the idle
count is 0; with an empty queue the idle count goes up to T_LATCH and the rest is kept. -/
def Obligations.SerializerIdlePhase : Prop :=
  ∀ s t : State, s.inp.rst = false → s.eng.active = true → s.ser.phase = .idle → step s = .next t →
    (∀ v q, s.txq = v :: q →
      t.ser = ⟨.high, if v.getLsbD 7 then s.cfg.t1h else s.cfg.t0h, v <<< 1, 8, v.getLsbD 7⟩ ∧ t.idleCnt = 0 ∧
      t.wtrace = s.wtrace ++ [.byte v] ∧ ∃ pushed, t.txq = q ++ pushed) ∧
    (s.txq = [] → t.ser = s.ser ∧ t.idleCnt = min (s.idleCnt + 1) s.cfg.tLatch)

/-- R57: the HIGH phase counts down and turns LOW with TL cycles to go; so a HIGH phase with `ser_cnt = c` in the present
cycle lasts exactly `c` cycles. -/
def Obligations.SerializerHighPhase : Prop :=
  (∀ s t : State, s.inp.rst = false → s.eng.active = true → s.ser.phase = .high → step s = .next t →
    (1 < s.ser.cnt → t.ser = { s.ser with cnt := s.ser.cnt - 1 }) ∧
    (s.ser.cnt ≤ 1 → t.ser = { s.ser with phase := .low, cnt := if s.ser.cur then s.cfg.t1l else s.cfg.t0l })) ∧
  (∀ s : State, Inv s → noReset s → s.eng.active = true → s.ser.phase = .high →
    (∀ j < s.ser.cnt, ∃ t, runSteps j s = .next t ∧ t.ser.phase = .high) ∧
    ∃ t, runSteps s.ser.cnt s = .next t ∧ t.ser.phase = .low)

/-- R58: the LOW phase counts down; at its end the next bit of the byte begins, or the next byte if the queue holds one, or
the serializer comes to rest; so a LOW phase with `ser_cnt = c` in the present cycle lasts exactly `c` cycles. -/
def Obligations.SerializerLowPhase : Prop :=
  (∀ s t : State, s.inp.rst = false → s.eng.active = true → s.ser.phase = .low → step s = .next t →
    (1 < s.ser.cnt → t.ser = { s.ser with cnt := s.ser.cnt - 1 }) ∧
    (s.ser.cnt ≤ 1 → 1 < s.ser.bits →
      t.ser = ⟨.high, if s.ser.sh.getLsbD 7 then s.cfg.t1h else s.cfg.t0h, s.ser.sh <<< 1, s.ser.bits - 1,
        s.ser.sh.getLsbD 7⟩) ∧
    (s.ser.cnt ≤ 1 → s.ser.bits ≤ 1 → ∀ v q, s.txq = v :: q →
      t.ser = ⟨.high, if v.getLsbD 7 then s.cfg.t1h else s.cfg.t0h, v <<< 1, 8, v.getLsbD 7⟩ ∧ t.idleCnt = 0 ∧
      t.wtrace = s.wtrace ++ [.byte v] ∧ ∃ pushed, t.txq = q ++ pushed) ∧
    (s.ser.cnt ≤ 1 → s.ser.bits ≤ 1 → s.txq = [] → t.ser = ⟨.idle, 0, 0, 0, false⟩)) ∧
  (∀ s : State, Inv s → noReset s → s.eng.active = true → s.ser.phase = .low →
    (∀ j < s.ser.cnt, ∃ t, runSteps j s = .next t ∧ t.ser.phase = .low) ∧
    ∃ t, runSteps s.ser.cnt s = .next t ∧ t.ser.phase ≠ .low)

/-- R59: the idle counter goes up in IDLE with an empty queue, to T_LATCH at most, is 0 after an edge where a byte starts, and
keeps its value at every other edge. -/
def Obligations.IdleCounterFollowsItsRule : Prop :=
  ∀ s t : State, s.inp.rst = false → s.eng.active = true → step s = .next t →
    (s.ser.phase = .idle → s.txq = [] → t.idleCnt = min (s.idleCnt + 1) s.cfg.tLatch) ∧
    (byteStarts s → t.idleCnt = 0) ∧
    (s.ser.phase ≠ .idle → ¬ byteStarts s → t.idleCnt = s.idleCnt)

/-- R55: where the engine is neither INITIALIZED nor STREAMING, serializer, idle counter and queue keep their values, which
are their reset values. -/
def Obligations.SerializerRestsOutsideRunning : Prop :=
  ∀ s t : State, Inv s → s.inp.rst = false → s.eng.active = false → step s = .next t →
    t.ser = s.ser ∧ t.idleCnt = s.idleCnt ∧ t.txq = s.txq ∧
    s.ser = ⟨.idle, 0, 0, 0, false⟩ ∧ s.idleCnt = 0 ∧ s.txq = []

/-- R60, R51: at one edge the queue loses its head exactly when a byte starts, then gains at most one byte, and that only if
it had space at the start of the edge; the trace gains the serializer's event first. -/
def Obligations.QueuePopsThenPushes : Prop :=
  ∀ s t : State, s.inp.rst = false → s.eng.active = true → step s = .next t →
    ∃ (pushed : List Byte) (ended : List Event),
      t.txq = (if byteStarts s then s.txq.tail else s.txq) ++ pushed ∧
      t.wtrace = s.wtrace ++ (if byteStarts s then (s.txq.take 1).map Event.byte else []) ++ ended ∧
      pushed.length ≤ 1 ∧ (pushed ≠ [] → s.txq.length < s.cfg.qDepth) ∧ (ended = [] ∨ (ended = [.latch] ∧ latchDone s)) ∧
      (s.txq.length ≤ s.cfg.qDepth → t.txq.length ≤ s.cfg.qDepth)

/-- R51, the conservation law of bytes: at every edge without reset, the bytes started so far, followed by those the block
still owes, grow by exactly the bytes of a command accepted at that edge: EMIT's byte, or a FLUSH's whole frame in GRB order.
So bytes go onto the line in the order they were given, each once, and none of its own. -/
def Obligations.BytesGoOutInPushOrder : Prop :=
  ∀ s t : State, Inv s → s.inp.rst = false → step s = .next t →
    traceBytes t.wtrace ++ bytesOwed t = traceBytes s.wtrace ++ bytesOwed s ++ bytesTakenOn s

/-- R61: the waveform of a byte that starts at this edge: in bit cell k it drives bit 7-k, high for TH cycles and low for the
rest of T_BIT, whatever commands run meanwhile; at the end the next byte starts if one is queued, else the line stays low in
IDLE. (The state after j steps is the one in cycle e + j, e being this edge.) -/
def Obligations.ByteDrivesItsWaveform : Prop :=
  ∀ (s : State) (v : Byte) (q : List Byte), Inv s → noReset s → s.eng.active = true → byteStarts s → s.txq = v :: q →
    (∀ k < 8, ∀ c < s.cfg.tBit, ∃ t, runSteps (1 + k * s.cfg.tBit + c) s = .next t ∧ t.ser.phase ≠ .idle ∧
      pinLevel t = some (decide (c < if v.getLsbD (7 - k) then s.cfg.t1h else s.cfg.t0h))) ∧
    ∃ t u, runSteps (8 * s.cfg.tBit) s = .next t ∧ step t = .next u ∧
      (∀ w r, t.txq = w :: r → byteStarts t ∧ u.wtrace = t.wtrace ++ [.byte w] ∧ pinLevel u = some true) ∧
      (t.txq = [] → u.ser.phase = .idle ∧ pinLevel u = some false)

/-- R63: a receiver that reads the line by the lengths of its high pulses gets back exactly the bytes sent, with gaps of any
length before each. -/
def Obligations.WaveformDecodesToItsBytes : Prop :=
  ∀ (cfg : Config) (sent : List (Nat × Byte)) (tail : Nat), cfg.Wf →
    decodeWave cfg (sent.flatMap (fun x => List.replicate x.1 false ++ byteWave cfg x.2) ++ List.replicate tail false) =
      some (sent.map Prod.snd)

/-- R61, R63: what the block drives during the `8*T_BIT` cycles of a byte, read by that receiver, is the byte. -/
def Obligations.DrivenLineDecodesToTheByte : Prop :=
  ∀ (s : State) (v : Byte) (q : List Byte) (wave : List Bool), Inv s → noReset s → s.eng.active = true → byteStarts s →
    s.txq = v :: q → wave.length = 8 * s.cfg.tBit →
    (∀ j < 8 * s.cfg.tBit, ∃ t, runSteps (1 + j) s = .next t ∧ wave[j]? = some (line t)) →
    wave = byteWave s.cfg v ∧ decodeWave s.cfg wave = some [v]

/-! Outputs. -/

/-- R35, R36: the output ports as the state gives them. -/
def Obligations.OutputsFollowTheState : Prop :=
  ∀ s : State,
    (cmdReady s = true ↔ s.cu = .ready) ∧
    (lineOe s = true ↔ s.eng = .initialized ∨ s.eng = .streaming) ∧
    (lineOe s = true → (line s = true ↔ s.ser.phase = .high) ∧ pinLevel s = some (line s)) ∧
    (lineOe s = false → line s = false ∧ pinSelPort s = 0 ∧ pinLevel s = none) ∧
    (∀ p, s.claimInst = some p → claimInstPort s = (match p with | .primary => 0 | .secondary => 1)) ∧
    (s.claimInst = none → claimInstPort s = 0) ∧
    (∀ u, s.claimUnit = some u → claimUnitPort s = BitVec.ofNat 8 u) ∧
    (s.claimUnit = none → claimUnitPort s = 0) ∧
    (claimValid s = s.claimPulse) ∧
    (Inv s → lineOe s = true → ∃ pin, s.pinSel = some pin ∧ pin ∈ s.cfg.validPins ∧ (pinSelPort s).toNat = pin)

/-! The host's side. -/

/-- R95, the text as log entry 12 (DESIGN CHOICE) has it: a line of one of the eight forms, every operand written as a number
in its field's range, yields exactly that command and, as a word, its encoding by R86 and R88; a line in which some operand
is written as a number out of its field's range yields nothing; and whatever is yielded is well-formed. -/
def Obligations.AssemblerRejectsOutOfRangeOperands : Prop :=
  (∀ (i : Instr) (operands : List (List Char)) (line : List Char), i.Wf →
    List.Forall₂ operandText (textOperands i) operands → commandLine (mnemonicText i) operands line →
    assembleLine line = some i ∧ assembleWord line = some (encode i)) ∧
  (∀ (i : Instr) (operands : List (List Char)) (line : List Char) (k n : Nat) (x : List Char),
    commandLine (mnemonicText i) operands line → operands[k]? = some x → operandText n x → fieldLimit i k ≤ n →
    assembleLine line = none ∧ assembleWord line = none) ∧
  (∀ (line : List Char) (i : Instr), assembleLine line = some i → i.Wf)
end

