-- ==== Sys2Proof/Laws/Decode.lean ====
section
/-! SUPPORT. The fields of a packed command word, and every word as the packing of its fields (30_encoding.md R86, R87). -/

namespace Sys2Proof

@[simp] theorem opField_packWord (op : BitVec 8) (a b : BitVec 16) (d : BitVec 24) : opField (packWord op a b d) = op := by
  ext i hi
  simp only [opField, packWord, BitVec.getElem_extractLsb', BitVec.getLsbD_append]
  have h1 : ¬ 56 + i < 24 := by omega
  have h2 : ¬ 56 + i - 24 < 16 := by omega
  have h3 : ¬ 56 + i - 24 - 16 < 16 := by omega
  simp only [h1, h2, h3, if_false]
  rw [← BitVec.getLsbD_eq_getElem]
  congr 1
  omega

@[simp] theorem aField_packWord (op : BitVec 8) (a b : BitVec 16) (d : BitVec 24) : aField (packWord op a b d) = a := by
  ext i hi
  simp only [aField, packWord, BitVec.getElem_extractLsb', BitVec.getLsbD_append]
  have h1 : ¬ 40 + i < 24 := by omega
  have h2 : ¬ 40 + i - 24 < 16 := by omega
  have h3 : 40 + i - 24 - 16 < 16 := by omega
  simp only [h1, h2, h3, if_false, if_true]
  rw [← BitVec.getLsbD_eq_getElem]
  congr 1
  omega

@[simp] theorem bField_packWord (op : BitVec 8) (a b : BitVec 16) (d : BitVec 24) : bField (packWord op a b d) = b := by
  ext i hi
  simp only [bField, packWord, BitVec.getElem_extractLsb', BitVec.getLsbD_append]
  have h1 : ¬ 24 + i < 24 := by omega
  have h2 : 24 + i - 24 < 16 := by omega
  simp only [h1, h2, if_false, if_true]
  rw [← BitVec.getLsbD_eq_getElem]
  congr 1
  omega

@[simp] theorem dField_packWord (op : BitVec 8) (a b : BitVec 16) (d : BitVec 24) : dField (packWord op a b d) = d := by
  ext i hi
  simp only [dField, packWord, BitVec.getElem_extractLsb', BitVec.getLsbD_append]
  have h1 : 0 + i < 24 := by omega
  simp only [h1, if_true]
  rw [← BitVec.getLsbD_eq_getElem]
  congr 1
  omega


/-- Two words are equal when their four fields are. -/
theorem word_ext {w w' : CmdWord} (hop : opField w = opField w') (ha : aField w = aField w') (hb : bField w = bField w')
    (hd : dField w = dField w') : w = w' := by
  ext i hi
  have key : ∀ (start len : Nat), w.extractLsb' start len = w'.extractLsb' start len → start ≤ i → i < start + len →
      w[i] = w'[i] := by
    intro start len h hs hl
    have hk := congrArg (fun v => v.getLsbD (i - start)) h
    have hlt : i - start < len := by omega
    have hadd : start + (i - start) = i := by omega
    simpa [BitVec.getLsbD_extractLsb', hlt, hadd, BitVec.getLsbD_eq_getElem hi] using hk
  by_cases h1 : i < 24
  · exact key 0 24 hd (by omega) (by omega)
  · by_cases h2 : i < 40
    · exact key 24 16 hb (by omega) (by omega)
    · by_cases h3 : i < 56
      · exact key 40 16 ha (by omega) (by omega)
      · exact key 56 8 hop (by omega) (by omega)

/-- Every word is the packing of its fields (R86). -/
theorem packWord_fields (w : CmdWord) : packWord (opField w) (aField w) (bField w) (dField w) = w :=
  word_ext (by simp) (by simp) (by simp) (by simp)

theorem packWord_inj {op op' : BitVec 8} {a a' b b' : BitVec 16} {d d' : BitVec 24} :
    packWord op a b d = packWord op' a' b' d' ↔ op = op' ∧ a = a' ∧ b = b' ∧ d = d' := by
  refine ⟨fun h => ?_, fun ⟨h1, h2, h3, h4⟩ => by rw [h1, h2, h3, h4]⟩
  have ho := congrArg opField h
  have ha := congrArg aField h
  have hb := congrArg bField h
  have hd := congrArg dField h
  simp only [opField_packWord, aField_packWord, bField_packWord, dField_packWord] at ho ha hb hd
  exact ⟨ho, ha, hb, hd⟩

/-- A mask acts on each field by itself (R90). -/
theorem opField_and (w w' : CmdWord) : opField (w &&& w') = opField w &&& opField w' := by
  ext i hi
  simp [opField]
theorem aField_and (w w' : CmdWord) : aField (w &&& w') = aField w &&& aField w' := by
  ext i hi
  simp [aField]
theorem bField_and (w w' : CmdWord) : bField (w &&& w') = bField w &&& bField w' := by
  ext i hi
  simp [bField]
theorem dField_and (w w' : CmdWord) : dField (w &&& w') = dField w &&& dField w' := by
  ext i hi
  simp [dField]

/-- A word matches a row exactly when each of its fields does. -/
theorem OpcodeRow.matches_iff (row : OpcodeRow) (w : CmdWord) :
    row.Matches w ↔ opField w &&& opField row.mask = opField row.value ∧ aField w &&& aField row.mask = aField row.value ∧
      bField w &&& bField row.mask = bField row.value ∧ dField w &&& dField row.mask = dField row.value := by
  unfold OpcodeRow.Matches
  refine ⟨fun h => ?_, fun ⟨h1, h2, h3, h4⟩ => word_ext ?_ ?_ ?_ ?_⟩
  · rw [← h, opField_and, aField_and, bField_and, dField_and]
    exact ⟨rfl, rfl, rfl, rfl⟩
  · rw [opField_and, h1]
  · rw [aField_and, h2]
  · rw [bField_and, h3]
  · rw [dField_and, h4]

/-- The bytes within D (R87). -/
theorem rField_eq (w : CmdWord) : rField w = (dField w).extractLsb' 16 8 := by
  ext i hi
  simp only [rField, dField, BitVec.getElem_extractLsb', BitVec.getLsbD_extractLsb', Nat.zero_add]
  have h : 16 + i < 24 := by omega
  simp [h]
theorem gField_eq (w : CmdWord) : gField w = (dField w).extractLsb' 8 8 := by
  ext i hi
  simp only [gField, dField, BitVec.getElem_extractLsb', BitVec.getLsbD_extractLsb', Nat.zero_add]
  have h : 8 + i < 24 := by omega
  simp [h]
theorem lowByte_eq (w : CmdWord) : lowByte w = (dField w).extractLsb' 0 8 := by
  ext i hi
  simp only [lowByte, dField, BitVec.getElem_extractLsb', BitVec.getLsbD_extractLsb', Nat.zero_add]
  have h : i < 24 := by omega
  simp [h]
theorem dHigh_eq (w : CmdWord) : dHigh w = (dField w).extractLsb' 8 16 := by
  ext i hi
  simp only [dHigh, dField, BitVec.getElem_extractLsb', BitVec.getLsbD_extractLsb', Nat.zero_add]
  have h : 8 + i < 24 := by omega
  simp [h]

end Sys2Proof
end

