-- ==== Sys2Proof/Laws/HostSide.lean ====
section
/-! SUPPORT. What the pieces of the assembler do (30_encoding.md R95): comments, blanks, commas and written numbers. -/

namespace Sys2Proof.Machine

/-! Comments and blanks. -/

theorem blanks_nil : blanks [] := fun _ h => nomatch h
theorem blanks_space : blanks [' '] := fun c h => by rw [List.mem_singleton.mp h]; rfl

theorem stripComment_of_none {text : List Char} (h : ';' ∉ text) : stripComment text = text := by
  rw [stripComment, List.takeWhile_eq_self_iff]
  intro c hc
  have : c ≠ ';' := fun h' => h (h' ▸ hc)
  simpa using this

theorem stripComment_append {text : List Char} (h : ';' ∉ text) (comment : List Char) :
    stripComment (text ++ ';' :: comment) = text := by
  have hall : ∀ c ∈ text, (c != ';') = true := by
    intro c hc
    have : c ≠ ';' := fun h' => h (h' ▸ hc)
    simpa using this
  rw [stripComment, List.takeWhile_append_of_pos hall]
  simp

theorem dropWhile_blanks {before : List Char} (h : blanks before) (text : List Char) :
    (before ++ text).dropWhile isBlank = text.dropWhile isBlank := List.dropWhile_append_of_pos h

theorem blanks_not_mem {text : List Char} (h : blanks text) {c : Char} (hc : isBlank c = false) : c ∉ text := by
  intro hm
  rw [h c hm] at hc
  cases hc

/-- Blanks before a text do not matter. -/
theorem trimBlanks_before {before : List Char} (h : blanks before) (text : List Char) :
    trimBlanks (before ++ text) = trimBlanks text := by
  rw [trimBlanks, dropWhile_blanks h, trimBlanks]

theorem blanks_reverse {text : List Char} (h : blanks text) : blanks text.reverse := fun c hc => h c (List.mem_reverse.mp hc)

/-- The text without the blanks at its end. -/
theorem trimEnd_split (text : List Char) :
    ∃ after, blanks after ∧ text = (text.reverse.dropWhile isBlank).reverse ++ after := by
  refine ⟨(text.reverse.takeWhile isBlank).reverse, blanks_reverse (fun c hc => List.mem_takeWhile_imp hc), ?_⟩
  rw [← List.reverse_append, List.takeWhile_append_dropWhile, List.reverse_reverse]

theorem dropWhile_blanks_eq_nil {text : List Char} : text.dropWhile isBlank = [] ↔ blanks text := List.dropWhile_eq_nil_iff

theorem trimBlanks_eq_nil {text : List Char} : trimBlanks text = [] ↔ blanks text := by
  rw [trimBlanks, List.reverse_eq_nil_iff, dropWhile_blanks_eq_nil]
  constructor
  · intro h c hc
    rw [← List.takeWhile_append_dropWhile (p := isBlank) (l := text), List.mem_append] at hc
    rcases hc with hc | hc
    · exact List.mem_takeWhile_imp hc
    · exact h c (List.mem_reverse.mpr hc)
  · intro h c hc
    exact h c ((List.dropWhile_sublist isBlank).subset (List.mem_reverse.mp hc))

/-- Blanks after a text do not matter. -/
theorem trimBlanks_after {after : List Char} (h : blanks after) (text : List Char) :
    trimBlanks (text ++ after) = trimBlanks text := by
  by_cases ht : blanks text
  · have hall : blanks (text ++ after) := by
      intro c hc
      rcases List.mem_append.mp hc with hc | hc
      · exact ht c hc
      · exact h c hc
    rw [trimBlanks_eq_nil.mpr ht, trimBlanks_eq_nil.mpr hall]
  · have hne : text.dropWhile isBlank ≠ [] := fun h' => ht (dropWhile_blanks_eq_nil.mp h')
    have hd : (text ++ after).dropWhile isBlank = text.dropWhile isBlank ++ after := by
      rw [List.dropWhile_append, if_neg]
      simpa using hne
    rw [trimBlanks, hd, List.reverse_append, dropWhile_blanks (blanks_reverse h), trimBlanks]

/-- A text whose two ends are no blanks is kept. -/
theorem trimBlanks_of_ends {c : Char} {text : List Char} (hc : isBlank c = false) :
    trimBlanks (c :: text) = c :: (text.reverse.dropWhile isBlank).reverse := by
  rw [trimBlanks, List.dropWhile_cons_of_neg (by simp [hc]), List.reverse_cons, List.dropWhile_append]
  split
  next h =>
    have h' : text.reverse.dropWhile isBlank = [] := by simpa using h
    rw [h', List.dropWhile_cons_of_neg (by simp [hc])]
    rfl
  next => rw [List.reverse_append]; rfl

theorem trimBlanks_of_none {text : List Char} (h : ∀ c ∈ text, isBlank c = false) : trimBlanks text = text := by
  cases text with
  | nil => rfl
  | cons c rest =>
    rw [trimBlanks_of_ends (h c (by simp))]
    have hrest : rest.reverse.dropWhile isBlank = rest.reverse := by
      rw [List.dropWhile_eq_self_iff]
      intro hl
      rw [h _ (List.mem_cons_of_mem _ (List.mem_reverse.mp (List.getElem_mem hl)))]
      simp
    rw [hrest, List.reverse_reverse]

/-! Commas. -/

theorem splitCommas_ne_nil (text : List Char) : splitCommas text ≠ [] := by
  cases text with
  | nil => simp [splitCommas]
  | cons c rest =>
    rw [splitCommas]
    split
    · simp
    · split <;> simp

theorem splitCommas_of_none {text : List Char} (h : ',' ∉ text) : splitCommas text = [text] := by
  induction text with
  | nil => rfl
  | cons c rest ih =>
    have hc : c ≠ ',' := fun h' => h (by simp [h'])
    rw [splitCommas, if_neg hc, ih (fun h' => h (by simp [h']))]

theorem splitCommas_append {text : List Char} (h : ',' ∉ text) (rest : List Char) :
    splitCommas (text ++ ',' :: rest) = text :: splitCommas rest := by
  induction text with
  | nil => simp [splitCommas]
  | cons c text ih =>
    have hc : c ≠ ',' := fun h' => h (by simp [h'])
    rw [List.cons_append, splitCommas, if_neg hc, ih (fun h' => h (by simp [h']))]

theorem joinCommas_cons (x y : List Char) (rest : List (List Char)) :
    joinCommas (x :: y :: rest) = x ++ ',' :: joinCommas (y :: rest) := rfl

/-- Splitting at commas undoes joining with commas. -/
theorem splitCommas_joinCommas {texts : List (List Char)} (hne : texts ≠ []) (h : ∀ x ∈ texts, ',' ∉ x) :
    splitCommas (joinCommas texts) = texts := by
  induction texts with
  | nil => exact absurd rfl hne
  | cons x rest ih =>
    cases rest with
    | nil => exact splitCommas_of_none (h x (by simp))
    | cons y rest =>
      rw [joinCommas_cons, splitCommas_append (h x (by simp)), ih (by simp) (fun z hz => h z (by simp [hz]))]

theorem splitCommas_no_comma (text : List Char) : ∀ x ∈ splitCommas text, ',' ∉ x := by
  induction text with
  | nil => simp [splitCommas]
  | cons c rest ih =>
    rw [splitCommas]
    split
    · simpa using ih
    next hc =>
      cases hx : splitCommas rest with
      | nil => exact absurd hx (splitCommas_ne_nil _)
      | cons p ps =>
        rw [hx] at ih
        intro x hx
        rcases List.mem_cons.mp hx with rfl | hx
        · simpa [Ne.symm hc] using ih p (by simp)
        · exact ih x (by simp [hx])

theorem joinCommas_splitCommas (text : List Char) : joinCommas (splitCommas text) = text := by
  induction text with
  | nil => rfl
  | cons c rest ih =>
    rw [splitCommas]
    cases hx : splitCommas rest with
    | nil => exact absurd hx (splitCommas_ne_nil _)
    | cons p ps =>
      rw [hx] at ih
      split
      next hc => rw [joinCommas, ih, hc]; simp; simp
      next hc => cases ps <;> simp_all [joinCommas]

/-- Blanks at the end belong to the last piece. -/
theorem map_trim_splitCommas_joined {after : List Char} (h : blanks after) {texts : List (List Char)} (hne : texts ≠ [])
    (htexts : ∀ x ∈ texts, ',' ∉ x) :
    (splitCommas (joinCommas texts ++ after)).map trimBlanks = texts.map trimBlanks := by
  induction texts with
  | nil => exact absurd rfl hne
  | cons x rest ih =>
    cases rest with
    | nil =>
      have hcomma : ',' ∉ x ++ after := by
        rw [List.mem_append, not_or]
        exact ⟨htexts x (by simp), blanks_not_mem h rfl⟩
      rw [joinCommas, splitCommas_of_none hcomma, List.map_singleton, List.map_singleton, trimBlanks_after h]
    | cons y rest =>
      rw [joinCommas_cons, List.append_assoc, List.cons_append, splitCommas_append (htexts x (by simp)), List.map_cons,
        ih (by simp) (fun z hz => htexts z (by simp [hz]))]
      rfl

theorem map_trim_splitCommas_after {after : List Char} (h : blanks after) (text : List Char) :
    (splitCommas (text ++ after)).map trimBlanks = (splitCommas text).map trimBlanks := by
  have := map_trim_splitCommas_joined h (splitCommas_ne_nil text) (splitCommas_no_comma text)
  rwa [joinCommas_splitCommas] at this

/-- A blank at the start belongs to the first piece. -/
theorem map_trim_splitCommas_cons {c : Char} (hc : isBlank c = true) (text : List Char) :
    (splitCommas (c :: text)).map trimBlanks = (splitCommas text).map trimBlanks := by
  have hcomma : c ≠ ',' := fun h' => by subst h'; cases hc
  rw [splitCommas, if_neg hcomma]
  cases hx : splitCommas text with
  | nil => exact absurd hx (splitCommas_ne_nil _)
  | cons p ps =>
    have hblank : blanks [c] := fun d hd => by rw [List.mem_singleton.mp hd]; exact hc
    have htrim : trimBlanks (c :: p) = trimBlanks p := trimBlanks_before hblank p
    rw [List.map_cons, List.map_cons, htrim]

/-! Written numbers. -/

theorem digitValue_digitChar {base d : Nat} (hb : base ≤ 16) (hd : d < base) :
    digitValue base (Nat.digitChar d) = some d := by
  have : d < 16 := by omega
  interval_cases d <;> simp [digitValue, Option.filter, Nat.digitChar] <;> omega

theorem digitValue_upper {d : Nat} (hd : d < 16) : digitValue 16 (Nat.digitChar d).toUpper = some d := by
  interval_cases d <;> decide

theorem digitsFrom_forall₂ {base : Nat} {digits : List Nat} {chars : List Char}
    (h : List.Forall₂ (fun d c => digitValue base c = some d) digits chars) (acc : Nat) :
    digitsFrom base acc chars = some (digits.foldl (fun acc d => acc * base + d) acc) := by
  induction h generalizing acc with
  | nil => rfl
  | cons hd _ ih => rw [digitsFrom, hd]; exact ih _

/-- The assembler reads a written number as the number it writes. -/
theorem parseNumber_written {n : Nat} {text : List Char} (h : writesNumber n text) : parseNumber text = some n := by
  rcases h with ⟨digits, hne, hlt, rfl, rfl⟩ | ⟨digits, chars, hne, hlt, rfl, rfl, hchars⟩
  · have hread := digitsFrom_forall₂ (base := 10) (digits := digits) (chars := digits.map Nat.digitChar)
      (by
        rw [List.forall₂_map_right_iff, List.forall₂_same]
        exact fun d hd => digitValue_digitChar (by decide) (hlt d hd)) 0
    have hx : 'x' ∉ digits.map Nat.digitChar := by
      intro hx
      obtain ⟨d, hd, hdx⟩ := List.mem_map.mp hx
      have := hlt d hd
      interval_cases d <;> cases hdx
    unfold parseNumber
    split
    next h0 => simp_all
    next h0 => simp_all
    next h0 => simp_all
    next => exact hread
  · have hread := digitsFrom_forall₂ (base := 16) (digits := digits) (chars := chars)
      (by
        rw [List.forall₂_iff_zip] at hchars ⊢
        refine ⟨hchars.1, fun hp => ?_⟩
        rcases hchars.2 hp with rfl | rfl
        · exact digitValue_digitChar (by decide) (hlt _ (List.of_mem_zip hp).1)
        · exact digitValue_upper (hlt _ (List.of_mem_zip hp).1)) 0
    cases hchars with
    | nil => exact absurd rfl hne
    | cons _ _ => exact hread

theorem writesNumber_no_blank {n : Nat} {text : List Char} (h : writesNumber n text) :
    text ≠ [] ∧ ∀ c ∈ text, isBlank c = false := by
  have hlow : ∀ d < 16, isBlank (Nat.digitChar d) = false := by decide
  have hup : ∀ d < 16, isBlank (Nat.digitChar d).toUpper = false := by decide
  rcases h with ⟨digits, hne, hlt, -, rfl⟩ | ⟨digits, chars, -, hlt, -, rfl, hchars⟩
  · refine ⟨by simpa using hne, fun c hc => ?_⟩
    obtain ⟨d, hd, rfl⟩ := List.mem_map.mp hc
    exact hlow d (by have := hlt d hd; omega)
  · refine ⟨by simp, ?_⟩
    have hall : ∀ c ∈ chars, isBlank c = false := by
      clear * - hchars hlt hlow hup
      induction hchars with
      | nil => simp
      | cons hd _ ih =>
        intro c hc
        rcases List.mem_cons.mp hc with rfl | hc
        · rcases hd with rfl | rfl
          · exact hlow _ (hlt _ (by simp))
          · exact hup _ (hlt _ (by simp))
        · exact ih (fun d hd => hlt d (by simp [hd])) c hc
    intro c hc
    rcases List.mem_cons.mp hc with rfl | hc
    · rfl
    rcases List.mem_cons.mp hc with rfl | hc
    · rfl
    exact hall c hc

/-- The text of an operand, without its blanks, is read as its number. -/
theorem parseNumber_operandText {n : Nat} {text : List Char} (h : operandText n text) :
    parseNumber (trimBlanks text) = some n ∧ ¬ blanks text := by
  obtain ⟨before, number, after, hb, ha, hn, rfl⟩ := h
  obtain ⟨hne, hnb⟩ := writesNumber_no_blank hn
  rw [trimBlanks_after ha, trimBlanks_before hb, trimBlanks_of_none hnb]
  refine ⟨parseNumber_written hn, fun hall => ?_⟩
  obtain ⟨c, rest, rfl⟩ := List.exists_cons_of_ne_nil hne
  have := hall c (by simp)
  rw [hnb c (by simp)] at this
  cases this

/-- A 16-bit operand is read where its number fits, and only there (R95). -/
theorem parseOperand_operandText {n : Nat} {text : List Char} (h : operandText n text) :
    parseOperand (trimBlanks text) = if n < 65536 then some n else none := by
  rw [parseOperand, (parseNumber_operandText h).1]
  by_cases hn : n < 65536 <;> simp [Option.filter, hn]

/-- An 8-bit operand is read where its number fits, and only there (R95). -/
theorem parseByte_operandText {n : Nat} {text : List Char} (h : operandText n text) :
    parseByte (trimBlanks text) = if n < 256 then some (BitVec.ofNat 8 n) else none := by
  rw [parseByte, (parseNumber_operandText h).1]
  by_cases hn : n < 256 <;> simp [Option.filter, hn]

/-! A whole line. -/

/-- A mnemonic is one word. -/
theorem mnemonicText_word (i : Instr) :
    mnemonicText i ≠ [] ∧ (∀ c ∈ mnemonicText i, isBlank c = false) ∧ ';' ∉ mnemonicText i := by
  cases i <;> simp [mnemonicText, opcodeRow, isBlank]

theorem mem_joinCommas {x : List Char} {texts : List (List Char)} (hx : x ∈ texts) {c : Char} (hc : c ∈ x) :
    c ∈ joinCommas texts := by
  induction texts with
  | nil => cases hx
  | cons y rest ih =>
    cases rest with
    | nil => rw [List.mem_singleton.mp hx] at hc; exact hc
    | cons z rest =>
      rw [joinCommas_cons, List.mem_append]
      rcases List.mem_cons.mp hx with rfl | hx
      · exact .inl hc
      · exact .inr (List.mem_cons_of_mem _ (ih hx))

theorem not_mem_joinCommas {c : Char} (hc : c ≠ ',') {texts : List (List Char)} (h : ∀ x ∈ texts, c ∉ x) :
    c ∉ joinCommas texts := by
  induction texts with
  | nil => simp [joinCommas]
  | cons y rest ih =>
    cases rest with
    | nil => exact h y (by simp)
    | cons z rest =>
      rw [joinCommas_cons, List.mem_append, List.mem_cons, not_or, not_or]
      exact ⟨h y (by simp), hc, ih (fun x hx => h x (by simp [hx]))⟩

/-- A word and what follows it, without the blanks at the end. -/
theorem trimBlanks_word {name : List Char} (hne : name ≠ []) (hname : ∀ c ∈ name, isBlank c = false) (tail : List Char) :
    trimBlanks (name ++ tail) = name ++ (tail.reverse.dropWhile isBlank).reverse := by
  obtain ⟨c, rest, rfl⟩ := List.exists_cons_of_ne_nil hne
  have hkeep : (c :: rest).reverse.dropWhile isBlank = (c :: rest).reverse := by
    rw [List.dropWhile_eq_self_iff]
    intro hl
    rw [hname _ (List.mem_reverse.mp (List.getElem_mem hl))]
    simp
  rw [trimBlanks, List.cons_append, List.dropWhile_cons_of_neg (by simp [hname c (by simp)]), ← List.cons_append,
    List.reverse_append, List.dropWhile_append, hkeep]
  split
  next h => rw [List.isEmpty_iff.mp h]; simp
  next => rw [List.reverse_append, List.reverse_reverse]

/-- What the assembler finds in a line of the form of R95: the name, and the operands without their blanks. -/
theorem line_parts {name line : List Char} {operands : List (List Char)} (hne : name ≠ [])
    (hname : ∀ c ∈ name, isBlank c = false) (hsemi : ';' ∉ name) (hline : commandLine name operands line)
    (hops : operands ≠ [] → ∃ x ∈ operands, ¬ blanks x) :
    (trimBlanks (stripComment line)).takeWhile (fun c => !isBlank c) = name ∧
    lineOperands ((trimBlanks (stripComment line)).drop name.length) = operands.map trimBlanks := by
  obtain ⟨before, tail, comment, rfl, hbefore, hcomment, hclean, htail⟩ := hline
  have htailSemi : ';' ∉ tail := by
    rcases htail with ⟨-, ht⟩ | ⟨-, c, hc, rfl⟩
    · exact blanks_not_mem ht rfl
    · rw [List.mem_cons, not_or]
      exact ⟨fun h => (by subst h; cases hc), not_mem_joinCommas (by decide) (fun x hx => (hclean x hx).2)⟩
  have hsemis : ';' ∉ before ++ name ++ tail := by
    rw [List.mem_append, List.mem_append, not_or, not_or]
    exact ⟨⟨blanks_not_mem hbefore rfl, hsemi⟩, htailSemi⟩
  have hstrip : stripComment (before ++ name ++ tail ++ comment) = before ++ (name ++ tail) := by
    rw [← List.append_assoc]
    rcases hcomment with rfl | ⟨rest, rfl⟩
    · rw [List.append_nil, stripComment_of_none hsemis]
    · exact stripComment_append hsemis rest
  rw [hstrip, trimBlanks_before hbefore, trimBlanks_word hne hname, List.drop_left,
    List.takeWhile_append_of_pos (by simpa using hname)]
  obtain ⟨after, hafter, hsplit⟩ := trimEnd_split tail
  generalize (tail.reverse.dropWhile isBlank).reverse = kept at *
  rcases htail with ⟨rfl, ht⟩ | ⟨hopsne, c, hc, rfl⟩
  · have hkept : blanks kept := fun d hd => ht d (by rw [hsplit]; simp [hd])
    refine ⟨?_, ?_⟩
    · cases kept with
      | nil => simp
      | cons d kept => rw [List.takeWhile_cons_of_neg (by simp [hkept d (by simp)]), List.append_nil]
    · rw [lineOperands, if_pos (trimBlanks_eq_nil.mpr hkept)]; rfl
  · refine ⟨?_, ?_⟩
    · cases kept with
      | nil => simp
      | cons d kept =>
        rw [List.cons_append, List.cons.injEq] at hsplit
        rw [← hsplit.1, List.takeWhile_cons_of_neg (by simp [hc]), List.append_nil]
    · have hnb : ¬ blanks kept := by
        intro hk
        obtain ⟨x, hx, hxnb⟩ := hops hopsne
        refine hxnb (fun d hd => ?_)
        have hmem : d ∈ c :: joinCommas operands := List.mem_cons_of_mem _ (mem_joinCommas hx hd)
        rw [hsplit, List.mem_append] at hmem
        exact hmem.elim (hk d) (hafter d)
      rw [lineOperands, if_neg (fun h => hnb (trimBlanks_eq_nil.mp h)), ← map_trim_splitCommas_after hafter, ← hsplit,
        map_trim_splitCommas_cons hc, splitCommas_joinCommas hopsne (fun x hx => (hclean x hx).1)]

end Sys2Proof.Machine
end

