-- ==== Sys2Proof/Laws/Memory.lean ====
section
/-! SUPPORT. The laws of the pixel buffer: read after write, the canonical form, and that equal contents are equal lists
(20_memory.md R40 to R43). -/

namespace Sys2Proof.Machine

@[simp] theorem Memory.read_nil (i : Nat) : Memory.read [] i = Pixel.black := rfl

theorem Memory.read_cons (j : Nat) (q : Pixel) (m : Memory) (i : Nat) :
    Memory.read ((j, q) :: m) i = if i = j then q else Memory.read m i := rfl

theorem Memory.wf_nil : Memory.Wf [] := ⟨List.Pairwise.nil, by simp⟩

theorem Memory.wf_tail {c : Nat × Pixel} {m : Memory} (h : Memory.Wf (c :: m)) : Memory.Wf m :=
  ⟨(List.pairwise_cons.mp h.1).2, fun d hd => h.2 d (List.mem_cons_of_mem _ hd)⟩

/-- An index below every listed one reads as (0, 0, 0). -/
theorem Memory.read_below {m : Memory} {i : Nat} (h : ∀ c ∈ m, i < c.1) : m.read i = Pixel.black := by
  induction m with
  | nil => rfl
  | cons c m ih =>
    obtain ⟨j, q⟩ := c
    have hij : i < j := h (j, q) List.mem_cons_self
    rw [Memory.read_cons, if_neg (by omega)]
    exact ih fun d hd => h d (List.mem_cons_of_mem _ hd)

/-- The rest of a canonical buffer lies above its first index. -/
theorem Memory.read_tail_of_le {j : Nat} {q : Pixel} {m : Memory} (h : Memory.Wf ((j, q) :: m)) {i : Nat} (hi : i ≤ j) :
    m.read i = Pixel.black :=
  Memory.read_below fun c hc => Nat.lt_of_le_of_lt hi ((List.pairwise_cons.mp h.1).1 c hc)

/-- Read after write: the written index holds the pixel, every other index what it held (R115). -/
theorem Memory.read_write {m : Memory} (h : m.Wf) (i j : Nat) (p : Pixel) :
    (m.write i p).read j = if j = i then p else m.read j := by
  induction m with
  | nil =>
    unfold Memory.write
    split
    next hp => simp [hp]
    next => rfl
  | cons c m ih =>
    obtain ⟨k, q⟩ := c
    have ih := ih (Memory.wf_tail h)
    have hlow := fun (hi : i ≤ k) => Memory.read_tail_of_le h hi
    unfold Memory.write
    split
    next hik =>
      have hi : Memory.read ((k, q) :: m) i = Pixel.black := by
        rw [Memory.read_cons, if_neg (by omega), hlow (by omega)]
      split
      next hp => subst hp; split <;> simp_all
      next => simp only [Memory.read_cons]
    next hik =>
      split
      next hik' =>
        subst hik'
        split
        next hp =>
          subst hp
          by_cases hji : j = i
          · simp [hji, hlow]
          · simp [Memory.read_cons, hji]
        next => by_cases hji : j = i <;> simp [Memory.read_cons, hji]
      next hne =>
        simp only [Memory.read_cons, ih]
        by_cases hjk : j = k
        · simp [hjk, Ne.symm hne]
        · simp [hjk]

/-- Where the entries of a written buffer come from. -/
theorem Memory.mem_write {m : Memory} {i : Nat} {p : Pixel} {c : Nat × Pixel} (h : c ∈ m.write i p) :
    (c = (i, p) ∧ p ≠ Pixel.black) ∨ c ∈ m := by
  induction m with
  | nil =>
    unfold Memory.write at h
    split at h <;> simp_all
  | cons d m ih =>
    obtain ⟨k, q⟩ := d
    unfold Memory.write at h
    split at h
    · split at h <;> simp_all
    · split at h
      · split at h <;> simp_all
        tauto
      · rcases List.mem_cons.mp h with h | h
        · exact .inr (by simp [h])
        · rcases ih h with h | h
          · exact .inl h
          · exact .inr (List.mem_cons_of_mem _ h)

/-- A write keeps the canonical form. -/
theorem Memory.write_wf {m : Memory} (h : m.Wf) (i : Nat) (p : Pixel) : (m.write i p).Wf := by
  refine ⟨?_, fun c hc => ?_⟩
  · induction m with
    | nil => unfold Memory.write; split <;> simp
    | cons d m ih =>
      obtain ⟨k, q⟩ := d
      have hp := List.pairwise_cons.mp h.1
      unfold Memory.write
      split
      next hik =>
        split
        · exact h.1
        · refine List.pairwise_cons.mpr ⟨fun c hc => ?_, h.1⟩
          rcases List.mem_cons.mp hc with hc | hc
          · simp [hc, hik]
          · exact Nat.lt_trans hik (hp.1 c hc)
      next =>
        split
        next hik =>
          subst hik
          split
          · exact hp.2
          · exact List.pairwise_cons.mpr ⟨hp.1, hp.2⟩
        next =>
          refine List.pairwise_cons.mpr ⟨fun c hc => ?_, ih (Memory.wf_tail h)⟩
          rcases Memory.mem_write hc with ⟨hc, -⟩ | hc
          · simp [hc]; omega
          · exact hp.1 c hc
  · rcases Memory.mem_write hc with ⟨hc, hp⟩ | hc
    · simpa [hc] using hp
    · exact h.2 c hc

/-- A write at an index that exists lists no index that does not. -/
theorem Memory.write_within {m : Memory} {n i : Nat} (h : m.Within n) (hi : i < n) (p : Pixel) : (m.write i p).Within n := by
  intro c hc
  rcases Memory.mem_write hc with ⟨hc, -⟩ | hc
  · simpa [hc] using hi
  · exact h c hc

/-- An index that does not exist reads as (0, 0, 0). -/
theorem Memory.read_of_within {m : Memory} {n i : Nat} (h : m.Within n) (hi : n ≤ i) : m.read i = Pixel.black := by
  induction m with
  | nil => rfl
  | cons c m ih =>
    obtain ⟨j, q⟩ := c
    have hj : j < n := h (j, q) List.mem_cons_self
    rw [Memory.read_cons, if_neg (by omega)]
    exact ih fun d hd => h d (List.mem_cons_of_mem _ hd)

/-- Equal contents are equal lists: the form is canonical. -/
theorem Memory.ext_of_read {m m' : Memory} (h : m.Wf) (h' : m'.Wf) (hr : ∀ i, m.read i = m'.read i) : m = m' := by
  induction m generalizing m' with
  | nil =>
    cases m' with
    | nil => rfl
    | cons c m' =>
      obtain ⟨j, q⟩ := c
      exact absurd (hr j).symm (by simpa [Memory.read_cons] using h'.2 (j, q) List.mem_cons_self)
  | cons c m ih =>
    obtain ⟨j, q⟩ := c
    cases m' with
    | nil => exact absurd (hr j) (by simpa [Memory.read_cons] using h.2 (j, q) List.mem_cons_self)
    | cons c' m' =>
      obtain ⟨j', q'⟩ := c'
      have hq : q ≠ Pixel.black := h.2 (j, q) List.mem_cons_self
      have hq' : q' ≠ Pixel.black := h'.2 (j', q') List.mem_cons_self
      have hj : Memory.read ((j', q') :: m') j = q := by rw [← hr j, Memory.read_cons, if_pos rfl]
      have hj' : Memory.read ((j, q) :: m) j' = q' := by rw [hr j', Memory.read_cons, if_pos rfl]
      have hjj : j = j' := by
        rcases Nat.lt_trichotomy j j' with hlt | heq | hgt
        · rw [Memory.read_cons, if_neg (by omega), Memory.read_tail_of_le h' (by omega)] at hj
          exact absurd hj.symm hq
        · exact heq
        · rw [Memory.read_cons, if_neg (by omega), Memory.read_tail_of_le h (by omega)] at hj'
          exact absurd hj'.symm hq'
      subst hjj
      have hqq : q = q' := by simpa [Memory.read_cons] using hj.symm
      subst hqq
      refine congrArg _ (ih (Memory.wf_tail h) (Memory.wf_tail h') fun i => ?_)
      rcases Nat.lt_or_ge j i with hi | hi
      · have := hr i
        rwa [Memory.read_cons, Memory.read_cons, if_neg (by omega), if_neg (by omega)] at this
      · rw [Memory.read_tail_of_le h hi, Memory.read_tail_of_le h' hi]

/-- Every buffer operation keeps the canonical form: a write, and the clear of CLEAR and INIT. -/
theorem bufWrite_wf {s : State} (h : s.buf.Wf) (i : Nat) (p : Pixel) : (bufWrite i p s).buf.Wf := Memory.write_wf h i p

theorem bufClear_wf (s : State) : (bufClear s).buf.Wf := Memory.wf_nil

/-- The buffer after reset is in canonical form. -/
theorem reset_buf_wf : State.reset.buf.Wf := Memory.wf_nil

end Sys2Proof.Machine
end

