-- ==== Sys2Proof/Laws/State.lean ====
section
/-! SUPPORT. One lemma per field per update of the state: what each shared operation leaves in each field. -/

namespace Sys2Proof.Machine

section Updates
variable (s t : State)

/-! BufWrite of one pixel (R9). -/
@[simp] theorem bufWrite_cfg (i : Nat) (p : Pixel) : (bufWrite i p s).cfg = s.cfg := rfl
@[simp] theorem bufWrite_eng (i : Nat) (p : Pixel) : (bufWrite i p s).eng = s.eng := rfl
@[simp] theorem bufWrite_claimInst (i : Nat) (p : Pixel) : (bufWrite i p s).claimInst = s.claimInst := rfl
@[simp] theorem bufWrite_claimUnit (i : Nat) (p : Pixel) : (bufWrite i p s).claimUnit = s.claimUnit := rfl
@[simp] theorem bufWrite_imemLoaded (i : Nat) (p : Pixel) : (bufWrite i p s).imemLoaded = s.imemLoaded := rfl
@[simp] theorem bufWrite_pinSel (i : Nat) (p : Pixel) : (bufWrite i p s).pinSel = s.pinSel := rfl
@[simp] theorem bufWrite_buf (i : Nat) (p : Pixel) : (bufWrite i p s).buf = s.buf.write i p := rfl
@[simp] theorem bufWrite_txq (i : Nat) (p : Pixel) : (bufWrite i p s).txq = s.txq := rfl
@[simp] theorem bufWrite_ser (i : Nat) (p : Pixel) : (bufWrite i p s).ser = s.ser := rfl
@[simp] theorem bufWrite_idleCnt (i : Nat) (p : Pixel) : (bufWrite i p s).idleCnt = s.idleCnt := rfl
@[simp] theorem bufWrite_cu (i : Nat) (p : Pixel) : (bufWrite i p s).cu = s.cu := rfl
@[simp] theorem bufWrite_rspValid (i : Nat) (p : Pixel) : (bufWrite i p s).rspValid = s.rspValid := rfl
@[simp] theorem bufWrite_rspWord (i : Nat) (p : Pixel) : (bufWrite i p s).rspWord = s.rspWord := rfl
@[simp] theorem bufWrite_claimPulse (i : Nat) (p : Pixel) : (bufWrite i p s).claimPulse = s.claimPulse := rfl
@[simp] theorem bufWrite_wtrace (i : Nat) (p : Pixel) : (bufWrite i p s).wtrace = s.wtrace := rfl
@[simp] theorem bufWrite_inp (i : Nat) (p : Pixel) : (bufWrite i p s).inp = s.inp := rfl
@[simp] theorem bufWrite_script (i : Nat) (p : Pixel) : (bufWrite i p s).script = s.script := rfl

/-! BufWrite of (0, 0, 0) everywhere (R116). -/
@[simp] theorem bufClear_cfg : (bufClear s).cfg = s.cfg := rfl
@[simp] theorem bufClear_eng : (bufClear s).eng = s.eng := rfl
@[simp] theorem bufClear_claimInst : (bufClear s).claimInst = s.claimInst := rfl
@[simp] theorem bufClear_claimUnit : (bufClear s).claimUnit = s.claimUnit := rfl
@[simp] theorem bufClear_imemLoaded : (bufClear s).imemLoaded = s.imemLoaded := rfl
@[simp] theorem bufClear_pinSel : (bufClear s).pinSel = s.pinSel := rfl
@[simp] theorem bufClear_buf : (bufClear s).buf = [] := rfl
@[simp] theorem bufClear_txq : (bufClear s).txq = s.txq := rfl
@[simp] theorem bufClear_ser : (bufClear s).ser = s.ser := rfl
@[simp] theorem bufClear_idleCnt : (bufClear s).idleCnt = s.idleCnt := rfl
@[simp] theorem bufClear_cu : (bufClear s).cu = s.cu := rfl
@[simp] theorem bufClear_rspValid : (bufClear s).rspValid = s.rspValid := rfl
@[simp] theorem bufClear_rspWord : (bufClear s).rspWord = s.rspWord := rfl
@[simp] theorem bufClear_claimPulse : (bufClear s).claimPulse = s.claimPulse := rfl
@[simp] theorem bufClear_wtrace : (bufClear s).wtrace = s.wtrace := rfl
@[simp] theorem bufClear_inp : (bufClear s).inp = s.inp := rfl
@[simp] theorem bufClear_script : (bufClear s).script = s.script := rfl

/-! A push into the queue (R9). -/
@[simp] theorem push_cfg (v : Byte) : (push v s).cfg = s.cfg := rfl
@[simp] theorem push_eng (v : Byte) : (push v s).eng = s.eng := rfl
@[simp] theorem push_claimInst (v : Byte) : (push v s).claimInst = s.claimInst := rfl
@[simp] theorem push_claimUnit (v : Byte) : (push v s).claimUnit = s.claimUnit := rfl
@[simp] theorem push_imemLoaded (v : Byte) : (push v s).imemLoaded = s.imemLoaded := rfl
@[simp] theorem push_pinSel (v : Byte) : (push v s).pinSel = s.pinSel := rfl
@[simp] theorem push_buf (v : Byte) : (push v s).buf = s.buf := rfl
@[simp] theorem push_txq (v : Byte) : (push v s).txq = s.txq ++ [v] := rfl
@[simp] theorem push_ser (v : Byte) : (push v s).ser = s.ser := rfl
@[simp] theorem push_idleCnt (v : Byte) : (push v s).idleCnt = s.idleCnt := rfl
@[simp] theorem push_cu (v : Byte) : (push v s).cu = s.cu := rfl
@[simp] theorem push_rspValid (v : Byte) : (push v s).rspValid = s.rspValid := rfl
@[simp] theorem push_rspWord (v : Byte) : (push v s).rspWord = s.rspWord := rfl
@[simp] theorem push_claimPulse (v : Byte) : (push v s).claimPulse = s.claimPulse := rfl
@[simp] theorem push_wtrace (v : Byte) : (push v s).wtrace = s.wtrace := rfl
@[simp] theorem push_inp (v : Byte) : (push v s).inp = s.inp := rfl
@[simp] theorem push_script (v : Byte) : (push v s).script = s.script := rfl

/-! An event of the wire trace (R9). -/
@[simp] theorem emitEvent_cfg (e : Event) : (emitEvent e s).cfg = s.cfg := rfl
@[simp] theorem emitEvent_eng (e : Event) : (emitEvent e s).eng = s.eng := rfl
@[simp] theorem emitEvent_claimInst (e : Event) : (emitEvent e s).claimInst = s.claimInst := rfl
@[simp] theorem emitEvent_claimUnit (e : Event) : (emitEvent e s).claimUnit = s.claimUnit := rfl
@[simp] theorem emitEvent_imemLoaded (e : Event) : (emitEvent e s).imemLoaded = s.imemLoaded := rfl
@[simp] theorem emitEvent_pinSel (e : Event) : (emitEvent e s).pinSel = s.pinSel := rfl
@[simp] theorem emitEvent_buf (e : Event) : (emitEvent e s).buf = s.buf := rfl
@[simp] theorem emitEvent_txq (e : Event) : (emitEvent e s).txq = s.txq := rfl
@[simp] theorem emitEvent_ser (e : Event) : (emitEvent e s).ser = s.ser := rfl
@[simp] theorem emitEvent_idleCnt (e : Event) : (emitEvent e s).idleCnt = s.idleCnt := rfl
@[simp] theorem emitEvent_cu (e : Event) : (emitEvent e s).cu = s.cu := rfl
@[simp] theorem emitEvent_rspValid (e : Event) : (emitEvent e s).rspValid = s.rspValid := rfl
@[simp] theorem emitEvent_rspWord (e : Event) : (emitEvent e s).rspWord = s.rspWord := rfl
@[simp] theorem emitEvent_claimPulse (e : Event) : (emitEvent e s).claimPulse = s.claimPulse := rfl
@[simp] theorem emitEvent_wtrace (e : Event) : (emitEvent e s).wtrace = s.wtrace ++ [e] := rfl
@[simp] theorem emitEvent_inp (e : Event) : (emitEvent e s).inp = s.inp := rfl
@[simp] theorem emitEvent_script (e : Event) : (emitEvent e s).script = s.script := rfl

/-! A response (R78). -/
@[simp] theorem respond_cfg (st : Status) (data : RspData) : (respond st data s).cfg = s.cfg := rfl
@[simp] theorem respond_eng (st : Status) (data : RspData) : (respond st data s).eng = s.eng := rfl
@[simp] theorem respond_claimInst (st : Status) (data : RspData) : (respond st data s).claimInst = s.claimInst := rfl
@[simp] theorem respond_claimUnit (st : Status) (data : RspData) : (respond st data s).claimUnit = s.claimUnit := rfl
@[simp] theorem respond_imemLoaded (st : Status) (data : RspData) : (respond st data s).imemLoaded = s.imemLoaded := rfl
@[simp] theorem respond_pinSel (st : Status) (data : RspData) : (respond st data s).pinSel = s.pinSel := rfl
@[simp] theorem respond_buf (st : Status) (data : RspData) : (respond st data s).buf = s.buf := rfl
@[simp] theorem respond_txq (st : Status) (data : RspData) : (respond st data s).txq = s.txq := rfl
@[simp] theorem respond_ser (st : Status) (data : RspData) : (respond st data s).ser = s.ser := rfl
@[simp] theorem respond_idleCnt (st : Status) (data : RspData) : (respond st data s).idleCnt = s.idleCnt := rfl
@[simp] theorem respond_cu (st : Status) (data : RspData) : (respond st data s).cu = .ready := rfl
@[simp] theorem respond_rspValid (st : Status) (data : RspData) : (respond st data s).rspValid = true := rfl
@[simp] theorem respond_rspWord (st : Status) (data : RspData) : (respond st data s).rspWord = responseWord st data := rfl
@[simp] theorem respond_claimPulse (st : Status) (data : RspData) : (respond st data s).claimPulse = false := rfl
@[simp] theorem respond_wtrace (st : Status) (data : RspData) : (respond st data s).wtrace = s.wtrace := rfl
@[simp] theorem respond_inp (st : Status) (data : RspData) : (respond st data s).inp = s.inp := rfl
@[simp] theorem respond_script (st : Status) (data : RspData) : (respond st data s).script = s.script := rfl

/-! An error response (R145). -/
@[simp] theorem raise_cfg (st : Status) : (raise st s).cfg = s.cfg := rfl
@[simp] theorem raise_eng (st : Status) : (raise st s).eng = s.eng := rfl
@[simp] theorem raise_claimInst (st : Status) : (raise st s).claimInst = s.claimInst := rfl
@[simp] theorem raise_claimUnit (st : Status) : (raise st s).claimUnit = s.claimUnit := rfl
@[simp] theorem raise_imemLoaded (st : Status) : (raise st s).imemLoaded = s.imemLoaded := rfl
@[simp] theorem raise_pinSel (st : Status) : (raise st s).pinSel = s.pinSel := rfl
@[simp] theorem raise_buf (st : Status) : (raise st s).buf = s.buf := rfl
@[simp] theorem raise_txq (st : Status) : (raise st s).txq = s.txq := rfl
@[simp] theorem raise_ser (st : Status) : (raise st s).ser = s.ser := rfl
@[simp] theorem raise_idleCnt (st : Status) : (raise st s).idleCnt = s.idleCnt := rfl
@[simp] theorem raise_cu (st : Status) : (raise st s).cu = .ready := rfl
@[simp] theorem raise_rspValid (st : Status) : (raise st s).rspValid = true := rfl
@[simp] theorem raise_rspWord (st : Status) : (raise st s).rspWord = responseWord st 0 := rfl
@[simp] theorem raise_claimPulse (st : Status) : (raise st s).claimPulse = false := rfl
@[simp] theorem raise_wtrace (st : Status) : (raise st s).wtrace = s.wtrace := rfl
@[simp] theorem raise_inp (st : Status) : (raise st s).inp = s.inp := rfl
@[simp] theorem raise_script (st : Status) : (raise st s).script = s.script := rfl

/-! An edge at which no command completes (R78). -/
@[simp] theorem goOn_cfg (c : CmdUnit) : (goOn c s).cfg = s.cfg := rfl
@[simp] theorem goOn_eng (c : CmdUnit) : (goOn c s).eng = s.eng := rfl
@[simp] theorem goOn_claimInst (c : CmdUnit) : (goOn c s).claimInst = s.claimInst := rfl
@[simp] theorem goOn_claimUnit (c : CmdUnit) : (goOn c s).claimUnit = s.claimUnit := rfl
@[simp] theorem goOn_imemLoaded (c : CmdUnit) : (goOn c s).imemLoaded = s.imemLoaded := rfl
@[simp] theorem goOn_pinSel (c : CmdUnit) : (goOn c s).pinSel = s.pinSel := rfl
@[simp] theorem goOn_buf (c : CmdUnit) : (goOn c s).buf = s.buf := rfl
@[simp] theorem goOn_txq (c : CmdUnit) : (goOn c s).txq = s.txq := rfl
@[simp] theorem goOn_ser (c : CmdUnit) : (goOn c s).ser = s.ser := rfl
@[simp] theorem goOn_idleCnt (c : CmdUnit) : (goOn c s).idleCnt = s.idleCnt := rfl
@[simp] theorem goOn_cu (c : CmdUnit) : (goOn c s).cu = c := rfl
@[simp] theorem goOn_rspValid (c : CmdUnit) : (goOn c s).rspValid = false := rfl
@[simp] theorem goOn_rspWord (c : CmdUnit) : (goOn c s).rspWord = s.rspWord := rfl
@[simp] theorem goOn_claimPulse (c : CmdUnit) : (goOn c s).claimPulse = false := rfl
@[simp] theorem goOn_wtrace (c : CmdUnit) : (goOn c s).wtrace = s.wtrace := rfl
@[simp] theorem goOn_inp (c : CmdUnit) : (goOn c s).inp = s.inp := rfl
@[simp] theorem goOn_script (c : CmdUnit) : (goOn c s).script = s.script := rfl

/-! INIT's failure (R148). -/
@[simp] theorem exhaust_cfg : (exhaust s).cfg = s.cfg := rfl
@[simp] theorem exhaust_eng : (exhaust s).eng = .failed := rfl
@[simp] theorem exhaust_claimInst : (exhaust s).claimInst = s.claimInst := rfl
@[simp] theorem exhaust_claimUnit : (exhaust s).claimUnit = s.claimUnit := rfl
@[simp] theorem exhaust_imemLoaded : (exhaust s).imemLoaded = s.imemLoaded := rfl
@[simp] theorem exhaust_pinSel : (exhaust s).pinSel = s.pinSel := rfl
@[simp] theorem exhaust_buf : (exhaust s).buf = s.buf := rfl
@[simp] theorem exhaust_txq : (exhaust s).txq = s.txq := rfl
@[simp] theorem exhaust_ser : (exhaust s).ser = s.ser := rfl
@[simp] theorem exhaust_idleCnt : (exhaust s).idleCnt = s.idleCnt := rfl
@[simp] theorem exhaust_cu : (exhaust s).cu = .ready := rfl
@[simp] theorem exhaust_rspValid : (exhaust s).rspValid = true := rfl
@[simp] theorem exhaust_rspWord : (exhaust s).rspWord = responseWord .resourceExhausted 0 := rfl
@[simp] theorem exhaust_claimPulse : (exhaust s).claimPulse = false := rfl
@[simp] theorem exhaust_wtrace : (exhaust s).wtrace = s.wtrace := rfl
@[simp] theorem exhaust_inp : (exhaust s).inp = s.inp := rfl
@[simp] theorem exhaust_script : (exhaust s).script = s.script := rfl

/-! Configure (R82). -/
@[simp] theorem configure_cfg (p : Periph) (u pin : Nat) : (configure p u pin s).cfg = s.cfg := rfl
@[simp] theorem configure_eng (p : Periph) (u pin : Nat) : (configure p u pin s).eng = .initialized := rfl
@[simp] theorem configure_claimInst (p : Periph) (u pin : Nat) : (configure p u pin s).claimInst = some p := rfl
@[simp] theorem configure_claimUnit (p : Periph) (u pin : Nat) : (configure p u pin s).claimUnit = some u := rfl
@[simp] theorem configure_imemLoaded (p : Periph) (u pin : Nat) : (configure p u pin s).imemLoaded = some p := rfl
@[simp] theorem configure_pinSel (p : Periph) (u pin : Nat) : (configure p u pin s).pinSel = some pin := rfl
@[simp] theorem configure_buf (p : Periph) (u pin : Nat) : (configure p u pin s).buf = [] := rfl
@[simp] theorem configure_txq (p : Periph) (u pin : Nat) : (configure p u pin s).txq = [] := rfl
@[simp] theorem configure_ser (p : Periph) (u pin : Nat) : (configure p u pin s).ser = Serializer.rest := rfl
@[simp] theorem configure_idleCnt (p : Periph) (u pin : Nat) : (configure p u pin s).idleCnt = 0 := rfl
@[simp] theorem configure_cu (p : Periph) (u pin : Nat) : (configure p u pin s).cu = s.cu := rfl
@[simp] theorem configure_rspValid (p : Periph) (u pin : Nat) : (configure p u pin s).rspValid = s.rspValid := rfl
@[simp] theorem configure_rspWord (p : Periph) (u pin : Nat) : (configure p u pin s).rspWord = s.rspWord := rfl
@[simp] theorem configure_claimPulse (p : Periph) (u pin : Nat) : (configure p u pin s).claimPulse = s.claimPulse := rfl
@[simp] theorem configure_wtrace (p : Periph) (u pin : Nat) : (configure p u pin s).wtrace = s.wtrace := rfl
@[simp] theorem configure_inp (p : Periph) (u pin : Nat) : (configure p u pin s).inp = s.inp := rfl
@[simp] theorem configure_script (p : Periph) (u pin : Nat) : (configure p u pin s).script = s.script := rfl

/-! INIT's success (R82, R84). -/
@[simp] theorem claimed_cfg (p : Periph) (u pin : Nat) : (claimed p u pin s).cfg = s.cfg := rfl
@[simp] theorem claimed_eng (p : Periph) (u pin : Nat) : (claimed p u pin s).eng = .initialized := rfl
@[simp] theorem claimed_claimInst (p : Periph) (u pin : Nat) : (claimed p u pin s).claimInst = some p := rfl
@[simp] theorem claimed_claimUnit (p : Periph) (u pin : Nat) : (claimed p u pin s).claimUnit = some u := rfl
@[simp] theorem claimed_imemLoaded (p : Periph) (u pin : Nat) : (claimed p u pin s).imemLoaded = some p := rfl
@[simp] theorem claimed_pinSel (p : Periph) (u pin : Nat) : (claimed p u pin s).pinSel = some pin := rfl
@[simp] theorem claimed_buf (p : Periph) (u pin : Nat) : (claimed p u pin s).buf = [] := rfl
@[simp] theorem claimed_txq (p : Periph) (u pin : Nat) : (claimed p u pin s).txq = [] := rfl
@[simp] theorem claimed_ser (p : Periph) (u pin : Nat) : (claimed p u pin s).ser = Serializer.rest := rfl
@[simp] theorem claimed_idleCnt (p : Periph) (u pin : Nat) : (claimed p u pin s).idleCnt = 0 := rfl
@[simp] theorem claimed_cu (p : Periph) (u pin : Nat) : (claimed p u pin s).cu = .ready := rfl
@[simp] theorem claimed_rspValid (p : Periph) (u pin : Nat) : (claimed p u pin s).rspValid = true := rfl
@[simp] theorem claimed_rspWord (p : Periph) (u pin : Nat) : (claimed p u pin s).rspWord = responseWord .ok (claimData p u) := rfl
@[simp] theorem claimed_claimPulse (p : Periph) (u pin : Nat) : (claimed p u pin s).claimPulse = true := rfl
@[simp] theorem claimed_wtrace (p : Periph) (u pin : Nat) : (claimed p u pin s).wtrace = s.wtrace := rfl
@[simp] theorem claimed_inp (p : Periph) (u pin : Nat) : (claimed p u pin s).inp = s.inp := rfl
@[simp] theorem claimed_script (p : Periph) (u pin : Nat) : (claimed p u pin s).script = s.script := rfl

/-! A reset edge (R180). -/
@[simp] theorem resetEdge_cfg : (resetEdge s).cfg = s.cfg := rfl
@[simp] theorem resetEdge_eng : (resetEdge s).eng = .uninitialized := rfl
@[simp] theorem resetEdge_claimInst : (resetEdge s).claimInst = none := rfl
@[simp] theorem resetEdge_claimUnit : (resetEdge s).claimUnit = none := rfl
@[simp] theorem resetEdge_imemLoaded : (resetEdge s).imemLoaded = none := rfl
@[simp] theorem resetEdge_pinSel : (resetEdge s).pinSel = none := rfl
@[simp] theorem resetEdge_buf : (resetEdge s).buf = [] := rfl
@[simp] theorem resetEdge_txq : (resetEdge s).txq = [] := rfl
@[simp] theorem resetEdge_ser : (resetEdge s).ser = Serializer.rest := rfl
@[simp] theorem resetEdge_idleCnt : (resetEdge s).idleCnt = 0 := rfl
@[simp] theorem resetEdge_cu : (resetEdge s).cu = .ready := rfl
@[simp] theorem resetEdge_rspValid : (resetEdge s).rspValid = false := rfl
@[simp] theorem resetEdge_rspWord : (resetEdge s).rspWord = 0 := rfl
@[simp] theorem resetEdge_claimPulse : (resetEdge s).claimPulse = false := rfl
@[simp] theorem resetEdge_wtrace : (resetEdge s).wtrace = s.wtrace ++ [.reset] := rfl
@[simp] theorem resetEdge_inp : (resetEdge s).inp = (nextInputs s).1 := rfl
@[simp] theorem resetEdge_script : (resetEdge s).script = (nextInputs s).2 := rfl

/-! Closing an edge (R60): the serializer's fields, the queue and the trace are those of `withSerializer`; the rest is the
command unit's. -/
@[simp] theorem closeEdge_cfg : (closeEdge s t).cfg = t.cfg := by unfold closeEdge withSerializer; split <;> rfl
@[simp] theorem closeEdge_eng : (closeEdge s t).eng = t.eng := by unfold closeEdge withSerializer; split <;> rfl
@[simp] theorem closeEdge_claimInst : (closeEdge s t).claimInst = t.claimInst := by unfold closeEdge withSerializer; split <;> rfl
@[simp] theorem closeEdge_claimUnit : (closeEdge s t).claimUnit = t.claimUnit := by unfold closeEdge withSerializer; split <;> rfl
@[simp] theorem closeEdge_imemLoaded : (closeEdge s t).imemLoaded = t.imemLoaded := by unfold closeEdge withSerializer; split <;> rfl
@[simp] theorem closeEdge_pinSel : (closeEdge s t).pinSel = t.pinSel := by unfold closeEdge withSerializer; split <;> rfl
@[simp] theorem closeEdge_buf : (closeEdge s t).buf = t.buf := by unfold closeEdge withSerializer; split <;> rfl
@[simp] theorem closeEdge_txq : (closeEdge s t).txq = (withSerializer s t).txq := rfl
@[simp] theorem closeEdge_ser : (closeEdge s t).ser = (withSerializer s t).ser := rfl
@[simp] theorem closeEdge_idleCnt : (closeEdge s t).idleCnt = (withSerializer s t).idleCnt := rfl
@[simp] theorem closeEdge_cu : (closeEdge s t).cu = t.cu := by unfold closeEdge withSerializer; split <;> rfl
@[simp] theorem closeEdge_rspValid : (closeEdge s t).rspValid = t.rspValid := by unfold closeEdge withSerializer; split <;> rfl
@[simp] theorem closeEdge_rspWord : (closeEdge s t).rspWord = t.rspWord := by unfold closeEdge withSerializer; split <;> rfl
@[simp] theorem closeEdge_claimPulse : (closeEdge s t).claimPulse = t.claimPulse := by unfold closeEdge withSerializer; split <;> rfl
@[simp] theorem closeEdge_wtrace : (closeEdge s t).wtrace = (withSerializer s t).wtrace := rfl
@[simp] theorem closeEdge_inp : (closeEdge s t).inp = (nextInputs s).1 := rfl
@[simp] theorem closeEdge_script : (closeEdge s t).script = (nextInputs s).2 := rfl

/-! A word offered on the port. -/
@[simp] theorem withFetchWord_cfg (nbits w : Nat) : (s.withFetchWord nbits w).cfg = s.cfg := rfl
@[simp] theorem withFetchWord_eng (nbits w : Nat) : (s.withFetchWord nbits w).eng = s.eng := rfl
@[simp] theorem withFetchWord_claimInst (nbits w : Nat) : (s.withFetchWord nbits w).claimInst = s.claimInst := rfl
@[simp] theorem withFetchWord_claimUnit (nbits w : Nat) : (s.withFetchWord nbits w).claimUnit = s.claimUnit := rfl
@[simp] theorem withFetchWord_imemLoaded (nbits w : Nat) : (s.withFetchWord nbits w).imemLoaded = s.imemLoaded := rfl
@[simp] theorem withFetchWord_pinSel (nbits w : Nat) : (s.withFetchWord nbits w).pinSel = s.pinSel := rfl
@[simp] theorem withFetchWord_buf (nbits w : Nat) : (s.withFetchWord nbits w).buf = s.buf := rfl
@[simp] theorem withFetchWord_txq (nbits w : Nat) : (s.withFetchWord nbits w).txq = s.txq := rfl
@[simp] theorem withFetchWord_ser (nbits w : Nat) : (s.withFetchWord nbits w).ser = s.ser := rfl
@[simp] theorem withFetchWord_idleCnt (nbits w : Nat) : (s.withFetchWord nbits w).idleCnt = s.idleCnt := rfl
@[simp] theorem withFetchWord_cu (nbits w : Nat) : (s.withFetchWord nbits w).cu = .ready := rfl
@[simp] theorem withFetchWord_rspValid (nbits w : Nat) : (s.withFetchWord nbits w).rspValid = s.rspValid := rfl
@[simp] theorem withFetchWord_rspWord (nbits w : Nat) : (s.withFetchWord nbits w).rspWord = s.rspWord := rfl
@[simp] theorem withFetchWord_claimPulse (nbits w : Nat) : (s.withFetchWord nbits w).claimPulse = s.claimPulse := rfl
@[simp] theorem withFetchWord_wtrace (nbits w : Nat) : (s.withFetchWord nbits w).wtrace = s.wtrace := rfl
@[simp] theorem withFetchWord_inp (nbits w : Nat) : (s.withFetchWord nbits w).inp = { s.inp with rst := false, cmdValid := true, cmdWord := tableWord nbits w } := rfl
@[simp] theorem withFetchWord_script (nbits w : Nat) : (s.withFetchWord nbits w).script = s.script := rfl

end Updates

end Sys2Proof.Machine
end

