-- ==== Sys2Proof/Laws/Ops.lean ====
section
/-! SUPPORT. What each shared operation and each command can do, said once: the claim (40_engine.md R81), the effect of a
command at its acceptance edge (`exec_effect`) and of the command unit at any edge (`commandUnit_effect`). Later proofs cite
these inversions and do not unfold the meanings. -/

namespace Sys2Proof.Machine

/-! The claim. -/

theorem find_range_eq_some {n u : Nat} {p : Nat → Bool} :
    (List.range n).find? p = some u ↔ u < n ∧ p u = true ∧ ∀ v < u, p v = false := by
  induction n generalizing u with
  | zero => simp
  | succ n ih =>
    rw [List.range_succ, List.find?_append, Option.or_eq_some_iff, ih, List.find?_eq_none]
    constructor
    · rintro (⟨h1, h2, h3⟩ | ⟨h1, h2⟩)
      · exact ⟨by omega, h2, h3⟩
      · have hu : u = n ∧ p n = true := by
          by_cases hp : p n = true <;> simp_all
        obtain ⟨rfl, hp⟩ := hu
        exact ⟨by omega, hp, fun v hv => by simpa using h1 v (by simpa using hv)⟩
    · rintro ⟨h1, h2, h3⟩
      by_cases hu : u < n
      · exact .inl ⟨hu, h2, h3⟩
      · have : u = n := by omega
        subst this
        exact .inr ⟨fun x hx => by simpa using h3 x (by simpa using hx), by simp [h2]⟩

/-- The lowest free unit of an instance (R81). -/
theorem firstFree_eq_some {units u : Nat} {free : PoolWires} :
    firstFree units free = some u ↔ u < units ∧ free.getLsbD u = true ∧ ∀ v < u, free.getLsbD v = false :=
  find_range_eq_some

theorem firstFree_eq_none {units : Nat} {free : PoolWires} :
    firstFree units free = none ↔ ∀ v < units, free.getLsbD v = false := by
  simp [firstFree, List.find?_eq_none]

/-- A claim in instance 0 is its lowest free unit. -/
theorem claim_primary {units u : Nat} {inp : Inputs} :
    claim units inp = some (.primary, u) ↔ firstFree units inp.free0 = some u := by
  unfold claim
  cases firstFree units inp.free0 with
  | some v => simp
  | none => cases firstFree units inp.free1 <;> simp

/-- A claim in instance 1 is its lowest free unit, instance 0 having none. -/
theorem claim_secondary {units u : Nat} {inp : Inputs} :
    claim units inp = some (.secondary, u) ↔ firstFree units inp.free0 = none ∧ firstFree units inp.free1 = some u := by
  unfold claim
  cases firstFree units inp.free0 with
  | some v => simp
  | none => cases firstFree units inp.free1 <;> simp

theorem claim_none {units : Nat} {inp : Inputs} :
    claim units inp = none ↔ firstFree units inp.free0 = none ∧ firstFree units inp.free1 = none := by
  unfold claim
  cases firstFree units inp.free0 with
  | some v => simp
  | none => cases firstFree units inp.free1 <;> simp

/-- A claimed unit exists. -/
theorem claim_unit_lt {units u : Nat} {inp : Inputs} {p : Periph} (h : claim units inp = some (p, u)) : u < units := by
  cases p with
  | primary => exact (firstFree_eq_some.mp (claim_primary.mp h)).1
  | secondary => exact (firstFree_eq_some.mp (claim_secondary.mp h).2).1

/-! The engine-state checks (R147). -/

theorem initCheck_eq_none {e : Eng} : initCheck e = none ↔ e = .uninitialized := by cases e <;> simp [initCheck]
theorem runningCheck_eq_none {e : Eng} : runningCheck e = none ↔ e = .initialized := by cases e <;> simp [runningCheck]
theorem mapCheck_eq_none {e : Eng} : mapCheck e = none ↔ e ≠ .failed := by cases e <;> simp [mapCheck]
theorem initCheck_ne_ok {e : Eng} {st : Status} (h : initCheck e = some st) : st ≠ .ok := by
  cases e <;> simp [initCheck] at h <;> simp [← h]
theorem runningCheck_ne_ok {e : Eng} {st : Status} (h : runningCheck e = some st) : st ≠ .ok := by
  cases e <;> simp [runningCheck] at h <;> simp [← h]
theorem mapCheck_ne_ok {e : Eng} {st : Status} (h : mapCheck e = some st) : st ≠ .ok := by
  cases e <;> simp [mapCheck] at h
  simp [← h]
theorem initCheck_ne_exhausted {e : Eng} {st : Status} (h : initCheck e = some st) : st ≠ .resourceExhausted := by
  cases e <;> simp [initCheck] at h <;> simp [← h]
theorem runningCheck_ne_exhausted {e : Eng} {st : Status} (h : runningCheck e = some st) : st ≠ .resourceExhausted := by
  cases e <;> simp [runningCheck] at h <;> simp [← h]
theorem mapCheck_ne_exhausted {e : Eng} {st : Status} (h : mapCheck e = some st) : st ≠ .resourceExhausted := by
  cases e <;> simp [mapCheck] at h
  simp [← h]

/-! What a command can do at the edge where it is accepted. -/

/-- `ExecEffect s i t`: command `i`, accepted in `s`, may leave `t`. One constructor for each outcome of a rule. -/
inductive ExecEffect (s : State) : Instr → State → Prop
  /-- An error status and no effect (R145, R149); RESOURCE_EXHAUSTED is `exhausts`. -/
  | rejects (i : Instr) (st : Status) (hok : st ≠ .ok) (hres : st ≠ .resourceExhausted) : ExecEffect s i (raise st s)
  /-- INIT finds no unit, or no room for the program (R148). -/
  | exhausts (pin : Nat) (heng : s.eng = .uninitialized) (hpin : pin ∈ s.cfg.validPins) : ExecEffect s (.init pin) (exhaust s)
  /-- INIT claims a unit (R82). -/
  | claims (pin : Nat) (p : Periph) (u : Nat) (heng : s.eng = .uninitialized) (hpin : pin ∈ s.cfg.validPins)
      (hclaim : claim s.cfg.units s.inp = some (p, u)) (himem : s.inp.imemOk p = true) :
      ExecEffect s (.init pin) (claimed p u pin s)
  /-- EMIT pushes (R100). -/
  | emits (v : Byte) (heng : s.eng = .initialized) (hspace : hasSpace s) : ExecEffect s (.emit v) (respond .ok 0 (push v s))
  /-- EMIT waits for space (R100). -/
  | emitWaits (v : Byte) (heng : s.eng = .initialized) (hfull : ¬ hasSpace s) : ExecEffect s (.emit v) (goOn (.emitWait v) s)
  /-- LATCH ends the frame (R101). -/
  | latches (heng : s.eng = .initialized) (hdone : latchDone s) : ExecEffect s .latch (respond .ok 0 (emitEvent .latch s))
  /-- LATCH waits for the idle period (R101). -/
  | latchWaits (heng : s.eng = .initialized) (hdone : ¬ latchDone s) : ExecEffect s .latch (goOn .latchWait s)
  /-- SET writes a pixel (R115). -/
  | sets (index : Nat) (r g b : Byte) (heng : s.eng = .initialized) (hidx : index < s.cfg.n) :
      ExecEffect s (.set index r g b) (respond .ok 0 (bufWrite index ⟨r, g, b⟩ s))
  /-- CLEAR zeroes the buffer (R116). -/
  | clears (heng : s.eng = .initialized) : ExecEffect s .clear (respond .ok 0 (bufClear s))
  /-- FLUSH begins and pushes its first byte (R119, R120). -/
  | flushPushes (heng : s.eng = .initialized) (hspace : hasSpace s) (hn : 0 < s.cfg.n) :
      ExecEffect s .flush (goOn (.flushPush 0 .red) (push (bufRead s 0).g { s with eng := .streaming }))
  /-- FLUSH begins and waits for space (R119, R120). -/
  | flushWaits (heng : s.eng = .initialized) (hfull : ¬ hasSpace s) :
      ExecEffect s .flush (goOn (.flushPush 0 .green) { s with eng := .streaming })
  /-- READ returns a pixel (R117). -/
  | reads (index : Nat) (heng : s.eng = .initialized) (hidx : index < s.cfg.n) :
      ExecEffect s (.read index) (respond .ok (pixelData (bufRead s index)) s)
  /-- MAP returns an index (R122). -/
  | maps (row column : Nat) (heng : s.eng ≠ .failed) (hrow : row < s.cfg.side) (hcol : column < s.cfg.side) :
      ExecEffect s (.map row column) (respond .ok (indexData (serpentine s.cfg.side row column)) s)

theorem execInit_effect {pin : Nat} {s t : State} (h : execInit pin s = .next t) : ExecEffect s (.init pin) t := by
  unfold execInit at h
  split at h
  next st hst => cases h; exact .rejects _ st (initCheck_ne_ok hst) (initCheck_ne_exhausted hst)
  next hst =>
    have heng := initCheck_eq_none.mp hst
    split at h
    next hpin =>
      split at h
      next => cases h; exact .exhausts pin heng hpin
      next p u hclaim =>
        split at h
        next himem => cases h; exact .claims pin p u heng hpin hclaim himem
        next => cases h; exact .exhausts pin heng hpin
    next => cases h; exact .rejects _ _ (by decide) (by decide)

theorem execEmit_effect {v : Byte} {s t : State} (h : execEmit v s = .next t) : ExecEffect s (.emit v) t := by
  unfold execEmit at h
  split at h
  next st hst => cases h; exact .rejects _ st (runningCheck_ne_ok hst) (runningCheck_ne_exhausted hst)
  next hst =>
    have heng := runningCheck_eq_none.mp hst
    cases h
    unfold emitPush
    split
    next hs => exact .emits v heng hs
    next hs => exact .emitWaits v heng hs

theorem execLatch_effect {s t : State} (h : execLatch s = .next t) : ExecEffect s .latch t := by
  unfold execLatch at h
  split at h
  next st hst => cases h; exact .rejects _ st (runningCheck_ne_ok hst) (runningCheck_ne_exhausted hst)
  next hst =>
    have heng := runningCheck_eq_none.mp hst
    cases h
    unfold latchTest
    split
    next hd => exact .latches heng hd
    next hd => exact .latchWaits heng hd

theorem execSet_effect {index : Nat} {r g b : Byte} {s t : State} (h : execSet index r g b s = .next t) :
    ExecEffect s (.set index r g b) t := by
  unfold execSet at h
  split at h
  next st hst => cases h; exact .rejects _ st (runningCheck_ne_ok hst) (runningCheck_ne_exhausted hst)
  next hst =>
    split at h
    next hi => cases h; exact .sets index r g b (runningCheck_eq_none.mp hst) hi
    next => cases h; exact .rejects _ _ (by decide) (by decide)

theorem execClear_effect {s t : State} (h : execClear s = .next t) : ExecEffect s .clear t := by
  unfold execClear at h
  split at h
  next st hst => cases h; exact .rejects _ st (runningCheck_ne_ok hst) (runningCheck_ne_exhausted hst)
  next hst => cases h; exact .clears (runningCheck_eq_none.mp hst)

theorem execRead_effect {index : Nat} {s t : State} (h : execRead index s = .next t) : ExecEffect s (.read index) t := by
  unfold execRead at h
  split at h
  next st hst => cases h; exact .rejects _ st (runningCheck_ne_ok hst) (runningCheck_ne_exhausted hst)
  next hst =>
    split at h
    next hi => cases h; exact .reads index (runningCheck_eq_none.mp hst) hi
    next => cases h; exact .rejects _ _ (by decide) (by decide)

theorem execMap_effect {row column : Nat} {s t : State} (h : execMap row column s = .next t) :
    ExecEffect s (.map row column) t := by
  unfold execMap at h
  split at h
  next st hst => cases h; exact .rejects _ st (mapCheck_ne_ok hst) (mapCheck_ne_exhausted hst)
  next hst =>
    split at h
    next hc => cases h; exact .maps row column (mapCheck_eq_none.mp hst) hc.1 hc.2
    next => cases h; exact .rejects _ _ (by decide) (by decide)

/-- What one push of the FLUSH loop can do (R120). -/
theorem flushPush_next {i : Nat} {ch : Chan} {s t : State} (h : flushPush i ch s = .next t) :
    (hasSpace s ∧ i < s.cfg.n ∧ t = goOn (afterPush s.cfg.n i ch) (push (chanOf (bufRead s i) ch) s)) ∨
    (¬ hasSpace s ∧ t = goOn (.flushPush i ch) s) := by
  unfold flushPush at h
  split at h
  next hs =>
    split at h
    next hi => cases h; exact .inl ⟨hs, hi, rfl⟩
    next => cases h
  next hs => cases h; exact .inr ⟨hs, rfl⟩

theorem execFlush_effect {s t : State} (h : execFlush s = .next t) : ExecEffect s .flush t := by
  unfold execFlush at h
  split at h
  next st hst => cases h; exact .rejects _ st (runningCheck_ne_ok hst) (runningCheck_ne_exhausted hst)
  next hst =>
    have heng := runningCheck_eq_none.mp hst
    rcases flushPush_next h with ⟨hs, hn, rfl⟩ | ⟨hs, rfl⟩
    · exact .flushPushes heng hs hn
    · exact .flushWaits heng hs

/-- The inversion of `exec`: every next state it answers is the effect of one outcome of the command's rule. -/
theorem exec_effect {i : Instr} {s t : State} (h : exec i s = .next t) : ExecEffect s i t := by
  cases i with
  | init pin => exact execInit_effect h
  | emit v => exact execEmit_effect h
  | latch => exact execLatch_effect h
  | set index r g b => exact execSet_effect h
  | clear => exact execClear_effect h
  | flush => exact execFlush_effect h
  | read index => exact execRead_effect h
  | map row column => exact execMap_effect h

/-! What the command unit can do at an edge where it accepts no word. -/

/-- `ContinueEffect s t`: the command in progress in `s`, if any, may go on to `t`. -/
inductive ContinueEffect (s : State) : State → Prop
  | stays (hcu : s.cu = .ready) : ContinueEffect s (goOn .ready s)
  | emits (v : Byte) (hcu : s.cu = .emitWait v) (hspace : hasSpace s) : ContinueEffect s (respond .ok 0 (push v s))
  | emitWaits (v : Byte) (hcu : s.cu = .emitWait v) (hfull : ¬ hasSpace s) : ContinueEffect s (goOn (.emitWait v) s)
  | latches (hcu : s.cu = .latchWait) (hdone : latchDone s) : ContinueEffect s (respond .ok 0 (emitEvent .latch s))
  | latchWaits (hcu : s.cu = .latchWait) (hdone : ¬ latchDone s) : ContinueEffect s (goOn .latchWait s)
  | pushes (i : Nat) (ch : Chan) (hcu : s.cu = .flushPush i ch) (hspace : hasSpace s) (hi : i < s.cfg.n) :
      ContinueEffect s (goOn (afterPush s.cfg.n i ch) (push (chanOf (bufRead s i) ch) s))
  | pushWaits (i : Nat) (ch : Chan) (hcu : s.cu = .flushPush i ch) (hfull : ¬ hasSpace s) :
      ContinueEffect s (goOn (.flushPush i ch) s)
  | flushEnds (hcu : s.cu = .flushLatch) (hdone : latchDone s) :
      ContinueEffect s (respond .ok 0 (emitEvent .latch { s with eng := .initialized }))
  | flushWaits (hcu : s.cu = .flushLatch) (hdone : ¬ latchDone s) : ContinueEffect s (goOn .flushLatch s)

theorem continueCommand_effect {s t : State} (h : continueCommand s = .next t) : ContinueEffect s t := by
  unfold continueCommand at h
  split at h
  next hcu => cases h; exact .stays hcu
  next v hcu =>
    cases h
    unfold emitPush
    split
    next hs => exact .emits v hcu hs
    next hs => exact .emitWaits v hcu hs
  next hcu =>
    cases h
    unfold latchTest
    split
    next hd => exact .latches hcu hd
    next hd => exact .latchWaits hcu hd
  next i ch hcu =>
    rcases flushPush_next h with ⟨hs, hi, rfl⟩ | ⟨hs, rfl⟩
    · exact .pushes i ch hcu hs hi
    · exact .pushWaits i ch hcu hs
  next hcu =>
    cases h
    unfold flushLatchTest
    split
    next hd => exact .flushEnds hcu hd
    next hd => exact .flushWaits hcu hd

/-- `UnitEffect s t`: what the command unit may do at any edge without reset (R78). -/
inductive UnitEffect (s : State) : State → Prop
  | accepted (i : Instr) (t : State) (hacc : accepts s) (hdec : decode s.inp.cmdWord = .ok i) (heff : ExecEffect s i t) :
      UnitEffect s t
  | illegal (e : Illegal) (hacc : accepts s) (hdec : decode s.inp.cmdWord = .error e) :
      UnitEffect s (raise .illegalCommand s)
  | goesOn (t : State) (hacc : ¬ accepts s) (heff : ContinueEffect s t) : UnitEffect s t

theorem acceptedWord_of_accepts {s : State} (h : accepts s) : acceptedWord s = some s.inp.cmdWord := if_pos h
theorem acceptedWord_of_not {s : State} (h : ¬ accepts s) : acceptedWord s = none := if_neg h

/-- The inversion of the command unit's part of an edge. -/
theorem commandUnit_effect {s t : State} (h : commandUnit s = .next t) : UnitEffect s t := by
  unfold commandUnit at h
  by_cases hacc : accepts s
  · rw [acceptedWord_of_accepts hacc] at h
    cases hdec : decode s.inp.cmdWord with
    | ok i => simp only [hdec] at h; exact .accepted i t hacc hdec (exec_effect h)
    | error e => simp only [hdec] at h; cases h; exact .illegal e hacc hdec
  · rw [acceptedWord_of_not hacc] at h
    exact .goesOn t hacc (continueCommand_effect h)

end Sys2Proof.Machine
end

