-- ==== Sys2Proof/Laws/PerInstr.lean ====
section
/-! SUPPORT. Statements for all commands, one lemma per constructor. The family TableRow: the word of a command matches the
command's row of spec/opcode_table.json (30_encoding.md R90). -/

namespace Sys2Proof.Laws

/-- A packed word matches a row when each field does, the row's fields given as numerals. -/
theorem matches_packWord {row : OpcodeRow} {op : BitVec 8} {a b : BitVec 16} {d : BitVec 24} (mo : BitVec 8)
    (ma mb : BitVec 16) (md : BitVec 24) (vo : BitVec 8) (hm : row.mask = packWord mo ma mb md)
    (hv : row.value = packWord vo 0 0 0) (h1 : op &&& mo = vo) (h2 : a &&& ma = 0) (h3 : b &&& mb = 0) (h4 : d &&& md = 0) :
    row.Matches (packWord op a b d) := by
  rw [OpcodeRow.matches_iff, hm, hv]
  simp only [opField_packWord, aField_packWord, bField_packWord, dField_packWord]
  exact ⟨h1, h2, h3, h4⟩

theorem low_byte_masked (v : Byte) : ((0 : BitVec 16) ++ v) &&& 0xFFFF00#24 = 0 := by revert v; decide

namespace TableRow

def Statement (i : Instr) : Prop := (opcodeRow i).Matches (encode i)

theorem init (pin : Nat) : Statement (.init pin) :=
  matches_packWord 0xFF 0 0xFFFF 0xFFFFFF 0x01 rfl rfl (by decide) (by simp) (by decide) (by decide)

theorem emit (v : Byte) : Statement (.emit v) :=
  matches_packWord 0xFF 0xFFFF 0xFFFF 0xFFFF00 0x02 rfl rfl (by decide) (by decide) (by decide)
    (low_byte_masked v)

theorem latch : Statement .latch :=
  matches_packWord 0xFF 0xFFFF 0xFFFF 0xFFFFFF 0x03 rfl rfl (by decide) (by decide) (by decide) (by decide)

theorem set (index : Nat) (r g b : Byte) : Statement (.set index r g b) :=
  matches_packWord 0xFF 0 0xFFFF 0 0x10 rfl rfl (by decide) (by simp) (by decide) (by simp)

theorem clear : Statement .clear :=
  matches_packWord 0xFF 0xFFFF 0xFFFF 0xFFFFFF 0x11 rfl rfl (by decide) (by decide) (by decide) (by decide)

theorem flush : Statement .flush :=
  matches_packWord 0xFF 0xFFFF 0xFFFF 0xFFFFFF 0x12 rfl rfl (by decide) (by decide) (by decide) (by decide)

theorem read (index : Nat) : Statement (.read index) :=
  matches_packWord 0xFF 0 0xFFFF 0xFFFFFF 0x13 rfl rfl (by decide) (by simp) (by decide) (by decide)

theorem map (row column : Nat) : Statement (.map row column) :=
  matches_packWord 0xFF 0 0 0xFFFFFF 0x14 rfl rfl (by decide) (by simp) (by simp) (by decide)

end TableRow

end Sys2Proof.Laws
end

