-- ==== Sys2Proof/Laws/Responses.lean ====
section
/-! SUPPORT. The response words as numerals and concatenations, and their two fields (30_encoding.md R93, R94). -/

namespace Sys2Proof.Machine

theorem append_bytes_assoc (x y z w : BitVec 8) : x ++ (y ++ z ++ w) = x ++ y ++ z ++ w := by
  apply BitVec.eq_of_getLsbD_eq
  intro i _
  simp only [BitVec.getLsbD_append]
  by_cases h1 : i < 8
  · simp [h1]; omega
  · by_cases h2 : i - 8 < 8
    · simp [h1, h2]; omega
    · by_cases h3 : i - 8 - 8 < 8
      · simp [h1, h2, h3]; omega
      · have h4 : ¬ i < 24 := by omega
        simp only [h1, h2, h3, h4, if_false]
        congr 1

theorem zero_append_zero : (0 : BitVec 8) ++ (0 : BitVec 8) = (0 : BitVec 16) := by decide

theorem zero_append_zero_append (a : BitVec 16) : (0 : BitVec 8) ++ ((0 : BitVec 8) ++ a) = (0 : BitVec 16) ++ a := by
  apply BitVec.eq_of_getLsbD_eq
  intro i _
  simp only [BitVec.getLsbD_append]
  by_cases h1 : i < 16 <;> simp [h1]
  omega

/-- INIT's response word (R84). -/
theorem responseWord_claimData (p : Periph) (u : Nat) :
    responseWord .ok (claimData p u) = (0 : BitVec 16) ++ BitVec.ofNat 8 p.num ++ BitVec.ofNat 8 u := by
  rw [← zero_append_zero]; exact append_bytes_assoc _ _ _ _

/-- READ's response word (R93). -/
theorem responseWord_pixelData (p : Pixel) :
    responseWord .ok (pixelData p) = (0 : BitVec 8) ++ p.r ++ p.g ++ p.b :=
  append_bytes_assoc _ _ _ _

/-- MAP's response word (R93). -/
theorem responseWord_indexData (n : Nat) : responseWord .ok (indexData n) = (0 : BitVec 16) ++ BitVec.ofNat 16 n :=
  zero_append_zero_append _

/-- `STATUS = rsp_word[31:24]` (R93). -/
@[simp] theorem responseWord_status (st : Status) (d : RspData) : (responseWord st d).extractLsb' 24 8 = statusCode st := by
  ext i hi
  rw [BitVec.getElem_extractLsb']
  exact (BitVec.getLsbD_append (x := statusCode st) (y := d)).trans (by simp [BitVec.getLsbD_eq_getElem hi])

/-- `DATA = rsp_word[23:0]` (R93). -/
@[simp] theorem responseWord_data (st : Status) (d : RspData) : (responseWord st d).extractLsb' 0 24 = d := by
  ext i hi
  rw [BitVec.getElem_extractLsb']
  exact (BitVec.getLsbD_append (x := statusCode st) (y := d)).trans (by simp [hi])

/-! The words of responses without data (R94). -/

theorem responseWord_ok : responseWord .ok 0 = 0x00000000 := by decide
theorem responseWord_resourceExhausted : responseWord .resourceExhausted 0 = 0x01000000 := by decide
theorem responseWord_outOfRange : responseWord .outOfRange 0 = 0x02000000 := by decide
theorem responseWord_notInitialized : responseWord .notInitialized 0 = 0x03000000 := by decide
theorem responseWord_alreadyInitialized : responseWord .alreadyInitialized 0 = 0x04000000 := by decide
theorem responseWord_invalidPin : responseWord .invalidPin 0 = 0x05000000 := by decide
theorem responseWord_illegalCommand : responseWord .illegalCommand 0 = 0x06000000 := by decide
theorem responseWord_failed : responseWord .failed 0 = 0x07000000 := by decide

theorem statusCode_le (st : Status) : (statusCode st).toNat ≤ 7 := by cases st <;> decide

theorem statusCode_eq_zero {st : Status} : statusCode st = 0 ↔ st = .ok := by cases st <;> decide

theorem statusCode_eq_one {st : Status} : statusCode st = 0x01 ↔ st = .resourceExhausted := by cases st <;> decide

end Sys2Proof.Machine
end

