-- ==== Sys2Proof/Laws/Serializer.lean ====
section
/-! SUPPORT. The serializer's step by cases (41_serializer.md R56 to R58), and what closing an edge leaves (R60). -/

namespace Sys2Proof.Machine

@[simp] theorem appended_append {α : Type} (xs ys : List α) : appended xs (xs ++ ys) = ys := by simp [appended]
@[simp] theorem appended_self {α : Type} (xs : List α) : appended xs xs = [] := by simp [appended]

@[simp] theorem queueAfter_none (q : List Byte) : queueAfter none q = q := rfl
@[simp] theorem queueAfter_some (v : Byte) (q : List Byte) : queueAfter (some v) q = q.tail := rfl
@[simp] theorem startEvents_none : startEvents none = [] := rfl
@[simp] theorem startEvents_some (v : Byte) : startEvents (some v) = [.byte v] := rfl
@[simp] theorem startByte_ser (cfg : Config) (v : Byte) : (startByte cfg v).ser = bitCell cfg v 8 := rfl
@[simp] theorem startByte_idleCnt (cfg : Config) (v : Byte) : (startByte cfg v).idleCnt = 0 := rfl
@[simp] theorem startByte_started (cfg : Config) (v : Byte) : (startByte cfg v).started = some v := rfl
@[simp] theorem bitCell_phase (cfg : Config) (v : Byte) (k : Nat) : (bitCell cfg v k).phase = .high := rfl
@[simp] theorem bitCell_cnt (cfg : Config) (v : Byte) (k : Nat) : (bitCell cfg v k).cnt = highTime cfg (v.getLsbD 7) := rfl
@[simp] theorem bitCell_sh (cfg : Config) (v : Byte) (k : Nat) : (bitCell cfg v k).sh = v <<< 1 := rfl
@[simp] theorem bitCell_bits (cfg : Config) (v : Byte) (k : Nat) : (bitCell cfg v k).bits = k := rfl
@[simp] theorem bitCell_cur (cfg : Config) (v : Byte) (k : Nat) : (bitCell cfg v k).cur = v.getLsbD 7 := rfl

/-! One equation for each line of the serializer's pseudocode. -/

section Phases
variable {s : State}

theorem serializerEdge_idle_empty (hp : s.ser.phase = .idle) (hq : s.txq = []) :
    serializerEdge s = ⟨s.ser, min (s.idleCnt + 1) s.cfg.tLatch, none⟩ := by
  simp [serializerEdge, hp, idlePhase, hq]

theorem serializerEdge_idle_start {v : Byte} {q : List Byte} (hp : s.ser.phase = .idle) (hq : s.txq = v :: q) :
    serializerEdge s = startByte s.cfg v := by
  simp [serializerEdge, hp, idlePhase, hq]

theorem serializerEdge_high_count (hp : s.ser.phase = .high) (hc : 1 < s.ser.cnt) :
    serializerEdge s = ⟨{ s.ser with cnt := s.ser.cnt - 1 }, s.idleCnt, none⟩ := by
  simp [serializerEdge, hp, highPhase, hc]

theorem serializerEdge_high_end (hp : s.ser.phase = .high) (hc : s.ser.cnt ≤ 1) :
    serializerEdge s = ⟨{ s.ser with phase := .low, cnt := lowTime s.cfg s.ser.cur }, s.idleCnt, none⟩ := by
  simp [serializerEdge, hp, highPhase, Nat.not_lt.mpr hc]

theorem serializerEdge_low_count (hp : s.ser.phase = .low) (hc : 1 < s.ser.cnt) :
    serializerEdge s = ⟨{ s.ser with cnt := s.ser.cnt - 1 }, s.idleCnt, none⟩ := by
  simp [serializerEdge, hp, lowPhase, hc]

theorem serializerEdge_low_nextBit (hp : s.ser.phase = .low) (hc : s.ser.cnt ≤ 1) (hb : 1 < s.ser.bits) :
    serializerEdge s = ⟨bitCell s.cfg s.ser.sh (s.ser.bits - 1), s.idleCnt, none⟩ := by
  simp [serializerEdge, hp, lowPhase, Nat.not_lt.mpr hc, hb]

theorem serializerEdge_low_nextByte {v : Byte} {q : List Byte} (hp : s.ser.phase = .low) (hc : s.ser.cnt ≤ 1)
    (hb : s.ser.bits ≤ 1) (hq : s.txq = v :: q) : serializerEdge s = startByte s.cfg v := by
  simp [serializerEdge, hp, lowPhase, Nat.not_lt.mpr hc, Nat.not_lt.mpr hb, hq]

theorem serializerEdge_low_rest (hp : s.ser.phase = .low) (hc : s.ser.cnt ≤ 1) (hb : s.ser.bits ≤ 1) (hq : s.txq = []) :
    serializerEdge s = ⟨Serializer.rest, s.idleCnt, none⟩ := by
  simp [serializerEdge, hp, lowPhase, Nat.not_lt.mpr hc, Nat.not_lt.mpr hb, hq]

end Phases

/-- The inversion of the serializer's step: it starts the head of the queue, or pops nothing. -/
theorem serializerEdge_cases (s : State) :
    (∃ v q, s.txq = v :: q ∧ serializerEdge s = startByte s.cfg v ∧
      (s.ser.phase = .idle ∨ (s.ser.phase = .low ∧ s.ser.cnt ≤ 1 ∧ s.ser.bits ≤ 1))) ∨
    (s.txq = [] ∧ s.ser.phase = .idle ∧ serializerEdge s = ⟨s.ser, min (s.idleCnt + 1) s.cfg.tLatch, none⟩) ∨
    (s.ser.phase = .high ∧ 1 < s.ser.cnt ∧ serializerEdge s = ⟨{ s.ser with cnt := s.ser.cnt - 1 }, s.idleCnt, none⟩) ∨
    (s.ser.phase = .high ∧ s.ser.cnt ≤ 1 ∧
      serializerEdge s = ⟨{ s.ser with phase := .low, cnt := lowTime s.cfg s.ser.cur }, s.idleCnt, none⟩) ∨
    (s.ser.phase = .low ∧ 1 < s.ser.cnt ∧ serializerEdge s = ⟨{ s.ser with cnt := s.ser.cnt - 1 }, s.idleCnt, none⟩) ∨
    (s.ser.phase = .low ∧ s.ser.cnt ≤ 1 ∧ 1 < s.ser.bits ∧
      serializerEdge s = ⟨bitCell s.cfg s.ser.sh (s.ser.bits - 1), s.idleCnt, none⟩) ∨
    (s.txq = [] ∧ s.ser.phase = .low ∧ s.ser.cnt ≤ 1 ∧ s.ser.bits ≤ 1 ∧
      serializerEdge s = ⟨Serializer.rest, s.idleCnt, none⟩) := by
  cases hp : s.ser.phase with
  | idle =>
    cases hq : s.txq with
    | nil => exact .inr (.inl ⟨rfl, rfl, serializerEdge_idle_empty hp hq⟩)
    | cons v q => exact .inl ⟨v, q, rfl, serializerEdge_idle_start hp hq, .inl rfl⟩
  | high =>
    by_cases hc : 1 < s.ser.cnt
    · exact .inr (.inr (.inl ⟨rfl, hc, serializerEdge_high_count hp hc⟩))
    · exact .inr (.inr (.inr (.inl ⟨rfl, by omega, serializerEdge_high_end hp (by omega)⟩)))
  | low =>
    by_cases hc : 1 < s.ser.cnt
    · exact .inr (.inr (.inr (.inr (.inl ⟨rfl, hc, serializerEdge_low_count hp hc⟩))))
    · by_cases hb : 1 < s.ser.bits
      · exact .inr (.inr (.inr (.inr (.inr (.inl ⟨rfl, by omega, hb, serializerEdge_low_nextBit hp (by omega) hb⟩)))))
      · cases hq : s.txq with
        | nil =>
          exact .inr (.inr (.inr (.inr (.inr (.inr
            ⟨rfl, rfl, by omega, by omega, serializerEdge_low_rest hp (by omega) (by omega) hq⟩)))))
        | cons v q =>
          exact .inl ⟨v, q, rfl, serializerEdge_low_nextByte hp (by omega) (by omega) hq, .inr ⟨rfl, by omega, by omega⟩⟩

/-! Closing an edge. -/

section Closing
variable {s t : State}

theorem withSerializer_inactive (h : s.eng.active = false) : withSerializer s t = t := by simp [withSerializer, h]

theorem withSerializer_ser (h : s.eng.active = true) : (withSerializer s t).ser = (serializerEdge s).ser := by
  simp [withSerializer, h]

theorem withSerializer_idleCnt (h : s.eng.active = true) : (withSerializer s t).idleCnt = (serializerEdge s).idleCnt := by
  simp [withSerializer, h]

theorem withSerializer_txq (h : s.eng.active = true) :
    (withSerializer s t).txq = queueAfter (serializerEdge s).started s.txq ++ appended s.txq t.txq := by
  simp [withSerializer, h]

theorem withSerializer_wtrace (h : s.eng.active = true) :
    (withSerializer s t).wtrace =
      s.wtrace ++ startEvents (serializerEdge s).started ++ appended s.wtrace t.wtrace := by
  simp [withSerializer, h]

theorem Eng.active_iff {e : Eng} : e.active = true ↔ e = .initialized ∨ e = .streaming := by cases e <;> simp [Eng.active]
theorem Eng.inactive_iff {e : Eng} : e.active = false ↔ e = .uninitialized ∨ e = .failed := by cases e <;> simp [Eng.active]

end Closing

end Sys2Proof.Machine
end

