-- ==== Sys2Proof/Laws/Step.lean ====
section
/-! SUPPORT. The inversion of one clock edge (41_serializer.md R60), and runs of many edges. -/

namespace Sys2Proof.Machine

/-- What a step that answers a next state did: a reset edge (R180), or the command unit's effect closed by the serializer's. -/
theorem step_cases {s t : State} (h : step s = .next t) :
    s.cfg.Wf ∧ ((s.inp.rst = true ∧ t = resetEdge s) ∨ (s.inp.rst = false ∧ ∃ u, UnitEffect s u ∧ t = closeEdge s u)) := by
  unfold step at h
  split at h
  next hcfg =>
    refine ⟨hcfg, ?_⟩
    cases hr : s.inp.rst with
    | true => simp only [hr, if_true] at h; cases h; exact .inl ⟨rfl, rfl⟩
    | false =>
      simp only [hr, Bool.false_eq_true, if_false] at h
      split at h
      next u hu => cases h; exact .inr ⟨rfl, u, commandUnit_effect hu, rfl⟩
      next => cases h
      next => cases h
  next => cases h

/-- A step without reset is the command unit's part of the edge, closed. -/
theorem step_of_noReset {s : State} (hcfg : s.cfg.Wf) (hr : s.inp.rst = false) : step s = closeWith s (commandUnit s) := by
  rw [step, if_pos hcfg]
  simp only [hr, Bool.false_eq_true, if_false]
  rfl

/-- A step of a reset edge (R180). -/
theorem step_of_reset {s : State} (hcfg : s.cfg.Wf) (hr : s.inp.rst = true) : step s = .next (resetEdge s) := by
  rw [step, if_pos hcfg, if_pos hr]

@[simp] theorem closeWith_next (s t : State) : closeWith s (.next t) = .next (closeEdge s t) := rfl

/-! What the command unit's part of an edge leaves, by field: one lemma each, from `UnitEffect`. -/

section UnitEffects
variable {s u : State}

theorem UnitEffect.cfg_eq (hu : UnitEffect s u) : u.cfg = s.cfg := by
  cases hu with
  | accepted i t hacc hdec heff => cases heff <;> rfl
  | illegal e hacc hdec => rfl
  | goesOn t hacc heff => cases heff <;> rfl

theorem UnitEffect.inp_eq (hu : UnitEffect s u) : u.inp = s.inp ∧ u.script = s.script := by
  cases hu with
  | accepted i t hacc hdec heff => cases heff <;> exact ⟨rfl, rfl⟩
  | illegal e hacc hdec => exact ⟨rfl, rfl⟩
  | goesOn t hacc heff => cases heff <;> exact ⟨rfl, rfl⟩

/-- While the engine runs, the queue is kept or gains one byte, and the byte had space (R60, R100, R120). -/
theorem UnitEffect.txq_cases (hu : UnitEffect s u) (ha : s.eng.active = true) :
    u.txq = s.txq ∨ ∃ v, hasSpace s ∧ u.txq = s.txq ++ [v] := by
  cases hu with
  | accepted i t hacc hdec heff => cases heff <;> simp_all [Eng.active]
  | illegal e hacc hdec => exact .inl rfl
  | goesOn t hacc heff => cases heff <;> simp_all

/-- The command unit's only event is Latch, and only where `latch_done` holds (R62, R101, R121). -/
theorem UnitEffect.wtrace_cases (hu : UnitEffect s u) :
    u.wtrace = s.wtrace ∨ (latchDone s ∧ u.wtrace = s.wtrace ++ [.latch]) := by
  cases hu with
  | accepted i t hacc hdec heff => cases heff <;> first | exact .inl rfl | exact .inr ⟨‹_›, rfl⟩
  | illegal e hacc hdec => exact .inl rfl
  | goesOn t hacc heff => cases heff <;> first | exact .inl rfl | exact .inr ⟨‹_›, rfl⟩

/-- While the engine runs, the command unit does not write the serializer's fields (R60). -/
theorem UnitEffect.ser_eq (hu : UnitEffect s u) (ha : s.eng.active = true) : u.ser = s.ser ∧ u.idleCnt = s.idleCnt := by
  cases hu with
  | accepted i t hacc hdec heff => cases heff <;> simp_all [Eng.active]
  | illegal e hacc hdec => exact ⟨rfl, rfl⟩
  | goesOn t hacc heff => cases heff <;> exact ⟨rfl, rfl⟩

/-- A running engine stops running only by reset (R24). -/
theorem UnitEffect.active_keeps (hu : UnitEffect s u) (ha : s.eng.active = true) : u.eng.active = true := by
  cases hu with
  | accepted i t hacc hdec heff => cases heff <;> simp_all [Eng.active]
  | illegal e hacc hdec => exact ha
  | goesOn t hacc heff => cases heff <;> simp_all [Eng.active]

/-- Every memory operation of the command unit keeps the canonical form, within [0, N-1] (R28, R40). -/
theorem UnitEffect.buffer_keeps (hu : UnitEffect s u) (h : bufferOk s) : bufferOk u := by
  obtain ⟨h1, h2⟩ := h
  cases hu with
  | accepted i t hacc hdec heff =>
    cases heff with
    | sets index r g b heng hidx => exact ⟨bufWrite_wf h1 _ _, Memory.write_within h2 hidx _⟩
    | clears => exact ⟨Memory.wf_nil, by simp⟩
    | claims => exact ⟨Memory.wf_nil, by simp⟩
    | _ => exact ⟨h1, h2⟩
  | illegal e hacc hdec => exact ⟨h1, h2⟩
  | goesOn t hacc heff => cases heff <;> exact ⟨h1, h2⟩

end UnitEffects

/-- Every phase of a well-formed configuration lasts at least one cycle (R7). -/
theorem highTime_pos {c : Config} (h : c.Wf) (b : Bool) : 1 ≤ highTime c b := by
  obtain ⟨-, -, -, ⟨h1, h2, h3, h4⟩, -⟩ := h
  cases b <;> assumption

theorem lowTime_pos {c : Config} (h : c.Wf) (b : Bool) : 1 ≤ lowTime c b := by
  obtain ⟨-, -, -, ⟨h1, h2, h3, h4⟩, -⟩ := h
  cases b <;> assumption

/-- A bit cell lasts `T_BIT` cycles (R58, R64). -/
theorem cell_time {c : Config} (h : c.Wf) (b : Bool) : highTime c b + lowTime c b = c.tBit := by
  obtain ⟨-, -, -, -, ⟨h0, h1⟩, -⟩ := h
  cases b <;> assumption

/-- `claim` finds exactly the unit that R81 describes. -/
theorem claim_eq_some_iff {s : State} {p : Periph} {u : Nat} :
    claim s.cfg.units s.inp = some (p, u) ↔ firstToClaim s p u := by
  cases p with
  | primary => rw [claim_primary, firstFree_eq_some]; simp [firstToClaim, unitFree]
  | secondary =>
    rw [claim_secondary, firstFree_eq_some, firstFree_eq_none]
    exact ⟨fun ⟨h1, h2, h3, h4⟩ => ⟨h2, h3, h4, fun _ => h1⟩, fun ⟨h2, h3, h4, h1⟩ => ⟨h1 rfl, h2, h3, h4⟩⟩

theorem claim_eq_none_iff {s : State} :
    claim s.cfg.units s.inp = none ↔ noneFree s .primary ∧ noneFree s .secondary := by
  rw [claim_none, firstFree_eq_none, firstFree_eq_none]
  rfl

/-! Runs. -/

@[simp] theorem runSteps_zero (s : State) : runSteps 0 s = .next s := rfl

theorem runSteps_succ {s t : State} (h : step s = .next t) (k : Nat) : runSteps (k + 1) s = runSteps k t := by
  simp only [runSteps, h]

theorem runSteps_add {s t : State} {j : Nat} (h : runSteps j s = .next t) (k : Nat) : runSteps (j + k) s = runSteps k t := by
  induction j generalizing s with
  | zero =>
    simp only [runSteps_zero, Host.Outcome.next.injEq] at h
    rw [h, Nat.zero_add]
  | succ j ih =>
    rw [Nat.add_right_comm]
    cases hs : step s with
    | next u => rw [runSteps_succ hs] at h ⊢; exact ih h
    | fault r => simp only [runSteps, hs] at h; cases h
    | refused r => simp only [runSteps, hs] at h; cases h

/-- One more edge at the end of a run. -/
theorem runSteps_step {s t : State} {k : Nat} (h : runSteps k s = .next t) : runSteps (k + 1) s = step t := by
  rw [runSteps_add h 1]
  cases hs : step t <;> simp [runSteps, hs]

/-- The last edge of a run. -/
theorem runSteps_succ_inv {s u : State} {k : Nat} (h : runSteps (k + 1) s = .next u) :
    ∃ t, runSteps k s = .next t ∧ step t = .next u := by
  induction k generalizing s with
  | zero =>
    refine ⟨s, rfl, ?_⟩
    rwa [runSteps_step (runSteps_zero s)] at h
  | succ k ih =>
    cases hs : step s with
    | next v =>
      rw [runSteps_succ hs] at h
      obtain ⟨t, ht, htu⟩ := ih h
      exact ⟨t, by rw [runSteps_succ hs, ht], htu⟩
    | fault r => simp only [runSteps, hs] at h; cases h
    | refused r => simp only [runSteps, hs] at h; cases h

/-! The environment. -/

theorem nextInputs_mem (s : State) :
    ((nextInputs s).1 = s.inp ∨ (nextInputs s).1 = s.inp.quiet ∨ ∃ x ∈ s.script, (nextInputs s).1 = x.ports) ∧
    ∀ x ∈ (nextInputs s).2, x ∈ s.script := by
  unfold nextInputs
  cases hs : s.script with
  | nil => dsimp only; split <;> simp
  | cons x rest =>
    dsimp only
    split
    · simp
    · exact ⟨.inr (.inr ⟨x, by simp, rfl⟩), fun y hy => by simp [hy]⟩

/-- Without a reset in the environment's plan, every later state is without one too. -/
theorem noReset_step {s t : State} (h : noReset s) (hs : step s = .next t) : noReset t := by
  have hin : t.inp = (nextInputs s).1 ∧ t.script = (nextInputs s).2 := by
    rcases (step_cases hs).2 with ⟨-, rfl⟩ | ⟨-, u, -, rfl⟩ <;> simp
  obtain ⟨h1, h2⟩ := nextInputs_mem s
  refine ⟨?_, fun x hx => h.2 x (h2 x (hin.2 ▸ hx))⟩
  rw [hin.1]
  rcases h1 with h1 | h1 | h1
  · rw [h1]; exact h.1
  · rw [h1]; rfl
  · obtain ⟨x, hx, h1⟩ := h1
    rw [h1]; exact h.2 x hx

/-- No step changes the configuration. -/
theorem step_cfg {s t : State} (hs : step s = .next t) : t.cfg = s.cfg := by
  rcases (step_cases hs).2 with ⟨-, rfl⟩ | ⟨-, u, hu, rfl⟩
  · rfl
  · rw [closeEdge_cfg, hu.cfg_eq]

/-! Packaged inductions. -/

/-- What every step keeps, every run keeps. -/
theorem runSteps_keeps {P : State → Prop} (hstep : ∀ s t, P s → step s = .next t → P t) {k : Nat} {s t : State} (hs : P s)
    (h : runSteps k s = .next t) : P t := by
  induction k generalizing s with
  | zero => cases h; exact hs
  | succ k ih =>
    cases hst : step s with
    | next u => rw [runSteps_succ hst] at h; exact ih (hstep s u hs hst) h
    | fault r => simp only [runSteps, hst] at h; cases h
    | refused r => simp only [runSteps, hst] at h; cases h

/-- Where an invariant guarantees a next step, every run goes on. -/
theorem runSteps_goes {P : State → Prop} (hstep : ∀ s, P s → ∃ t, step s = .next t ∧ P t) (k : Nat) {s : State} (hs : P s) :
    ∃ t, runSteps k s = .next t ∧ P t := by
  induction k generalizing s with
  | zero => exact ⟨s, rfl, hs⟩
  | succ k ih =>
    obtain ⟨u, hu, hpu⟩ := hstep s hs
    rw [runSteps_succ hu]
    exact ih hpu

end Sys2Proof.Machine
end

