-- ==== Sys2Proof/Tests/Slice0.lean ====
section
/-! SUPPORT. The model's own tests: expected results are those of spec/95_test_vectors.md and of the rules' own examples,
never the model's answers. Then one witness for the hypotheses of each obligation, a clause at a time, at the ends of its
ranges. -/

namespace Sys2Proof.Tests

open Sys2Proof Sys2Proof.Machine

/-! Small states. -/

/-- The next state, or `s` where the step stops. -/
def nextOr (s : State) (o : Host.Outcome State Fault Refusal) : State :=
  match o with
  | .next t => t
  | .fault _ => s
  | .refused _ => s

/-- A command met at its acceptance edge. -/
def did (i : Instr) (s : State) : State := nextOr s (exec i s)

/-- EX, its bit cells and its latch shortened so that runs in tests are short. -/
def short : Config where
  side := 2
  units := 3
  qDepth := 2
  tBit := 3
  t0h := 1
  t0l := 2
  t1h := 2
  t1l := 1
  tLatch := 2
  validPins := [7]

def fresh : State := State.resetWith Config.ex [] Inputs.atReset []

/-- "Initialized state" of 95_test_vectors.md, but for the one-cycle pulse and response of INIT. -/
def running : State :=
  { fresh with
    eng := .initialized, claimInst := some .primary, claimUnit := some 0, imemLoaded := some .primary, pinSel := some 7 }

def failed : State := { fresh with eng := .failed }
def shortRun : State := { running with cfg := short }
def busy : State := { shortRun with eng := .streaming, cu := .flushPush 3 .blue, txq := [1] }
def full : State := { shortRun with txq := [1, 2] }
def sending : State := { shortRun with ser := ⟨.high, 2, 0x40, 8, true⟩, txq := [5] }
def offering (s : State) (w : Nat) : State := s.withFetchWord 64 w
def resetting (s : State) : State := { s with inp := { s.inp with rst := true } }
def pool (s : State) (f0 f1 : PoolWires) : State := { s with inp := { s.inp with free0 := f0, free1 := f1 } }

/-- The states above meet the invariant. -/
theorem inv_reset : Inv State.reset :=
  ⟨by decide, by decide, by decide, by decide, by decide, by decide, by decide, by decide⟩
theorem inv_running : Inv running :=
  ⟨by decide, by decide, by decide, by decide, by decide, by decide, by decide, by decide⟩
theorem inv_failed : Inv failed :=
  ⟨by decide, by decide, by decide, by decide, by decide, by decide, by decide, by decide⟩
theorem inv_shortRun : Inv shortRun :=
  ⟨by decide, by decide, by decide, by decide, by decide, by decide, by decide, by decide⟩
theorem inv_busy : Inv busy :=
  ⟨by decide, by decide, by decide, by decide, by decide, by decide, by decide, by decide⟩
theorem inv_sending : Inv sending :=
  ⟨by decide, by decide, by decide, by decide, by decide, by decide, by decide, by decide⟩
theorem inv_flushOffered : Inv (offering full 0x1200000000000000) :=
  ⟨by decide, by decide, by decide, by decide, by decide, by decide, by decide, by decide⟩
theorem inv_flushFromIdle : Inv (offering shortRun 0x1200000000000000) :=
  ⟨by decide, by decide, by decide, by decide, by decide, by decide, by decide, by decide⟩
theorem inv_emitWaiting : Inv { full with cu := .emitWait 9 } :=
  ⟨by decide, by decide, by decide, by decide, by decide, by decide, by decide, by decide⟩
theorem inv_latchWaiting : Inv { full with cu := .latchWait } :=
  ⟨by decide, by decide, by decide, by decide, by decide, by decide, by decide, by decide⟩
theorem inv_low : Inv { sending with ser := ⟨.low, 1, 0, 1, true⟩ } :=
  ⟨by decide, by decide, by decide, by decide, by decide, by decide, by decide, by decide⟩
theorem inv_latchWaitingIdle : Inv { shortRun with cu := .latchWait } :=
  ⟨by decide, by decide, by decide, by decide, by decide, by decide, by decide, by decide⟩
theorem inv_exhausted : Inv (pool (offering fresh 0x0100070000000000) 0 0) :=
  ⟨by decide, by decide, by decide, by decide, by decide, by decide, by decide, by decide⟩
theorem inv_flushEnding : Inv { shortRun with eng := .streaming, cu := .flushLatch, idleCnt := 2 } :=
  ⟨by decide, by decide, by decide, by decide, by decide, by decide, by decide, by decide⟩

/-! WellFormed refuses an operand outside its field (R95), one test for each check. -/

theorem test_wf_init : ¬ (Instr.init 65536).Wf := by decide
theorem test_wf_set : ¬ (Instr.set 65536 0 0 0).Wf := by decide
theorem test_wf_read : ¬ (Instr.read 65536).Wf := by decide
theorem test_wf_map_row : ¬ (Instr.map 65536 0).Wf := by decide
theorem test_wf_map_column : ¬ (Instr.map 0 65536).Wf := by decide
theorem test_wf_config_side : ¬ { short with side := 256 }.Wf := by decide
theorem test_wf_config_times : ¬ { short with t1h := 1, t1l := 2 }.Wf := by decide

/-! Decoding: every word written out bit by bit as `OP A B D` from R86, R88 and R89, and the words of vector table 2.1. -/

theorem test_decode_init :
    decode 0b00000001_0000000000000111_0000000000000000_000000000000000000000000 = .ok (.init 7) := by decide
theorem test_decode_emit :
    decode 0b00000010_0000000000000000_0000000000000000_000000000000000010100101 = .ok (.emit 0xA5) := by decide
theorem test_decode_latch :
    decode 0b00000011_0000000000000000_0000000000000000_000000000000000000000000 = .ok .latch := by decide
theorem test_decode_set :
    decode 0b00010000_0000000000000011_0000000000000000_000100100011010001010110 = .ok (.set 3 0x12 0x34 0x56) := by decide
theorem test_decode_clear :
    decode 0b00010001_0000000000000000_0000000000000000_000000000000000000000000 = .ok .clear := by decide
theorem test_decode_flush :
    decode 0b00010010_0000000000000000_0000000000000000_000000000000000000000000 = .ok .flush := by decide
theorem test_decode_read :
    decode 0b00010011_0000000000011000_0000000000000000_000000000000000000000000 = .ok (.read 24) := by decide
theorem test_decode_map :
    decode 0b00010100_0000000000000010_0000000000000011_000000000000000000000000 = .ok (.map 2 3) := by decide
theorem test_decode_reserved :
    decode 0xFFFFFFFFFFFFFFFF = .error .reservedOpcode ∧ decode 0 = .error .reservedOpcode ∧
    decode 0x0400000000000000 = .error .reservedOpcode ∧ decode 0x1500000000000000 = .error .reservedOpcode := by decide
theorem test_decode_nonZeroField :
    decode 0x0100070001000000 = .error .nonZeroField ∧ decode 0x0200000000000100 = .error .nonZeroField ∧
    decode 0x0300000000000001 = .error .nonZeroField ∧ decode 0x1000030001123456 = .error .nonZeroField ∧
    decode 0x1400020003000001 = .error .nonZeroField := by decide
theorem test_rows_disjoint : opcodeTable.Pairwise (fun r r' => r.mask &&& r'.mask &&& (r.value ^^^ r'.value) ≠ 0) := by decide
theorem test_assemble_rejects : assembleLine "EMIT 256".toList = none ∧ assembleLine "READ 65536".toList = none := by decide

/-! One edge of each command: vectors 2.2, 2.3, 2.4, 2.6, 2.7 and 2.9. -/

theorem test_init_secondary :
    (did (.init 7) (pool fresh 0b0000 0b0100)).rspWord = 0x00000102 ∧
    (did (.init 7) (pool fresh 0b0000 0b0100)).eng = .initialized := by decide
theorem test_init_lowest_free : (did (.init 7) (pool fresh 0b0110 0b1111)).rspWord = 0x00000001 := by decide
theorem test_emit_pushes : (did (.emit 0xA5) running).txq = [0xA5] ∧ (did (.emit 0xA5) running).rspWord = 0 := by decide
theorem test_emit_before_init : (did (.emit 0x12) fresh).rspWord = 0x03000000 ∧ (did (.emit 0x12) fresh).txq = [] := by decide
theorem test_latch_waits : (did .latch running).cu = .latchWait := by decide
theorem test_latch_after_idle : (did .latch { running with idleCnt := 800 }).wtrace = [.latch] := by decide
theorem test_set_last : (did (.set 24 0xFF 0x00 0x01) running).buf = [(24, ⟨0xFF, 0x00, 0x01⟩)] := by decide
theorem test_set_out_of_range :
    (did (.set 25 1 1 1) running).rspWord = 0x02000000 ∧ (did (.set 65535 1 1 1) running).buf = [] := by decide
theorem test_clear : (did .clear (did (.set 3 1 2 3) running)).buf = [] := by decide
theorem test_read_rgb : (did (.read 3) (did (.set 3 0x12 0x34 0x56) running)).rspWord = 0x00123456 := by decide
theorem test_read_out_of_range : (did (.read 25) running).rspWord = 0x02000000 := by decide
theorem test_flush_first_byte :
    (did .flush (did (.set 0 0x10 0x20 0x30) running)).txq = [0x20] ∧ (did .flush running).eng = .streaming := by decide
theorem test_flush_before_init : (did .flush fresh).rspWord = 0x03000000 := by decide
theorem test_map_odd_row : (did (.map 1 0) fresh).rspWord = 15 ∧ (did (.map 0 4) fresh).rspWord = 20 := by decide
theorem test_map_out_of_range : (did (.map 5 0) fresh).rspWord = 0x02000000 ∧ (did (.map 0 5) fresh).rspWord = 0x02000000 := by
  decide

/-! One clock edge of the serializer: vector 2.4 (b) and the first edges of 2.5. -/

theorem test_step_starts_byte :
    (nextOr running (step { running with txq := [0xA5] })).ser = ⟨.high, 6, 0x4A, 8, true⟩ ∧
    (nextOr running (step { running with txq := [0xA5] })).wtrace = [.byte 0xA5] := by decide
theorem test_step_turns_low :
    (nextOr running (step { running with ser := ⟨.high, 1, 0x4A, 8, true⟩ })).ser = ⟨.low, 4, 0x4A, 8, true⟩ := by decide
theorem test_step_next_bit :
    (nextOr running (step { running with ser := ⟨.low, 1, 0x4A, 8, true⟩ })).ser = ⟨.high, 3, 0x94, 7, false⟩ := by decide
theorem test_step_reset : (nextOr running (step (resetting running))).eng = .uninitialized := by decide
theorem test_wave_of_0x80 :
    byteWave Config.ex 0x80 = List.replicate 6 true ++ List.replicate 4 false ++
      (List.replicate 7 (List.replicate 3 true ++ List.replicate 7 false)).flatten := by decide

/-! Witnesses: hypotheses met by concrete states, for each obligation that has any. -/

theorem witness_DecodeUndoesEncode : (Instr.map 65535 65535).Wf ∧ (Instr.init 65535).Wf := by decide
theorem witness_EncodeUndoesDecode : decode 0x10FFFF0000010101 = .ok (.set 65535 1 1 1) := by decide
theorem witness_StepRunsTheDecodedCommand :
    let s := offering running 0x1100000000000000
    s.cfg.Wf ∧ s.inp.rst = false ∧ s.inp.cmdValid = true ∧ s.cu = .ready ∧ decode s.inp.cmdWord = .ok .clear := by decide
theorem witness_OfferedWordIsAccepted : running.cfg.Wf ∧ (Instr.read 24).Wf := by decide
theorem witness_IllegalWordsChangeNothing :
    let s := offering failed 0x0000000000000000
    s.cfg.Wf ∧ s.inp.rst = false ∧ s.inp.cmdValid = true ∧ s.cu = .ready ∧
    ∀ row ∈ opcodeTable, s.inp.cmdWord &&& row.mask ≠ row.value := by decide
theorem witness_IllFormedConfigurationIsRefused :
    ¬ ({ fresh with cfg := { short with side := 0 } }.cfg.side ≥ 1) ∧ short.Wf ∧ { short with side := 255 }.Wf := by decide
theorem witness_PortsFollowTheEnvironmentsPlan :
    let waiting := { offering shortRun 0x1100000000000000 with script := [⟨true, Inputs.atReset⟩] }
    let held := { waiting with cu := .latchWait }
    (step waiting = .next (nextOr waiting (step waiting)) ∧ accepts waiting) ∧
    (step held = .next (nextOr held (step held)) ∧ held.inp.rst = false ∧ held.inp.cmdValid = true ∧ ¬ accepts held) ∧
    (step { held with script := [⟨false, (resetting fresh).inp⟩] } =
      .next (nextOr held (step { held with script := [⟨false, (resetting fresh).inp⟩] }))) ∧
    (step busy = .next (nextOr busy (step busy)) ∧ busy.script = []) :=
  ⟨⟨rfl, by decide⟩, ⟨rfl, rfl, rfl, by decide⟩, rfl, rfl, rfl⟩
theorem witness_ResetLeavesTheResetState : (resetting busy).cfg.Wf ∧ (resetting busy).inp.rst = true := by decide
theorem witness_ResetEndsTheFrameUnlatched :
    (resetting sending).inp.rst = true ∧ step (resetting sending) = .next (resetEdge (resetting sending)) :=
  ⟨by decide, rfl⟩
theorem witness_ResetStateMeetsInvariant : short.Wf := by decide
theorem witness_StepKeepsInvariant : Inv busy ∧ step busy = .next (nextOr busy (step busy)) := ⟨inv_busy, rfl⟩
theorem witness_InvariantStatesNeverStop : Inv busy := inv_busy
theorem witness_InitClaims_primary :
    fresh.eng = .uninitialized ∧ 7 ∈ fresh.cfg.validPins ∧ firstToClaim (pool fresh 0b1000 0b1111) .primary 3 ∧
    fresh.inp.imemOk .primary = true := by decide
theorem witness_InitClaims_secondary :
    firstToClaim (pool fresh 0b0000 0b0100) .secondary 2 ∧ (pool fresh 0 0b0100).inp.imemOk .secondary = true := by decide
theorem witness_InitFails_noUnit :
    fresh.eng = .uninitialized ∧ 7 ∈ fresh.cfg.validPins ∧ noneFree (pool fresh 0 0) .primary ∧
    noneFree (pool fresh 0 0) .secondary := by decide
theorem witness_InitFails_noRoom :
    let s := { fresh with inp := { fresh.inp with imemOk0 := false } }
    firstToClaim s .primary 0 ∧ s.inp.imemOk .primary = false := by decide
theorem witness_InitFails_onlyInit :
    let s := pool (offering fresh 0x0100070000000000) 0 0
    step s = .next (nextOr s (step s)) ∧ (nextOr s (step s)).rspValid = true ∧
    (nextOr s (step s)).rspWord.extractLsb' 24 8 = 0x01 := ⟨rfl, by decide, by decide⟩
theorem witness_InitIsGuarded : running.eng = .initialized ∧ fresh.eng = .uninitialized ∧ 99 ∉ fresh.cfg.validPins := by decide
theorem witness_EmitPushesOrWaits :
    ({ full with txq := [1] }.eng = .initialized ∧ { full with txq := [1] }.txq.length < full.cfg.qDepth) ∧
    (full.eng = .initialized ∧ full.cfg.qDepth ≤ full.txq.length) ∧
    ({ full with cu := .emitWait 9 }.cu = .emitWait 9 ∧ full.cfg.qDepth ≤ full.txq.length) ∧
    ({ full with cu := .emitWait 9, txq := [1] }.cu = .emitWait 9 ∧ { full with txq := [1] }.txq.length < full.cfg.qDepth) ∧
    fresh.eng = .uninitialized ∧ failed.eng = .failed := by decide
theorem witness_EmitWaitIsBounded :
    Inv { full with cu := .emitWait 9 } ∧ noReset { full with cu := .emitWait 9 } ∧
    { full with cu := .emitWait 9 }.cu = .emitWait 9 := ⟨inv_emitWaiting, by decide, rfl⟩
theorem witness_LatchEndsTheFrameOrWaits :
    latchDone { shortRun with idleCnt := 2 } ∧ ¬ latchDone { shortRun with idleCnt := 1 } ∧
    { shortRun with cu := .latchWait }.cu = .latchWait ∧ shortRun.eng = .initialized ∧ fresh.eng = .uninitialized ∧
    failed.eng = .failed := by decide
theorem witness_LatchWaitIsBounded :
    Inv { full with cu := .latchWait } ∧ noReset { full with cu := .latchWait } ∧
    { full with cu := .latchWait }.cu = .latchWait := ⟨inv_latchWaiting, by decide, rfl⟩
theorem witness_LatchEndsAFullIdlePeriod :
    let s := { shortRun with cu := .latchWait }
    let t := nextOr s (runSteps 2 s)
    Inv s ∧ s.idleCnt = 0 ∧ runSteps 2 s = .next t ∧ step t = .next (nextOr t (step t)) ∧
    (nextOr t (step t)).wtrace = t.wtrace ++ [.latch] :=
  ⟨inv_latchWaitingIdle, by decide, rfl, rfl, by decide⟩
theorem witness_SetWritesOnePixel :
    (running.eng = .initialized ∧ 24 < running.cfg.side * running.cfg.side ∧ running.buf.Wf) ∧
    running.cfg.side * running.cfg.side ≤ 25 ∧ fresh.eng = .uninitialized ∧ failed.eng = .failed := by decide
theorem witness_ClearZeroesEveryPixel :
    running.eng = .initialized ∧ fresh.eng = .uninitialized ∧ failed.eng = .failed := by decide
theorem witness_ReadReturnsThePixel :
    (running.eng = .initialized ∧ 24 < running.cfg.side * running.cfg.side) ∧
    running.cfg.side * running.cfg.side ≤ 25 ∧ fresh.eng = .uninitialized ∧ failed.eng = .failed := by decide
theorem witness_ReadSeesTheLatestWrite :
    running.eng = .initialized ∧ running.buf.Wf ∧ 24 < running.cfg.n ∧ 0 < running.cfg.n ∧
    exec (.set 24 1 2 3) running = .next (did (.set 24 1 2 3) running) ∧
    exec .clear running = .next (did .clear running) := ⟨by decide, by decide, by decide, by decide, rfl, rfl⟩
theorem witness_FlushStartsStreaming :
    shortRun.cfg.Wf ∧ (shortRun.eng = .initialized ∧ shortRun.txq.length < shortRun.cfg.qDepth) ∧
    (full.eng = .initialized ∧ full.cfg.qDepth ≤ full.txq.length) ∧ fresh.eng = .uninitialized ∧ failed.eng = .failed := by decide
theorem witness_FlushPushesChannelByChannel :
    (3 < busy.cfg.n ∧ busy.cu = .flushPush 3 .blue ∧ 3 + 1 = busy.cfg.n ∧ busy.txq.length < busy.cfg.qDepth) ∧
    (2 < busy.cfg.n ∧ { busy with cu := .flushPush 2 .blue }.cu = .flushPush 2 .blue ∧ 2 + 1 < busy.cfg.n) ∧
    { busy with cu := .flushPush 0 .green }.cu = .flushPush 0 .green ∧
    { busy with cu := .flushPush 3 .red }.cu = .flushPush 3 .red ∧
    { busy with txq := [1, 2] }.cfg.qDepth ≤ { busy with txq := [1, 2] }.txq.length := by decide
theorem witness_FlushEndsWithOneLatch :
    let s := { shortRun with eng := .streaming, cu := .flushLatch, idleCnt := 2 }
    (s.cu = .flushLatch ∧ s.txq = [] ∧ s.ser.phase = .idle ∧ s.cfg.tLatch ≤ s.idleCnt) ∧
    ¬ ({ s with idleCnt := 1 }.txq = [] ∧ { s with idleCnt := 1 }.ser.phase = .idle ∧
      { s with idleCnt := 1 }.cfg.tLatch ≤ { s with idleCnt := 1 }.idleCnt) := by decide
theorem witness_FlushSendsTheWholeBuffer :
    let s := offering full 0x1200000000000000
    Inv s ∧ noReset s ∧ acceptsCommand s .flush ∧ s.eng = .initialized :=
  ⟨inv_flushOffered, by decide, by decide, rfl⟩
theorem witness_FlushTakesItsExactTime :
    let s := offering shortRun 0x1200000000000000
    Inv s ∧ noReset s ∧ acceptsCommand s .flush ∧ s.eng = .initialized ∧ s.txq = [] ∧ s.ser.phase = .idle ∧
    11 < 3 * s.cfg.n := ⟨inv_flushFromIdle, by decide, by decide, rfl, rfl, rfl, by decide⟩
theorem witness_MapComputesTheSerpentineIndex :
    running.cfg.side ≤ 255 ∧ running.eng = .initialized ∧ fresh.eng = .uninitialized ∧
    (4 < running.cfg.side ∧ 0 < running.cfg.side) ∧ running.cfg.side ≤ 5 ∧ failed.eng = .failed := by decide
theorem witness_SerpentineIsABijection : 1 ≤ 5 ∧ 4 < 5 ∧ 24 < 5 * 5 ∧ 5 % 2 = 1 ∧ 4 % 2 = 0 := by decide
theorem witness_StatusFollowsThePriority :
    (let s := offering failed 0x0100070001000000
     s.cfg.Wf ∧ s.inp.rst = false ∧ accepts s ∧ decode s.inp.cmdWord = .error .nonZeroField) ∧
    failed.eng = .failed ∧ fresh.eng = .uninitialized ∧ running.eng = .initialized ∧ 99 ∉ fresh.cfg.validPins ∧
    running.cfg.n ≤ 25 ∧ running.cfg.side ≤ 5 ∧
    (7 ∈ fresh.cfg.validPins ∧ noneFree (pool fresh 0 0) .primary ∧ noneFree (pool fresh 0 0) .secondary) := by decide
theorem witness_StatusFollowsThePriority_streaming : Inv busy ∧ busy.eng = .streaming := ⟨inv_busy, rfl⟩
theorem witness_ErrorsHaveNoEffect :
    exec (.map 5 5) running = .next (did (.map 5 5) running) ∧ (did (.map 5 5) running).rspValid = true ∧
    (did (.map 5 5) running).rspWord.extractLsb' 24 8 = 0x02 ∧
    (did (.init 7) (pool fresh 0 0)).rspWord.extractLsb' 24 8 = 0x01 := ⟨rfl, by decide, by decide, by decide⟩
theorem witness_FailedIsLeftOnlyByReset :
    Inv failed ∧ failed.eng = .failed ∧ failed.inp.rst = false ∧ step failed = .next (nextOr failed (step failed)) :=
  ⟨inv_failed, rfl, rfl, rfl⟩
theorem witness_FailedIsLeftOnlyByReset_entered :
    let s := pool (offering fresh 0x0100070000000000) 0 0
    Inv s ∧ s.eng ≠ .failed ∧ step s = .next (nextOr s (step s)) ∧ (nextOr s (step s)).eng = .failed :=
  ⟨inv_exhausted, by decide, rfl, by decide⟩
theorem witness_ResponsesCarryTheirData :
    exec (.map 0 0) running = .next (did (.map 0 0) running) ∧ (did (.map 0 0) running).rspValid = true ∧
    (did (.map 0 0) running).rspWord.extractLsb' 24 8 = 0 ∧ (did (.map 0 0) running).rspWord.extractLsb' 0 24 ≠ 0 :=
  ⟨rfl, by decide, by decide, by decide⟩
theorem witness_ResponseIsAOneCyclePulse :
    let s := offering running 0x1100000000000000
    let t := nextOr s (step s)
    s.inp.rst = false ∧ step s = .next t ∧ t.rspValid = true ∧ t.cu = .ready ∧ accepts s ∧
    (nextOr running (step running)).rspValid = false := ⟨rfl, rfl, by decide, by decide, by decide, by decide⟩
theorem witness_ResponseIsAOneCyclePulse_claim :
    let s := offering fresh 0x0100070000000000
    s.inp.rst = false ∧ step s = .next (nextOr s (step s)) ∧ (nextOr s (step s)).claimPulse = true ∧
    (nextOr s (step s)).eng = .initialized := ⟨rfl, rfl, by decide, by decide⟩
theorem witness_OneEdgeCommandsRespondAtOnce :
    exec (.read 0) running = .next (did (.read 0) running) ∧ exec .flush failed = .next (did .flush failed) ∧
    running.eng ≠ .streaming ∧ failed.eng ≠ .streaming ∧ failed.eng = .failed ∧
    exec .latch fresh = .next (did .latch fresh) ∧ fresh.eng = .uninitialized :=
  ⟨rfl, rfl, by decide, by decide, rfl, rfl, rfl⟩
theorem witness_OnlyInitWritesTheHandle :
    exec .flush running = .next (did .flush running) ∧ (did .flush running).eng ≠ running.eng ∧
    continueCommand busy = .next (nextOr busy (continueCommand busy)) ∧
    exec (.init 7) fresh = .next (did (.init 7) fresh) := ⟨rfl, by decide, rfl, rfl⟩
theorem witness_HandleIsKeptUntilReset :
    Inv busy ∧ busy.claimInst ≠ none ∧ busy.inp.rst = false ∧ step busy = .next (nextOr busy (step busy)) :=
  ⟨inv_busy, by decide, rfl, rfl⟩
theorem witness_OnlyTheseCommandsReachTheBuffer :
    let s := offering running 0x1000030000123456
    step s = .next (nextOr s (step s)) ∧ (nextOr s (step s)).buf ≠ s.buf ∧
    exec (.emit 1) running = .next (did (.emit 1) running) := ⟨rfl, by decide, rfl⟩
theorem witness_EngineStateMovesAsListed :
    let s := { shortRun with eng := .streaming, cu := .flushLatch, idleCnt := 2 }
    Inv s ∧ s.inp.rst = false ∧ step s = .next (nextOr s (step s)) ∧ (nextOr s (step s)).eng ≠ s.eng :=
  ⟨inv_flushEnding, rfl, rfl, by decide⟩
theorem witness_TraceOnlyGrows : step sending = .next (nextOr sending (step sending)) := rfl
theorem witness_BusyBlockIgnoresItsPorts :
    busy.cu ≠ .ready ∧ { busy.inp with cmdValid := true }.rst = busy.inp.rst ∧
    step busy = .next (nextOr busy (step busy)) := ⟨by decide, rfl, rfl⟩
theorem witness_SerializerIdlePhase :
    full.inp.rst = false ∧ full.eng.active = true ∧ full.ser.phase = .idle ∧ full.txq = 1 :: [2] ∧
    step full = .next (nextOr full (step full)) ∧
    (shortRun.txq = [] ∧ step shortRun = .next (nextOr shortRun (step shortRun))) := ⟨rfl, rfl, rfl, rfl, rfl, rfl, rfl⟩
theorem witness_SerializerHighPhase :
    Inv sending ∧ noReset sending ∧ sending.eng.active = true ∧ sending.ser.phase = .high ∧ 1 < sending.ser.cnt ∧
    { sending with ser := ⟨.high, 1, 0x40, 8, true⟩ }.ser.cnt ≤ 1 ∧ step sending = .next (nextOr sending (step sending)) :=
  ⟨inv_sending, by decide, rfl, rfl, by decide, by decide, rfl⟩
theorem witness_SerializerLowPhase :
    let s := { sending with ser := ⟨.low, 1, 0, 1, true⟩ }
    Inv s ∧ noReset s ∧ s.eng.active = true ∧ s.ser.phase = .low ∧ s.ser.cnt ≤ 1 ∧ s.ser.bits ≤ 1 ∧ s.txq = 5 :: [] ∧
    step s = .next (nextOr s (step s)) := ⟨inv_low, by decide, rfl, rfl, by decide, by decide, rfl, rfl⟩
theorem witness_IdleCounterFollowsItsRule :
    (shortRun.ser.phase = .idle ∧ shortRun.txq = []) ∧ byteStarts full ∧
    (sending.ser.phase ≠ .idle ∧ ¬ byteStarts sending) ∧ step full = .next (nextOr full (step full)) :=
  ⟨by decide, by decide, by decide, rfl⟩
theorem witness_SerializerRestsOutsideRunning :
    Inv failed ∧ failed.inp.rst = false ∧ failed.eng.active = false ∧ step failed = .next (nextOr failed (step failed)) :=
  ⟨inv_failed, rfl, rfl, rfl⟩
theorem witness_QueuePopsThenPushes :
    busy.inp.rst = false ∧ busy.eng.active = true ∧ step busy = .next (nextOr busy (step busy)) := ⟨rfl, rfl, rfl⟩
theorem witness_BytesGoOutInPushOrder :
    let s := offering shortRun 0x1200000000000000
    Inv s ∧ s.inp.rst = false ∧ step s = .next (nextOr s (step s)) ∧ bytesTakenOn s ≠ [] :=
  ⟨inv_flushFromIdle, rfl, rfl, by decide⟩
theorem witness_ByteDrivesItsWaveform :
    let s := { sending with ser := ⟨.low, 1, 0, 1, true⟩ }
    Inv s ∧ noReset s ∧ s.eng.active = true ∧ byteStarts s ∧ s.txq = 5 :: [] := ⟨inv_low, by decide, rfl, by decide, rfl⟩
theorem witness_WaveformDecodesToItsBytes : short.Wf := by decide
/-- The line after `k` edges. -/
def lineAfter (k : Nat) (s : State) : Option Bool :=
  match runSteps k s with
  | .next t => some (line t)
  | .fault _ => none
  | .refused _ => none

theorem lineAfter_some {k : Nat} {s : State} {b : Bool} (h : lineAfter k s = some b) :
    ∃ t, runSteps k s = .next t ∧ some b = some (line t) := by
  unfold lineAfter at h
  cases hr : runSteps k s with
  | next t => simp only [hr] at h; exact ⟨t, rfl, h.symm⟩
  | fault r => simp [hr] at h
  | refused r => simp [hr] at h

/-- At the end of a byte, with the byte 5 queued. -/
def byteEnds : State := { sending with ser := ⟨.low, 1, 0, 1, true⟩ }

theorem byteEnds_lines : ∀ j < 24, lineAfter (1 + j) byteEnds = some ((byteWave short 5).getD j false) := by decide

theorem witness_DrivenLineDecodesToTheByte :
    (Inv byteEnds ∧ noReset byteEnds ∧ byteEnds.eng.active = true ∧ byteStarts byteEnds ∧ byteEnds.txq = 5 :: []) ∧
    (byteWave short 5).length = 8 * byteEnds.cfg.tBit ∧
    ∀ j < 8 * byteEnds.cfg.tBit, ∃ t, runSteps (1 + j) byteEnds = .next t ∧ (byteWave short 5)[j]? = some (line t) := by
  refine ⟨⟨inv_low, by decide, rfl, by decide, rfl⟩, by decide, fun j hj => ?_⟩
  have hlen : (byteWave short 5).length = 24 := by decide
  have hj' : j < 24 := hj
  obtain ⟨t, ht, hl⟩ := lineAfter_some (byteEnds_lines j hj')
  refine ⟨t, ht, ?_⟩
  rw [List.getD_eq_getElem?_getD] at hl
  rw [List.getElem?_eq_getElem (by omega)] at hl ⊢
  exact hl

theorem witness_OutputsFollowTheState :
    Inv running ∧ lineOe running = true ∧ lineOe failed = false ∧ running.claimInst = some .primary ∧
    running.claimUnit = some 0 ∧ fresh.claimInst = none ∧ fresh.claimUnit = none :=
  ⟨inv_running, by decide, by decide, rfl, rfl, rfl, rfl⟩
theorem test_assemble_hex : assembleLine " SET 3, 0x12,0xaF , 255 ; x, y".toList = some (.set 3 0x12 0xAF 0xFF) := by decide

/-- `65535`, `0` after a blank, `0xfF` and `65536`, written out as their digits. -/
theorem writes_65535 : operandText 65535 ['6', '5', '5', '3', '5'] :=
  ⟨[], _, [], blanks_nil, blanks_nil, .inl ⟨[6, 5, 5, 3, 5], by decide, by decide, rfl, rfl⟩, rfl⟩
theorem writes_0 : operandText 0 [' ', '0'] :=
  ⟨[' '], ['0'], [], blanks_space, blanks_nil, .inl ⟨[0], by decide, by decide, rfl, rfl⟩, rfl⟩
theorem writes_0xfF : operandText 255 ['0', 'x', 'f', 'F'] :=
  ⟨[], _, [], blanks_nil, blanks_nil, .inr ⟨[15, 15], ['f', 'F'], by decide, by decide, rfl, rfl,
    .cons (.inl rfl) (.cons (.inr rfl) .nil)⟩, rfl⟩
theorem writes_256 : operandText 256 ['2', '5', '6'] :=
  ⟨[], _, [], blanks_nil, blanks_nil, .inl ⟨[2, 5, 6], by decide, by decide, rfl, rfl⟩, rfl⟩
theorem writes_65536 : operandText 65536 [' ', '6', '5', '5', '3', '6'] :=
  ⟨[' '], ['6', '5', '5', '3', '6'], [], blanks_space, blanks_nil,
    .inl ⟨[6, 5, 5, 3, 6], by decide, by decide, rfl, rfl⟩, rfl⟩

theorem witness_AssemblerRejects_map :
    (Instr.map 65535 0).Wf ∧
    List.Forall₂ operandText (textOperands (.map 65535 0)) [['6', '5', '5', '3', '5'], [' ', '0']] ∧
    commandLine (mnemonicText (.map 65535 0)) [['6', '5', '5', '3', '5'], [' ', '0']] "MAP 65535, 0;c".toList :=
  ⟨by decide, .cons writes_65535 (.cons writes_0 .nil),
    [], [' ', '6', '5', '5', '3', '5', ',', ' ', '0'], [';', 'c'], rfl, blanks_nil, .inr ⟨_, rfl⟩, by decide,
    .inr ⟨by decide, ' ', rfl, rfl⟩⟩
theorem witness_AssemblerRejects_emit :
    List.Forall₂ operandText (textOperands (.emit 0xFF)) [['0', 'x', 'f', 'F']] ∧
    commandLine (mnemonicText (.emit 0xFF)) [['0', 'x', 'f', 'F']] "EMIT 0xfF".toList :=
  ⟨.cons writes_0xfF .nil, [], [' ', '0', 'x', 'f', 'F'], [], rfl, blanks_nil, .inl rfl, by decide,
    .inr ⟨by decide, ' ', rfl, rfl⟩⟩
theorem witness_AssemblerRejects_latch :
    List.Forall₂ operandText (textOperands .latch) [] ∧ commandLine (mnemonicText .latch) [] "LATCH ".toList :=
  ⟨.nil, [], [' '], [], rfl, blanks_nil, .inl rfl, by simp, .inl ⟨rfl, blanks_space⟩⟩
theorem witness_AssemblerRejects_outOfRangeByte :
    commandLine (mnemonicText (.emit 0)) [['2', '5', '6']] "EMIT 256".toList ∧ [['2', '5', '6']][0]? = some ['2', '5', '6'] ∧
    operandText 256 ['2', '5', '6'] ∧ fieldLimit (.emit 0) 0 ≤ 256 :=
  ⟨⟨[], [' ', '2', '5', '6'], [], rfl, blanks_nil, .inl rfl, by decide, .inr ⟨by decide, ' ', rfl, rfl⟩⟩, rfl, writes_256,
    by decide⟩
theorem witness_AssemblerRejects_outOfRangeColumn :
    let ops := [['6', '5', '5', '3', '5'], [' ', '6', '5', '5', '3', '6']]
    commandLine (mnemonicText (.map 0 0)) ops "MAP 65535, 65536".toList ∧
    ops[1]? = some [' ', '6', '5', '5', '3', '6'] ∧ operandText 65536 [' ', '6', '5', '5', '3', '6'] ∧
    fieldLimit (.map 0 0) 1 ≤ 65536 :=
  ⟨⟨[], [' ', '6', '5', '5', '3', '5', ',', ' ', '6', '5', '5', '3', '6'], [], rfl, blanks_nil, .inl rfl, by decide,
    .inr ⟨by decide, ' ', rfl, rfl⟩⟩, rfl, writes_65536, by decide⟩
theorem witness_AssemblerRejects_yields : assembleLine "MAP 65535, 0".toList = some (.map 65535 0) := by decide

end Sys2Proof.Tests
end

/-! The step and its environment (00_scope.md R7, R10; 40_engine.md R78, R189): an accepted word runs the decoded command,
a configuration is refused exactly where it is not well-formed, and the ports follow the plan. -/

namespace Sys2Proof.Machine

section Edge
variable {s t : State}

/-- An accepted word that decodes is run by `exec` (R78). -/
theorem commandUnit_of_decode {i : Instr} (hacc : accepts s) (hdec : decode s.inp.cmdWord = .ok i) :
    commandUnit s = exec i s := by
  simp only [commandUnit, acceptedWord_of_accepts hacc, hdec]

/-! No part of an edge is refused: every command has its meaning. -/

theorem flushPush_ne_refused (i : Nat) (ch : Chan) (s : State) (r : Refusal) : flushPush i ch s ≠ .refused r := by
  unfold flushPush
  repeat' split
  all_goals simp

theorem exec_ne_refused (i : Instr) (s : State) (r : Refusal) : exec i s ≠ .refused r := by
  cases i with
  | flush => simp only [exec, execFlush]; split <;> simp [flushPush_ne_refused]
  | emit | latch | clear => simp only [exec, execEmit, execLatch, execClear]; split <;> simp
  | init | set | read | map =>
    simp only [exec, execInit, execSet, execRead, execMap]
    repeat' split
    all_goals simp

theorem continueCommand_ne_refused (s : State) (r : Refusal) : continueCommand s ≠ .refused r := by
  unfold continueCommand
  split <;> simp [flushPush_ne_refused]

theorem commandUnit_ne_refused (s : State) (r : Refusal) : commandUnit s ≠ .refused r := by
  unfold commandUnit
  split
  · exact continueCommand_ne_refused s r
  · split
    · exact exec_ne_refused _ s r
    · simp [execIllegal]

/-- A well-formed configuration is never refused (R7). -/
theorem step_ne_refused (hcfg : s.cfg.Wf) (r : Refusal) : step s ≠ .refused r := by
  cases hr : s.inp.rst with
  | true => simp [step_of_reset hcfg hr]
  | false =>
    rw [step_of_noReset hcfg hr]
    cases ho : commandUnit s with
    | next t => simp
    | fault e => simp [closeWith]
    | refused e => exact absurd ho (commandUnit_ne_refused s e)

/-! The ports of the next cycle. -/

/-- Every edge, a reset edge too, takes the next ports and the rest of the plan from `nextInputs`. -/
theorem step_ports (h : step s = .next t) : t.inp = (nextInputs s).1 ∧ t.script = (nextInputs s).2 := by
  rcases (step_cases h).2 with ⟨-, rfl⟩ | ⟨-, u, -, rfl⟩ <;> simp

/-- A word stays pending exactly where it is offered, not accepted, and the edge is no reset. -/
theorem wordHeld_iff : wordHeld s ↔ s.inp.rst = false ∧ s.inp.cmdValid = true ∧ ¬ accepts s := by
  constructor
  · rintro ⟨hr, hv, hcu⟩
    exact ⟨hr, hv, fun hacc => hcu hacc.2⟩
  · rintro ⟨hr, hv, hacc⟩
    exact ⟨hr, hv, fun hcu => hacc ⟨hv, hcu⟩⟩

theorem nextInputs_planned {x : PlannedCycle} {rest : List PlannedCycle} (hs : s.script = x :: rest)
    (hx : ¬ (wordHeld s ∧ x.waits = true)) : nextInputs s = (x.ports, rest) := by
  simp only [nextInputs, hs, if_neg hx]

theorem nextInputs_waiting {x : PlannedCycle} {rest : List PlannedCycle} (hs : s.script = x :: rest)
    (hx : wordHeld s ∧ x.waits = true) : nextInputs s = (s.inp, s.script) := by
  simp only [nextInputs, hs, if_pos hx]

theorem nextInputs_planEnd_held (hs : s.script = []) (hw : wordHeld s) : nextInputs s = (s.inp, []) := by
  simp only [nextInputs, hs, if_pos hw]

theorem nextInputs_planEnd_quiet (hs : s.script = []) (hw : ¬ wordHeld s) : nextInputs s = (s.inp.quiet, []) := by
  simp only [nextInputs, hs, if_neg hw]

end Edge

/-- Settles O5: the edge is no reset and the word is accepted, so the command unit's part is `exec i`. -/
theorem stepRunsTheDecodedCommand : Obligations.StepRunsTheDecodedCommand := by
  intro s i hcfg hr hv hcu hdec
  rw [step_of_noReset hcfg hr, commandUnit_of_decode ⟨hv, hcu⟩ hdec]

/-- Settles O8: `step` tests the configuration first, and no meaning is a refusal. -/
theorem illFormedConfigurationIsRefused : Obligations.IllFormedConfigurationIsRefused := by
  intro s
  constructor
  · intro hbad
    refine if_neg fun hcfg => hbad ?_
    obtain ⟨⟨hs1, hs2⟩, ⟨hu, -⟩, hq, ⟨h0h, h0l, h1h, h1l⟩, ⟨hb0, hb1⟩, hlt, hl, -⟩ := hcfg
    exact ⟨hs1, hs2, rfl, hu, hq, h0h, h0l, h1h, h1l, hb0, hb1, hlt, hl⟩
  · rintro ⟨hs1, hs2, hu1, hu2, hq, h0h, h0l, h1h, h1l, hb0, hb1, hlt, hl, hpins⟩
    exact step_ne_refused
      ⟨⟨hs1, hs2⟩, ⟨hu1, hu2⟩, hq, ⟨h0h, h0l, h1h, h1l⟩, ⟨hb0, hb1⟩, hlt, hl, hpins⟩

/-- Settles O9: the four outcomes of `nextInputs`, by whether a planned cycle is left and whether a word is held. -/
theorem portsFollowTheEnvironmentsPlan : Obligations.PortsFollowTheEnvironmentsPlan := by
  intro s t hst
  obtain ⟨hinp, hscript⟩ := step_ports hst
  rw [hinp, hscript]
  refine ⟨fun ports rest hs => ?_, fun ports rest hs hfree => ?_, fun ports rest hs hr hv hacc => ?_, fun hs => ?_⟩
  · simp [nextInputs_planned hs]
  · have hw : ¬ wordHeld s := by
      rw [wordHeld_iff]
      rintro ⟨hr, hv, hacc⟩
      rcases hfree with hr' | hv' | hacc'
      · simp [hr] at hr'
      · simp [hv] at hv'
      · exact hacc hacc'
    rw [nextInputs_planned hs fun hx => hw hx.1]
    exact ⟨rfl, rfl⟩
  · rw [nextInputs_waiting hs ⟨wordHeld_iff.mpr ⟨hr, hv, hacc⟩, rfl⟩]
    exact ⟨rfl, rfl⟩
  · rw [← wordHeld_iff]
    by_cases hw : wordHeld s
    · rw [nextInputs_planEnd_held hs hw]
      exact ⟨rfl, hw.1, iff_of_true hw.2.1 hw, fun _ => rfl⟩
    · rw [nextInputs_planEnd_quiet hs hw]
      simp [Inputs.quiet, hw]

end Sys2Proof.Machine

/-! The invariant of every run is kept by every edge (00_scope.md R7; 10_state.md R28 to R32; 41_serializer.md R59, R60). A
part of `Inv` that only the command unit writes is a lemma about `UnitEffect`; the serializer's parts are lemmas about
`serializerEdge`; `inv_closeEdge` puts them together. -/

namespace Sys2Proof.Machine

/-! The serializer's part of an edge. -/

section SerializerPart
variable {s t : State}

theorem serializerOk_rest (h : s.ser = Serializer.rest) : serializerOk s := by
  simp [serializerOk, h, Serializer.rest]

/-- A bit cell begins within its ranges when the bits left fit: none of them is lost (R30, R56, R58). -/
theorem serializerOk_bitCell {v : Byte} {k : Nat} (hcfg : s.cfg.Wf) (h : s.ser = bitCell s.cfg v k) (hk : 1 ≤ k ∧ k ≤ 8)
    (hv : v <<< k = 0) : serializerOk s := by
  have hsh : (v <<< 1) <<< (k - 1) = 0 := by
    rw [← BitVec.shiftLeft_add, Nat.add_sub_cancel' hk.1]
    exact hv
  simp only [serializerOk, h]
  refine ⟨?_, fun _ => Nat.le_refl _, ?_, fun _ => ⟨highTime_pos hcfg _, hk.1, hk.2, hsh⟩⟩ <;> simp

theorem serializerOk_startByte {v : Byte} (hcfg : s.cfg.Wf) (h : s.ser = bitCell s.cfg v 8) : serializerOk s :=
  serializerOk_bitCell hcfg h (by decide) (BitVec.shiftLeft_eq_zero (Nat.le_refl 8))

/-- Within a bit cell only the phase and its count move, so the bits not yet started stay as they are (R57, R58). -/
theorem serializerOk_sameBit {ph : Phase} {c : Nat} (h : serializerOk s) (hp : s.ser.phase ≠ .idle) (htc : t.cfg = s.cfg)
    (hts : t.ser = { s.ser with phase := ph, cnt := c }) (hph : ph ≠ .idle) (hpos : 1 ≤ c)
    (hhigh : ph = .high → c ≤ highTime s.cfg s.ser.cur) (hlow : ph = .low → c ≤ lowTime s.cfg s.ser.cur) :
    serializerOk t := by
  obtain ⟨-, -, -, hbusy⟩ := h
  obtain ⟨-, hbits⟩ := hbusy hp
  rw [serializerOk, htc, hts]
  exact ⟨fun he => absurd he hph, hhigh, hlow, fun _ => ⟨hpos, hbits⟩⟩

/-- The serializer's step keeps its counters in their ranges (R30, R56 to R58). -/
theorem serializerOk_of_serializerEdge (hcfg : s.cfg.Wf) (h : serializerOk s) (htc : t.cfg = s.cfg)
    (hts : t.ser = (serializerEdge s).ser) : serializerOk t := by
  obtain ⟨hidle, hhigh, hlow, hbusy⟩ := id h
  rcases serializerEdge_cases s with ⟨v, q, -, he, -⟩ | ⟨-, hp, he⟩ | ⟨hp, hc, he⟩ | ⟨hp, -, he⟩ | ⟨hp, hc, he⟩ |
    ⟨hp, -, hb, he⟩ | ⟨-, -, -, -, he⟩ <;> rw [he] at hts
  · exact serializerOk_startByte (htc ▸ hcfg) (htc ▸ hts)
  · exact serializerOk_rest (hts.trans (hidle hp))
  · have hcnt := hhigh hp
    exact serializerOk_sameBit h (by simp [hp]) htc hts (by simp [hp]) (by omega) (fun _ => by omega) (by simp [hp])
  · exact serializerOk_sameBit h (by simp [hp]) htc hts (by simp) (lowTime_pos hcfg _) (by simp) (fun _ => Nat.le_refl _)
  · have hcnt := hlow hp
    exact serializerOk_sameBit h (by simp [hp]) htc hts (by simp [hp]) (by omega) (by simp [hp]) (fun _ => by omega)
  · obtain ⟨-, -, hb8, hsh⟩ := hbusy (by simp [hp])
    exact serializerOk_bitCell (htc ▸ hcfg) (htc ▸ hts) (by omega) hsh
  · exact serializerOk_rest hts

/-- The serializer's step keeps the idle counter in [0, T_LATCH], and at 0 outside IDLE (R31, R59). -/
theorem idleCounterOk_of_serializerEdge (h : idleCounterOk s) (htc : t.cfg = s.cfg)
    (hts : t.ser = (serializerEdge s).ser) (hti : t.idleCnt = (serializerEdge s).idleCnt) : idleCounterOk t := by
  obtain ⟨hle, hzero⟩ := h
  rw [idleCounterOk, htc, hts, hti]
  rcases serializerEdge_cases s with ⟨v, q, -, he, -⟩ | ⟨-, hp, he⟩ | ⟨hp, -, he⟩ | ⟨hp, -, he⟩ | ⟨hp, -, he⟩ |
    ⟨hp, -, -, he⟩ | ⟨-, hp, -, -, he⟩ <;> rw [he]
  case inr.inl => exact ⟨Nat.min_le_right _ _, fun hne => absurd hp hne⟩
  case inl => exact ⟨Nat.zero_le _, fun _ => rfl⟩
  all_goals exact ⟨hle, fun _ => hzero (by simp [hp])⟩

theorem length_queueAfter_le (o : Option Byte) (q : List Byte) : (queueAfter o q).length ≤ q.length := by
  cases o <;> simp

end SerializerPart

/-! The command unit's part of an edge. -/

section UnitPart
variable {s u : State}

/-- Outside INITIALIZED and STREAMING no command is in progress (R24, R32). -/
theorem ready_of_inactive (h : commandUnitOk s = true) (ha : s.eng.active = false) : s.cu = .ready := by
  have hinit : s.eng ≠ .initialized := by intro he; simp [he, Eng.active] at ha
  have hstream : s.eng ≠ .streaming := by intro he; simp [he, Eng.active] at ha
  cases hcu : s.cu with
  | ready => rfl
  | _ => simp [commandUnitOk, hcu, hinit, hstream] at h

/-- Outside INITIALIZED and STREAMING the command unit starts the engine by INIT's claim, or leaves it at rest (R150). -/
theorem UnitEffect.inactive_cases (hu : UnitEffect s u) (h : Inv s) (ha : s.eng.active = false) :
    (∃ p n pin, n < s.cfg.units ∧ pin ∈ s.cfg.validPins ∧ u = claimed p n pin s) ∨
    (u.eng.active = false ∧ nothingHeld u) := by
  have hrest : nothingHeld s := h.handle.2 ha
  have hcu := ready_of_inactive h.commandUnit ha
  cases hu with
  | accepted i t hacc hdec heff =>
    cases heff with
    | claims pin p n heng hpin hclaim himem => exact .inl ⟨p, n, pin, claim_unit_lt hclaim, hpin, rfl⟩
    | rejects | maps => exact .inr ⟨ha, hrest⟩
    | exhausts => exact .inr ⟨rfl, hrest⟩
    | _ => simp_all [Eng.active]
  | illegal e hacc hdec => exact .inr ⟨ha, hrest⟩
  | goesOn t hacc heff =>
    cases heff with
    | stays => exact .inr ⟨ha, hrest⟩
    | _ => simp_all

/-- A running engine keeps its handle (R25 to R27). -/
theorem UnitEffect.handleHeld_keeps (hu : UnitEffect s u) (ha : s.eng.active = true) (h : handleHeld s) : handleHeld u := by
  cases hu with
  | accepted i t hacc hdec heff =>
    cases heff with
    | claims pin p n heng => simp [heng, Eng.active] at ha
    | _ => exact h
  | illegal e hacc hdec => exact h
  | goesOn t hacc heff => cases heff <;> exact h

theorem commandUnitOk_respond {st : Status} {data : RspData} (h : s.eng ≠ .streaming) :
    commandUnitOk (respond st data s) = true := by
  simp [commandUnitOk, h]

theorem commandUnitOk_goOn {c : CmdUnit} (hcu : s.cu = c) (h : commandUnitOk s = true) : commandUnitOk (goOn c s) = true := by
  subst hcu
  exact h

/-- The FLUSH loop moves on to a pixel that exists, or to the latch test (R120). -/
theorem commandUnitOk_afterPush {i : Nat} {ch : Chan} (hcu : u.cu = afterPush u.cfg.n i ch) (heng : u.eng = .streaming)
    (hi : i < u.cfg.n) : commandUnitOk u = true := by
  cases ch with
  | green | red => simp [commandUnitOk, hcu, afterPush, nextPush, heng, hi]
  | blue => by_cases hn : i + 1 < u.cfg.n <;> simp [commandUnitOk, hcu, afterPush, nextPush, heng, hn]

/-- The command unit's next state agrees with the engine state (R24, R32, R120). -/
theorem UnitEffect.commandUnit_keeps (hu : UnitEffect s u) (hcfg : s.cfg.Wf) (h : commandUnitOk s = true) :
    commandUnitOk u = true := by
  obtain ⟨⟨hside, -⟩, -⟩ := hcfg
  have hn : 0 < s.cfg.n := Nat.mul_pos hside hside
  cases hu with
  | accepted i t hacc hdec heff =>
    have hne : s.eng ≠ .streaming := by simpa [commandUnitOk, hacc.2] using h
    cases heff with
    | exhausts | claims => rfl
    | emitWaits v heng | latchWaits heng => simp [commandUnitOk, heng]
    | flushPushes | flushWaits => simpa [commandUnitOk] using hn
    | _ => exact commandUnitOk_respond hne
  | illegal e hacc hdec =>
    have hne : s.eng ≠ .streaming := by simpa [commandUnitOk, hacc.2] using h
    exact commandUnitOk_respond hne
  | goesOn t hacc heff =>
    cases heff with
    | flushEnds => rfl
    | pushes i ch hcu hspace hi =>
      have heng : s.eng = .streaming := by simp_all [commandUnitOk]
      exact commandUnitOk_afterPush rfl heng hi
    | emits v hcu | latches hcu => exact commandUnitOk_respond (by simp_all [commandUnitOk])
    | stays hcu | emitWaits _ hcu | latchWaits hcu | pushWaits _ _ hcu | flushWaits hcu => exact commandUnitOk_goOn hcu h

theorem responseOk_respond {st : Status} {data : RspData} (h : st ≠ .ok → data = 0) : responseOk (respond st data s) := by
  refine ⟨fun _ => rfl, ?_, ?_, by simp⟩
  · simpa using statusCode_le st
  · rw [respond_rspWord, responseWord_status, responseWord_data, ne_eq, statusCode_eq_zero]
    exact h

theorem responseOk_goOn {c : CmdUnit} (h : responseOk s) (hw : u.rspWord = s.rspWord) : responseOk (goOn c u) := by
  obtain ⟨-, hst, hdata, -⟩ := h
  rw [← hw] at hst hdata
  exact ⟨by simp, hst, hdata, by simp⟩

theorem responseOk_claimed (p : Periph) (n pin : Nat) : responseOk (claimed p n pin s) := by
  refine ⟨fun _ => rfl, ?_, ?_, fun _ => ⟨rfl, rfl⟩⟩ <;> simp [statusCode]

/-- The response register stays consistent (R33, R36, R93, R94). -/
theorem UnitEffect.response_keeps (hu : UnitEffect s u) (h : responseOk s) : responseOk u := by
  cases hu with
  | accepted i t hacc hdec heff =>
    cases heff with
    | rejects | exhausts => exact responseOk_respond fun _ => rfl
    | claims => exact responseOk_claimed _ _ _
    | emitWaits | latchWaits | flushPushes | flushWaits => exact responseOk_goOn h rfl
    | _ => exact responseOk_respond fun hne => absurd rfl hne
  | illegal e hacc hdec => exact responseOk_respond fun _ => rfl
  | goesOn t hacc heff =>
    cases heff with
    | emits | latches | flushEnds => exact responseOk_respond fun hne => absurd rfl hne
    | _ => exact responseOk_goOn h rfl

end UnitPart

/-! The whole edge. -/

/-- The reset state of R39 meets the invariant in every well-formed configuration. -/
theorem inv_resetWith {cfg : Config} (hcfg : cfg.Wf) (trace : List Event) (inp : Inputs) (script : List PlannedCycle) :
    Inv (State.resetWith cfg trace inp script) where
  cfg := hcfg
  buffer := ⟨Memory.wf_nil, fun _ hc => absurd hc List.not_mem_nil⟩
  queue := Nat.zero_le _
  serializer := serializerOk_rest rfl
  idleCounter := ⟨Nat.zero_le _, fun _ => rfl⟩
  commandUnit := rfl
  handle := ⟨fun hon => Bool.noConfusion hon, fun _ => ⟨rfl, rfl, rfl, rfl, rfl, rfl, rfl, rfl⟩⟩
  response := by simp [responseOk, State.resetWith]

section Edge
variable {s u : State}

/-- While the engine runs, the queue is popped before it is pushed and a push had space, so it never overflows (R60). -/
theorem queueOk_closeEdge_running (h : queueOk s) (hu : UnitEffect s u) (ha : s.eng.active = true) :
    queueOk (closeEdge s u) := by
  have hpop := length_queueAfter_le (serializerEdge s).started s.txq
  rw [queueOk, closeEdge_cfg, hu.cfg_eq, closeEdge_txq, withSerializer_txq ha]
  rcases hu.txq_cases ha with hq | ⟨v, hspace, hq⟩
  · simpa [hq] using Nat.le_trans hpop h
  · simp only [hq, appended_append, List.length_append, List.length_singleton]
    omega

/-- An edge of a running engine keeps the queue, the serializer and the idle counter in their ranges, and the handle (R25 to
R31, R59, R60). -/
theorem running_closeEdge (h : Inv s) (hu : UnitEffect s u) (ha : s.eng.active = true) :
    queueOk (closeEdge s u) ∧ serializerOk (closeEdge s u) ∧ idleCounterOk (closeEdge s u) ∧ handleOk (closeEdge s u) := by
  have hcfg : (closeEdge s u).cfg = s.cfg := by rw [closeEdge_cfg, hu.cfg_eq]
  have hser : (closeEdge s u).ser = (serializerEdge s).ser := withSerializer_ser ha
  have hidle : (closeEdge s u).idleCnt = (serializerEdge s).idleCnt := withSerializer_idleCnt ha
  have hheld : handleHeld u := hu.handleHeld_keeps ha (h.handle.1 ha)
  refine ⟨queueOk_closeEdge_running h.queue hu ha, serializerOk_of_serializerEdge h.cfg h.serializer hcfg hser,
    idleCounterOk_of_serializerEdge h.idleCounter hcfg hser hidle, fun _ => ?_, fun hoff => ?_⟩
  · simpa [handleHeld] using hheld
  · simp [hu.active_keeps ha] at hoff

/-- Where the serializer does not step, closing an edge changes the ports alone (R55). -/
theorem closeEdge_inactive (ha : s.eng.active = false) :
    closeEdge s u = { u with inp := (nextInputs s).1, script := (nextInputs s).2 } := by
  rw [closeEdge, withSerializer_inactive ha]

/-- Outside INITIALIZED and STREAMING an edge leaves the queue, the serializer and the idle counter at rest, and the handle
empty or just claimed (R55, R82, R150). -/
theorem inactive_closeEdge (h : Inv s) (hu : UnitEffect s u) (ha : s.eng.active = false) :
    queueOk (closeEdge s u) ∧ serializerOk (closeEdge s u) ∧ idleCounterOk (closeEdge s u) ∧ handleOk (closeEdge s u) := by
  rw [closeEdge_inactive ha]
  rcases hu.inactive_cases h ha with ⟨p, n, pin, hn, hpin, rfl⟩ | ⟨hoff, hrest⟩
  · have hheld : handleHeld (claimed p n pin s) := by simp [handleHeld, hn, hpin]
    exact ⟨Nat.zero_le _, serializerOk_rest rfl, ⟨Nat.zero_le _, fun _ => rfl⟩, fun _ => hheld,
      fun hoff => Bool.noConfusion hoff⟩
  · have hhandle : handleOk u := ⟨fun hon => by simp [hoff] at hon, fun _ => hrest⟩
    obtain ⟨-, -, -, -, -, htxq, hser, hcnt⟩ := hrest
    exact ⟨by simp [queueOk, htxq], serializerOk_rest hser, by simp [idleCounterOk, hcnt], hhandle⟩

/-- An edge without reset keeps the invariant. -/
theorem inv_closeEdge (h : Inv s) (hu : UnitEffect s u) : Inv (closeEdge s u) := by
  have hshared : queueOk (closeEdge s u) ∧ serializerOk (closeEdge s u) ∧ idleCounterOk (closeEdge s u) ∧
      handleOk (closeEdge s u) := by
    cases ha : s.eng.active with
    | true => exact running_closeEdge h hu ha
    | false => exact inactive_closeEdge h hu ha
  obtain ⟨hqueue, hser, hidle, hhandle⟩ := hshared
  exact {
    cfg := by rw [closeEdge_cfg, hu.cfg_eq]; exact h.cfg
    buffer := by simpa only [bufferOk, closeEdge_buf, closeEdge_cfg] using hu.buffer_keeps h.buffer
    queue := hqueue
    serializer := hser
    idleCounter := hidle
    commandUnit := by
      simpa only [commandUnitOk, closeEdge_cu, closeEdge_eng, closeEdge_cfg] using hu.commandUnit_keeps h.cfg h.commandUnit
    handle := hhandle
    response := by simpa [responseOk] using hu.response_keeps h.response }

end Edge

/-- Settles O13: a reset edge leaves the reset state (R180); any other is the command unit's effect, closed. -/
theorem stepKeepsInvariant : Obligations.StepKeepsInvariant := by
  intro s t h hst
  rcases (step_cases hst).2 with ⟨-, rfl⟩ | ⟨-, u, hu, rfl⟩
  · exact inv_resetWith h.cfg _ _ _
  · exact inv_closeEdge h hu

end Sys2Proof.Machine

/-! What one edge leaves of each register (10_state.md R24 to R39): the outputs as functions of the state, the reset state,
the moves of the engine state, the handle, the response register, the trace, and that a busy block does not read its ports. -/

namespace Sys2Proof.Machine

/-! The pin (R36). -/

section Pin
variable {s : State}

/-- The block drives its pin exactly while the serializer steps (R36, R55). -/
theorem lineOe_eq_active (s : State) : lineOe s = s.eng.active := by
  cases h : s.eng <;> simp [lineOe, Eng.active, h]

theorem lineOe_iff : lineOe s = true ↔ s.eng = .initialized ∨ s.eng = .streaming := by
  rw [lineOe_eq_active, Eng.active_iff]

theorem line_of_driven (h : lineOe s = true) : line s = decide (s.ser.phase = .high) := by
  rw [line, h, Bool.true_and]

theorem line_of_undriven (h : lineOe s = false) : line s = false := by
  rw [line, h, Bool.false_and]

theorem pinLevel_of_driven (h : lineOe s = true) : pinLevel s = some (line s) := if_pos h

theorem pinLevel_of_undriven (h : lineOe s = false) : pinLevel s = none := by
  rw [pinLevel, h, if_neg Bool.false_ne_true]

theorem pinSelPort_of_driven (h : lineOe s = true) : pinSelPort s = BitVec.ofNat 16 (s.pinSel.getD 0) := if_pos h

theorem pinSelPort_of_undriven (h : lineOe s = false) : pinSelPort s = 0 := by
  rw [pinSelPort, h, if_neg Bool.false_ne_true]

/-- A driven pin is a valid one, and its number fits the port (R6, R27, R36). -/
theorem Inv.driven_pin (h : Inv s) (hoe : lineOe s = true) :
    ∃ pin, s.pinSel = some pin ∧ pin ∈ s.cfg.validPins ∧ (pinSelPort s).toNat = pin := by
  obtain ⟨-, -, -, hpin⟩ := h.handle.1 (lineOe_eq_active s ▸ hoe)
  obtain ⟨-, -, -, -, -, -, -, hrange⟩ := h.cfg
  cases hsel : s.pinSel with
  | none => simp [hsel] at hpin
  | some pin =>
    have hvalid : pin ∈ s.cfg.validPins := by simpa [hsel] using hpin
    have hlt : pin < 2 ^ 16 := hrange pin hvalid
    refine ⟨pin, rfl, hvalid, ?_⟩
    rw [pinSelPort_of_driven hoe, hsel, Option.getD_some, BitVec.toNat_ofNat, Nat.mod_eq_of_lt hlt]

end Pin

/-- EX is a well-formed configuration (R6, R7). -/
theorem wf_ex : Config.ex.Wf := by decide

/-! The handle and the engine state (R24 to R27). -/

section Engine
variable {s u : State}

/-- A claim is held only by a running engine (R25). -/
theorem Inv.active_of_claim (h : Inv s) (hc : s.claimInst ≠ none) : s.eng.active = true := by
  cases ha : s.eng.active with
  | true => rfl
  | false => exact absurd (h.handle.2 ha).1 hc

/-- Only an INIT in UNINITIALIZED writes the handle, so a running engine keeps every field of it (R25 to R27). -/
theorem UnitEffect.handle_eq (hu : UnitEffect s u) (ha : s.eng.active = true) :
    u.claimInst = s.claimInst ∧ u.claimUnit = s.claimUnit ∧ u.imemLoaded = s.imemLoaded ∧ u.pinSel = s.pinSel := by
  cases hu with
  | accepted i t hacc hdec heff =>
    cases heff with
    | claims pin p n heng => simp [heng, Eng.active] at ha
    | _ => exact ⟨rfl, rfl, rfl, rfl⟩
  | illegal e hacc hdec => exact ⟨rfl, rfl, rfl, rfl⟩
  | goesOn t hacc heff => cases heff <;> exact ⟨rfl, rfl, rfl, rfl⟩

/-- How the command unit may move the engine state (R24): by INIT, by FLUSH, and by the end of a FLUSH. -/
theorem UnitEffect.eng_cases (hu : UnitEffect s u) :
    u.eng = s.eng ∨
    (s.eng = .uninitialized ∧ (u.eng = .initialized ∨ u.eng = .failed) ∧ accepts s ∧
      ∃ pin, decode s.inp.cmdWord = .ok (.init pin)) ∨
    (s.eng = .initialized ∧ u.eng = .streaming ∧ accepts s ∧ decode s.inp.cmdWord = .ok .flush) ∨
    (u.eng = .initialized ∧ s.cu = .flushLatch ∧ latchDone s) := by
  cases hu with
  | accepted i t hacc hdec heff =>
    cases heff with
    | exhausts pin heng => exact .inr (.inl ⟨heng, .inr rfl, hacc, pin, hdec⟩)
    | claims pin p n heng => exact .inr (.inl ⟨heng, .inl rfl, hacc, pin, hdec⟩)
    | flushPushes heng | flushWaits heng => exact .inr (.inr (.inl ⟨heng, rfl, hacc, hdec⟩))
    | _ => exact .inl rfl
  | illegal e hacc hdec => exact .inl rfl
  | goesOn t hacc heff =>
    cases heff with
    | flushEnds hcu hdone => exact .inr (.inr (.inr ⟨rfl, hcu, hdone⟩))
    | _ => exact .inl rfl

/-- The wait at the end of a FLUSH is in STREAMING (R24, R121). -/
theorem Inv.streaming_of_flushLatch (h : Inv s) (hcu : s.cu = .flushLatch) : s.eng = .streaming := by
  simpa [commandUnitOk, hcu] using h.commandUnit

end Engine

/-! The response register and the claim pulse (R33, R36, R78). -/

section Response
variable {s u : State}

theorem afterPush_ne_ready (n i : Nat) (ch : Chan) : afterPush n i ch ≠ .ready := by
  unfold afterPush
  split <;> simp

/-- At its acceptance edge a command responds exactly where it leaves the command unit READY. -/
theorem ExecEffect.rspValid_iff {i : Instr} (h : ExecEffect s i u) : u.rspValid = true ↔ u.cu = .ready := by
  cases h <;> simp

/-- At an edge without acceptance a response means that a command in progress has ended. -/
theorem ContinueEffect.rspValid_iff (h : ContinueEffect s u) : u.rspValid = true ↔ u.cu = .ready ∧ s.cu ≠ .ready := by
  cases h with
  | stays hcu => simp [hcu]
  | pushes i ch => simp [afterPush_ne_ready]
  | emits _ hcu | emitWaits _ hcu | latches hcu | latchWaits hcu | pushWaits _ _ hcu | flushEnds hcu | flushWaits hcu =>
    simp [hcu]

/-- A response is presented exactly where a command, accepted at this edge or in progress, leaves the command unit READY. -/
theorem UnitEffect.rspValid_iff (hu : UnitEffect s u) :
    u.rspValid = true ↔ u.cu = .ready ∧ (accepts s ∨ s.cu ≠ .ready) := by
  cases hu with
  | accepted i t hacc hdec heff => simp only [heff.rspValid_iff, iff_true_intro hacc, true_or, and_true]
  | illegal e hacc hdec => exact iff_of_true rfl ⟨rfl, .inl hacc⟩
  | goesOn t hacc heff => simp only [heff.rspValid_iff, hacc, false_or]

/-- The response word is written only with a response (R33). -/
theorem UnitEffect.rspWord_eq (hu : UnitEffect s u) (h : u.rspValid = false) : u.rspWord = s.rspWord := by
  cases hu with
  | accepted i t hacc hdec heff =>
    cases heff with
    | emitWaits | latchWaits | flushPushes | flushWaits => rfl
    | _ => exact Bool.noConfusion h
  | illegal e hacc hdec => exact Bool.noConfusion h
  | goesOn t hacc heff =>
    cases heff with
    | emits | latches | flushEnds => exact Bool.noConfusion h
    | _ => rfl

/-- INIT's success, and it alone, sets the claim pulse (R36, R84). -/
theorem ExecEffect.claimPulse_iff {i : Instr} (h : ExecEffect s i u) :
    u.claimPulse = true ↔ s.eng = .uninitialized ∧ u.eng = .initialized ∧ ∃ pin, i = .init pin := by
  cases h with
  | claims pin p n heng => simp [heng]
  | exhausts => simp
  | rejects | maps =>
    refine ⟨fun hp => Bool.noConfusion hp, ?_⟩
    rintro ⟨hun, hin, -⟩
    exact Eng.noConfusion (hun.symm.trans hin)
  | _ => simp

theorem ContinueEffect.claimPulse_eq (h : ContinueEffect s u) : u.claimPulse = false := by
  cases h <;> rfl

/-- The claim pulse is set exactly where an accepted INIT brings the engine to INITIALIZED (R36). -/
theorem UnitEffect.claimPulse_iff (hu : UnitEffect s u) :
    u.claimPulse = true ↔ s.eng = .uninitialized ∧ u.eng = .initialized ∧ accepts s ∧
      ∃ pin, decode s.inp.cmdWord = .ok (.init pin) := by
  cases hu with
  | accepted i t hacc hdec heff =>
    simp only [heff.claimPulse_iff, iff_true_intro hacc, hdec, Except.ok.injEq, true_and]
  | illegal e hacc hdec => simp [hdec]
  | goesOn t hacc heff => simp only [heff.claimPulse_eq, hacc, Bool.false_eq_true, false_and, and_false]

end Response

/-! The wire trace (R34, R62). -/

/-- An edge without reset keeps the trace or appends one event: a Latch needs an empty queue, so no byte starts with it. -/
theorem wtrace_closeEdge_cases {s u : State} (hu : UnitEffect s u) :
    (closeEdge s u).wtrace = s.wtrace ∨ ∃ e, (closeEdge s u).wtrace = s.wtrace ++ [e] := by
  rw [closeEdge_wtrace]
  cases ha : s.eng.active with
  | false =>
    rw [withSerializer_inactive ha]
    exact hu.wtrace_cases.imp_right fun hlatch => ⟨.latch, hlatch.2⟩
  | true =>
    rw [withSerializer_wtrace ha]
    rcases hu.wtrace_cases with hkept | ⟨⟨hq, hidle, -⟩, hlatch⟩
    · rw [hkept, appended_self, List.append_nil]
      cases (serializerEdge s).started with
      | none => exact .inl (List.append_nil _)
      | some v => exact .inr ⟨.byte v, rfl⟩
    · rw [serializerEdge_idle_empty hidle hq, hlatch, appended_append, startEvents_none, List.append_nil]
      exact .inr ⟨.latch, rfl⟩

/-! A busy block and its ports (R35, R85). -/

section Ports
variable {s u : State}

/-- The converse of `continueCommand_effect`: every effect of a command in progress is what the command unit does. -/
theorem ContinueEffect.continueCommand_eq (h : ContinueEffect s u) : continueCommand s = .next u := by
  cases h with
  | stays hcu => simp only [continueCommand, hcu]
  | emits v hcu hspace => simp only [continueCommand, hcu, emitPush, if_pos hspace]
  | emitWaits v hcu hfull => simp only [continueCommand, hcu, emitPush, if_neg hfull]
  | latches hcu hdone => simp only [continueCommand, hcu, latchTest, if_pos hdone]
  | latchWaits hcu hdone => simp only [continueCommand, hcu, latchTest, if_neg hdone]
  | pushes i ch hcu hspace hi => simp only [continueCommand, hcu, flushPush, if_pos hspace, if_pos hi]
  | pushWaits i ch hcu hfull => simp only [continueCommand, hcu, flushPush, if_neg hfull]
  | flushEnds hcu hdone => simp only [continueCommand, hcu, flushLatchTest, if_pos hdone]
  | flushWaits hcu hdone => simp only [continueCommand, hcu, flushLatchTest, if_neg hdone]

/-- A busy command unit accepts no word (R35). -/
theorem UnitEffect.continue_of_busy (hu : UnitEffect s u) (hbusy : s.cu ≠ .ready) : ContinueEffect s u := by
  cases hu with
  | accepted i t hacc => exact absurd hacc.2 hbusy
  | illegal e hacc => exact absurd hacc.2 hbusy
  | goesOn t hacc heff => exact heff

theorem step_of_busy (hcfg : s.cfg.Wf) (hr : s.inp.rst = false) (hbusy : s.cu ≠ .ready) (h : ContinueEffect s u) :
    step s = .next (closeEdge s u) := by
  have hacc : ¬ accepts s := fun hacc => hbusy hacc.2
  rw [step_of_noReset hcfg hr, commandUnit, acceptedWord_of_not hacc]
  exact congrArg (closeWith s) h.continueCommand_eq

variable (inp' : Inputs) (script' : List PlannedCycle)

/-- A command in progress goes on alike whatever the ports carry. -/
theorem ContinueEffect.ports (h : ContinueEffect s u) :
    ContinueEffect { s with inp := inp', script := script' } { u with inp := inp', script := script' } := by
  cases h with
  | stays hcu => exact .stays hcu
  | emits v hcu hspace => exact .emits v hcu hspace
  | emitWaits v hcu hfull => exact .emitWaits v hcu hfull
  | latches hcu hdone => exact .latches hcu hdone
  | latchWaits hcu hdone => exact .latchWaits hcu hdone
  | pushes i ch hcu hspace hi => exact .pushes i ch hcu hspace hi
  | pushWaits i ch hcu hfull => exact .pushWaits i ch hcu hfull
  | flushEnds hcu hdone => exact .flushEnds hcu hdone
  | flushWaits hcu hdone => exact .flushWaits hcu hdone

/-- The serializer does not read the ports. -/
theorem withSerializer_ports :
    withSerializer { s with inp := inp', script := script' } { u with inp := inp', script := script' } =
      { withSerializer s u with inp := inp', script := script' } := by
  cases ha : s.eng.active with
  | true => rw [withSerializer, withSerializer, if_pos ha, if_pos ha]; rfl
  | false => rw [withSerializer, withSerializer, ha]; rfl

theorem sameBlock_closeEdge_ports :
    sameBlock (closeEdge { s with inp := inp', script := script' } { u with inp := inp', script := script' })
      (closeEdge s u) := by
  simp only [sameBlock, closeEdge, withSerializer_ports]

end Ports

/-- Settles O10: the step is the reset edge, whose fields are those of R39. -/
theorem resetLeavesTheResetState : Obligations.ResetLeavesTheResetState := by
  refine ⟨fun s hcfg hr => ⟨resetEdge s, step_of_reset hcfg hr, ?_⟩, ?_⟩
  · exact ⟨rfl, rfl, rfl, rfl, rfl, rfl, fun _ => rfl, rfl, rfl, rfl, rfl, rfl, rfl, rfl, rfl, pinLevel_of_undriven rfl⟩
  · exact ⟨rfl, rfl, rfl, rfl, rfl, fun _ => rfl, rfl, rfl, rfl, rfl, rfl, rfl, rfl, pinLevel_of_undriven rfl⟩

/-- Settles O38: what the command unit does to the response register, which closing the edge keeps. -/
theorem responseIsAOneCyclePulse : Obligations.ResponseIsAOneCyclePulse := by
  intro s t hr hst
  obtain ⟨hcfg, ⟨hr', -⟩ | ⟨-, u, hu, rfl⟩⟩ := step_cases hst
  · simp [hr] at hr'
  · simp only [closeEdge_rspValid, closeEdge_cu, closeEdge_rspWord, closeEdge_claimPulse, closeEdge_eng]
    refine ⟨hu.rspValid_iff.mp, hu.rspWord_eq, fun hbusy hcu => hu.rspValid_iff.mpr ⟨hcu, hbusy⟩, ?_⟩
    rw [hu.claimPulse_iff]
    constructor
    · rintro ⟨hun, hin, hacc, pin, hdec⟩
      exact ⟨hun, hin, pin, hcfg, hr, hacc, hdec⟩
    · rintro ⟨hun, hin, pin, -, -, hacc, hdec⟩
      exact ⟨hun, hin, hacc, pin, hdec⟩

/-- Settles O41: a claim is held only by a running engine, and a running engine keeps its handle. -/
theorem handleIsKeptUntilReset : Obligations.HandleIsKeptUntilReset := by
  intro s t h hclaim hr hst
  rcases (step_cases hst).2 with ⟨hr', -⟩ | ⟨-, u, hu, rfl⟩
  · simp [hr] at hr'
  · simpa using hu.handle_eq (h.active_of_claim hclaim)

/-- Settles O43: the moves of the command unit; the end of a FLUSH is in STREAMING by the invariant. -/
theorem engineStateMovesAsListed : Obligations.EngineStateMovesAsListed := by
  intro s t h hr hst hne
  rcases (step_cases hst).2 with ⟨hr', -⟩ | ⟨-, u, hu, rfl⟩
  · simp [hr] at hr'
  · rw [closeEdge_eng] at hne ⊢
    rcases hu.eng_cases with hkept | ⟨hun, hto, hacc, pin, hdec⟩ | ⟨hin, hto, hacc, hdec⟩ | ⟨hto, hcu, hdone⟩
    · exact absurd hkept hne
    · exact .inl ⟨hun, hto, pin, h.cfg, hr, hacc, hdec⟩
    · exact .inr (.inl ⟨hin, hto, h.cfg, hr, hacc, hdec⟩)
    · exact .inr (.inr ⟨h.streaming_of_flushLatch hcu, hto, hcu, hdone⟩)

/-- Settles O44: a reset edge appends Reset; any other edge appends at most one event. -/
theorem traceOnlyGrows : Obligations.TraceOnlyGrows := by
  intro s t hst
  refine ⟨step_cfg hst, ?_⟩
  rcases (step_cases hst).2 with ⟨-, rfl⟩ | ⟨-, u, hu, rfl⟩
  · exact .inr ⟨.reset, rfl⟩
  · exact wtrace_closeEdge_cases hu

/-- Settles O45: a reset edge reads no port but `rst`; at any other edge a busy command unit accepts no word, and neither the
command in progress nor the serializer reads a port. -/
theorem busyBlockIgnoresItsPorts : Obligations.BusyBlockIgnoresItsPorts := by
  intro s t inp' script' hbusy hrst hst
  obtain ⟨hcfg, ⟨hr, rfl⟩ | ⟨hr, u, hu, rfl⟩⟩ := step_cases hst
  · exact ⟨_, step_of_reset hcfg (hrst.trans hr), rfl⟩
  · have heff := (hu.continue_of_busy hbusy).ports inp' script'
    exact ⟨_, step_of_busy hcfg (hrst.trans hr) hbusy heff, sameBlock_closeEdge_ports inp' script'⟩

/-- Settles O12: the reset state of R39, and EX is well-formed. -/
theorem resetStateMeetsInvariant : Obligations.ResetStateMeetsInvariant :=
  ⟨inv_resetWith wf_ex _ _ _, fun _ trace inp script hcfg => inv_resetWith hcfg trace inp script⟩

/-- Settles O56: each port by the field it reads, and the selected pin by the invariant. -/
theorem outputsFollowTheState : Obligations.OutputsFollowTheState := by
  intro s
  refine ⟨by simp [cmdReady], lineOe_iff, fun hoe => ⟨?_, pinLevel_of_driven hoe⟩,
    fun hoe => ⟨line_of_undriven hoe, pinSelPort_of_undriven hoe, pinLevel_of_undriven hoe⟩,
    fun p hp => ?_, fun hp => ?_, fun n hn => ?_, fun hn => ?_, rfl, Inv.driven_pin⟩
  · rw [line_of_driven hoe, decide_eq_true_iff]
  · cases p <;> simp [claimInstPort, hp, Periph.num]
  · simp [claimInstPort, hp]
  · simp [claimUnitPort, hn]
  · simp [claimUnitPort, hn]

end Sys2Proof.Machine

/-! The idle period before a Latch (20_memory.md R52; 40_engine.md R101; 41_serializer.md R59): the idle counter counts
cycles that were IDLE with an empty queue and the line driven low, so a Latch comes after T_LATCH of them. -/

namespace Sys2Proof.Machine

/-- A cycle that counts towards the idle period: IDLE, nothing queued, the line driven low (R52, R59). -/
def drivenIdle (s : State) : Prop := pinLevel s = some false ∧ s.ser.phase = .idle ∧ s.txq = []

section IdlePeriod
variable {s t u : State}

theorem drivenIdle_of_active (ha : s.eng.active = true) (hp : s.ser.phase = .idle) (hq : s.txq = []) : drivenIdle s := by
  have hoe : lineOe s = true := lineOe_eq_active s ▸ ha
  refine ⟨?_, hp, hq⟩
  rw [pinLevel_of_driven hoe, line_of_driven hoe, hp]
  rfl

/-- The serializer's step lifts the idle count only in a cycle of the idle period, and then by one (R59). -/
theorem serializerEdge_idleCnt_cases (h : idleCounterOk s) :
    (serializerEdge s).idleCnt = 0 ∨
    (s.ser.phase = .idle ∧ s.txq = [] ∧ (serializerEdge s).idleCnt ≤ s.idleCnt + 1) := by
  obtain ⟨-, hzero⟩ := h
  rcases serializerEdge_cases s with ⟨v, q, -, he, -⟩ | ⟨hq, hp, he⟩ | ⟨hp, -, he⟩ | ⟨hp, -, he⟩ | ⟨hp, -, he⟩ |
    ⟨hp, -, -, he⟩ | ⟨-, hp, -, -, he⟩ <;> rw [he]
  case inl => exact .inl rfl
  case inr.inl => exact .inr ⟨hp, hq, Nat.min_le_left _ _⟩
  all_goals exact .inl (hzero (by simp [hp]))

/-- Where the engine does not run, an edge leaves the idle count at 0: nothing is counted, and INIT starts afresh (R55, R82). -/
theorem idleCnt_closeEdge_inactive (h : Inv s) (hu : UnitEffect s u) (ha : s.eng.active = false) :
    (closeEdge s u).idleCnt = 0 := by
  rw [closeEdge_inactive ha]
  rcases hu.inactive_cases h ha with ⟨p, n, pin, -, -, rfl⟩ | ⟨-, hrest⟩
  · rfl
  · obtain ⟨-, -, -, -, -, -, -, hcnt⟩ := hrest
    exact hcnt

/-- An edge that leaves a positive idle count ends a cycle of the idle period, and counts it alone (R59). -/
theorem step_idleCnt_cases (h : Inv s) (hst : step s = .next t) :
    t.idleCnt = 0 ∨ (drivenIdle s ∧ t.idleCnt ≤ s.idleCnt + 1) := by
  rcases (step_cases hst).2 with ⟨-, rfl⟩ | ⟨-, u, hu, rfl⟩
  · exact .inl rfl
  · cases ha : s.eng.active with
    | false => exact .inl (idleCnt_closeEdge_inactive h hu ha)
    | true =>
      rw [closeEdge_idleCnt, withSerializer_idleCnt ha]
      exact (serializerEdge_idleCnt_cases h.idleCounter).imp_right fun ⟨hp, hq, hle⟩ => ⟨drivenIdle_of_active ha hp hq, hle⟩

theorem runSteps_keeps_inv {k : Nat} (h : Inv s) (hrun : runSteps k s = .next t) : Inv t :=
  runSteps_keeps stepKeepsInvariant h hrun

/-- Along a run that starts with idle count 0, an idle count of c means that the last c cycles were of the idle period. -/
theorem runSteps_idleCnt {k : Nat} (h : Inv s) (h0 : s.idleCnt = 0) (hrun : runSteps k s = .next t) :
    t.idleCnt ≤ k ∧ ∀ j, 1 ≤ j → j ≤ t.idleCnt → ∃ x, runSteps (k - j) s = .next x ∧ drivenIdle x := by
  induction k generalizing t with
  | zero =>
    cases hrun
    exact ⟨Nat.le_of_eq h0, fun j hj hle => by omega⟩
  | succ k ih =>
    obtain ⟨r, hr, hst⟩ := runSteps_succ_inv hrun
    obtain ⟨hk, hidle⟩ := ih hr
    rcases step_idleCnt_cases (runSteps_keeps_inv h hr) hst with hzero | ⟨hlast, hle⟩
    · exact ⟨by omega, fun j hj hjt => by omega⟩
    · refine ⟨by omega, fun j hj hjt => ?_⟩
      obtain rfl | hj2 : j = 1 ∨ 2 ≤ j := by omega
      · exact ⟨r, hr, hlast⟩
      · have hback : k + 1 - j = k - (j - 1) := by omega
        rw [hback]
        exact hidle (j - 1) (by omega) (by omega)

/-- An engine that does not run ends no frame (R101, R150). -/
theorem UnitEffect.wtrace_eq_of_inactive (hu : UnitEffect s u) (h : Inv s) (ha : s.eng.active = false) :
    u.wtrace = s.wtrace := by
  have hcu : s.cu = .ready := ready_of_inactive h.commandUnit ha
  cases hu with
  | accepted i t hacc hdec heff =>
    cases heff with
    | latches heng => simp [heng, Eng.active] at ha
    | _ => rfl
  | illegal e hacc hdec => rfl
  | goesOn t hacc heff =>
    cases heff with
    | latches hwait | flushEnds hwait => simp [hcu] at hwait
    | _ => rfl

/-- An edge without reset that ends a frame is one of a running engine at the end of a full idle period: the serializer itself
appends only bytes (R62, R101, R121). -/
theorem latchDone_of_closeEdge (h : Inv s) (hu : UnitEffect s u) (hlatch : (closeEdge s u).wtrace = s.wtrace ++ [.latch]) :
    s.eng.active = true ∧ latchDone s := by
  rw [closeEdge_wtrace] at hlatch
  cases ha : s.eng.active with
  | false =>
    rw [withSerializer_inactive ha, hu.wtrace_eq_of_inactive h ha] at hlatch
    simp at hlatch
  | true =>
    rw [withSerializer_wtrace ha] at hlatch
    rcases hu.wtrace_cases with hkept | ⟨hdone, -⟩
    · rw [hkept] at hlatch
      cases hstart : (serializerEdge s).started <;> simp [hstart] at hlatch
    · exact ⟨rfl, hdone⟩

theorem latchDone_of_step (h : Inv s) (hst : step s = .next t) (hlatch : t.wtrace = s.wtrace ++ [.latch]) :
    s.eng.active = true ∧ latchDone s := by
  rcases (step_cases hst).2 with ⟨-, rfl⟩ | ⟨-, u, hu, rfl⟩
  · simp at hlatch
  · exact latchDone_of_closeEdge h hu hlatch

end IdlePeriod

/-- No step of a run changes the configuration. -/
theorem runSteps_cfg {s t : State} {k : Nat} (hrun : runSteps k s = .next t) : t.cfg = s.cfg :=
  runSteps_keeps (P := fun x => x.cfg = s.cfg) (fun _ _ hx hst => (step_cfg hst).trans hx) rfl hrun

/-- Settles O22: a Latch needs an idle count of T_LATCH, and the run has counted that many cycles of the idle period, one by
one, since its count was 0. -/
theorem latchEndsAFullIdlePeriod : Obligations.LatchEndsAFullIdlePeriod := by
  intro s t u k h h0 hrun hst hlatch
  obtain ⟨ha, hq, hp, hfull⟩ := latchDone_of_step (runSteps_keeps_inv h hrun) hst hlatch
  rw [runSteps_cfg hrun] at hfull
  obtain ⟨hk, hidle⟩ := runSteps_idleCnt h h0 hrun
  refine ⟨by omega, fun j hj => ?_⟩
  obtain rfl | hj1 : j = 0 ∨ 1 ≤ j := by omega
  · exact ⟨t, hrun, drivenIdle_of_active ha hp hq⟩
  · exact hidle j hj1 (by omega)

end Sys2Proof.Machine

/-! The conservation of bytes (20_memory.md R51; 40_engine.md R100; 42_matrix.md R120; 41_serializer.md R60): the command unit
adds to the bytes the block owes what it takes on, and the serializer moves a byte from the head of the queue to the trace. -/

namespace Sys2Proof.Machine

/-! The bytes of a frame, pixel by pixel and channel by channel (R44, R120). -/

/-- The bytes that a command unit in state `c` has still to push: EMIT's byte, or the rest of a FLUSH's frame. -/
def bytesToPush (cfg : Config) (m : Memory) (c : CmdUnit) : List Byte :=
  match c with
  | .emitWait v => [v]
  | .flushPush i ch => bytesFrom cfg m i ch
  | _ => []

theorem bytesOwed_eq (s : State) : bytesOwed s = s.txq ++ bytesToPush s.cfg s.buf s.cu := by
  unfold bytesOwed bytesToPush
  cases s.cu <;> simp

section Frame
variable (cfg : Config) (m : Memory)

/-- The first `i` pixels of a list take `3 * i` bytes on the wire. -/
theorem drop_flatMap_pixelBytes (l : List Nat) (i : Nat) :
    (l.flatMap fun j => pixelBytes (m.read j)).drop (3 * i) = (l.drop i).flatMap fun j => pixelBytes (m.read j) := by
  induction l generalizing i with
  | nil => simp
  | cons j l ih =>
    cases i with
    | zero => rfl
    | succ i => simpa [pixelBytes, Nat.mul_succ] using ih i

theorem bytesFrom_green (i : Nat) :
    bytesFrom cfg m i .green = ((List.range cfg.n).drop i).flatMap fun j => pixelBytes (m.read j) :=
  drop_flatMap_pixelBytes m (List.range cfg.n) i

/-- The rest of a frame from pixel `i` on is that pixel's three bytes, then the rest from pixel `i + 1` on. -/
theorem bytesFrom_pixel {i : Nat} (hi : i < cfg.n) :
    bytesFrom cfg m i .green = pixelBytes (m.read i) ++ bytesFrom cfg m (i + 1) .green := by
  have hcons : (List.range cfg.n).drop i = i :: (List.range cfg.n).drop (i + 1) := by
    rw [List.drop_eq_getElem_cons (by simpa using hi), List.getElem_range]
  rw [bytesFrom_green, bytesFrom_green, hcons, List.flatMap_cons]

theorem bytesFrom_red (i : Nat) : bytesFrom cfg m i .red = (bytesFrom cfg m i .green).drop 1 := by
  simp [bytesFrom, List.drop_drop]

theorem bytesFrom_blue (i : Nat) : bytesFrom cfg m i .blue = (bytesFrom cfg m i .green).drop 2 := by
  simp [bytesFrom, List.drop_drop]

theorem bytesFrom_end {i : Nat} (hi : cfg.n ≤ i) : bytesFrom cfg m i .green = [] := by
  rw [bytesFrom_green, List.drop_eq_nil_of_le (by simpa using hi), List.flatMap_nil]

/-- One push of the FLUSH loop takes the first of the bytes still to push, and leaves the rest to push (R120). -/
theorem bytesFrom_eq_cons {i : Nat} (ch : Chan) (hi : i < cfg.n) :
    bytesFrom cfg m i ch = chanOf (m.read i) ch :: bytesToPush cfg m (afterPush cfg.n i ch) := by
  cases ch with
  | green => simp [afterPush, nextPush, bytesToPush, bytesFrom_red, bytesFrom_pixel cfg m hi, pixelBytes, chanOf]
  | red => simp [afterPush, nextPush, bytesToPush, bytesFrom_red, bytesFrom_blue, bytesFrom_pixel cfg m hi, pixelBytes, chanOf]
  | blue =>
    rw [bytesFrom_blue, bytesFrom_pixel cfg m hi]
    by_cases hlast : i + 1 < cfg.n
    · simp [afterPush, nextPush, hlast, bytesToPush, pixelBytes, chanOf]
    · simp [afterPush, nextPush, hlast, bytesToPush, pixelBytes, chanOf, bytesFrom_end cfg m (Nat.not_lt.mp hlast)]

end Frame

/-! What the command unit owes after each of its operations. -/

section Account
variable {s u : State}

theorem bytesOwed_of_ready (hcu : s.cu = .ready) : bytesOwed s = s.txq := by simp only [bytesOwed, hcu]

theorem bytesOwed_goOn_ready (s : State) : bytesOwed (goOn .ready s) = s.txq := rfl

theorem bytesOwed_raise (st : Status) (s : State) : bytesOwed (raise st s) = s.txq := rfl

/-- EMIT's byte is owed whether it is pushed or waits (R100). -/
theorem bytesOwed_emitPush (v : Byte) (s : State) : bytesOwed (emitPush v s) = s.txq ++ [v] := by
  unfold emitPush
  split <;> rfl

theorem bytesOwed_latchTest (s : State) : bytesOwed (latchTest s) = s.txq := by
  unfold latchTest
  split <;> rfl

theorem bytesOwed_flushLatchTest (s : State) : bytesOwed (flushLatchTest s) = s.txq := by
  unfold flushLatchTest
  split <;> rfl

/-- A push of the FLUSH loop moves a byte from those to push into the queue, or waits (R120). -/
theorem bytesOwed_flushPush {i : Nat} {ch : Chan} (h : flushPush i ch s = .next u) :
    bytesOwed u = s.txq ++ bytesFrom s.cfg s.buf i ch := by
  rcases flushPush_next h with ⟨-, hi, rfl⟩ | ⟨-, rfl⟩
  · rw [bytesOwed_eq, bytesFrom_eq_cons s.cfg s.buf ch hi]
    simp [bufRead]
  · rfl

/-- Between acceptances the command unit owes what it owed. -/
theorem bytesOwed_continueCommand (h : continueCommand s = .next u) : bytesOwed u = bytesOwed s := by
  unfold continueCommand at h
  rw [bytesOwed_eq s]
  split at h
  next hcu => cases h; simp [bytesOwed_goOn_ready, bytesToPush, hcu]
  next v hcu => cases h; simp [bytesOwed_emitPush, bytesToPush, hcu]
  next hcu => cases h; simp [bytesOwed_latchTest, bytesToPush, hcu]
  next i ch hcu => simp [bytesOwed_flushPush h, bytesToPush, hcu]
  next hcu => cases h; simp [bytesOwed_flushLatchTest, bytesToPush, hcu]

/-- EMIT in INITIALIZED pushes or waits (R100). -/
theorem exec_emit_initialized (v : Byte) (heng : s.eng = .initialized) : exec (.emit v) s = .next (emitPush v s) := by
  simp only [exec, execEmit, runningCheck_eq_none.mpr heng]

/-- FLUSH in INITIALIZED begins with the first push (R119). -/
theorem exec_flush_initialized (heng : s.eng = .initialized) :
    exec .flush s = flushPush 0 .green { s with eng := .streaming } := by
  simp only [exec, execFlush, runningCheck_eq_none.mpr heng]

/-- A command that takes no bytes on leaves what the queue owes, INIT's claim emptying an empty queue (R82). -/
theorem ExecEffect.bytesOwed_eq_txq {i : Instr} (heff : ExecEffect s i u) (h : Inv s)
    (htake : s.eng = .initialized → (∀ v, i ≠ .emit v) ∧ i ≠ .flush) : bytesOwed u = s.txq := by
  cases heff with
  | claims pin p n heng =>
    obtain ⟨-, -, -, -, -, hq, -⟩ := h.handle.2 (by rw [heng]; rfl)
    exact hq.symm
  | emits v heng | emitWaits v heng => exact absurd rfl ((htake heng).1 v)
  | flushPushes heng | flushWaits heng => exact absurd rfl (htake heng).2
  | _ => rfl

/-- An accepted command leaves the queue's bytes owed and those it takes on (R100, R120). -/
theorem bytesOwed_exec {i : Instr} (h : Inv s) (hacc : accepts s) (hdec : decode s.inp.cmdWord = .ok i)
    (hu : exec i s = .next u) : bytesOwed u = s.txq ++ bytesTakenOn s := by
  have hword := acceptedWord_of_accepts hacc
  have hkept := (exec_effect hu).bytesOwed_eq_txq h
  cases i with
  | emit v =>
    by_cases heng : s.eng = .initialized
    · rw [exec_emit_initialized v heng] at hu
      cases hu
      simp [bytesOwed_emitPush, bytesTakenOn, hword, hdec, heng]
    · simp [hkept (absurd · heng), bytesTakenOn, hword, hdec, heng]
  | flush =>
    by_cases heng : s.eng = .initialized
    · rw [exec_flush_initialized heng] at hu
      rw [bytesOwed_flushPush hu]
      simp [bytesFrom, bytesTakenOn, hword, hdec, heng]
    · simp [hkept (absurd · heng), bytesTakenOn, hword, hdec, heng]
  | _ => simp [hkept (by simp), bytesTakenOn, hword, hdec]

/-- The command unit adds to the bytes owed exactly those of the command accepted at this edge. -/
theorem bytesOwed_commandUnit (h : Inv s) (hu : commandUnit s = .next u) : bytesOwed u = bytesOwed s ++ bytesTakenOn s := by
  by_cases hacc : accepts s
  · rw [bytesOwed_of_ready hacc.2]
    cases hdec : decode s.inp.cmdWord with
    | ok i => exact bytesOwed_exec h hacc hdec (commandUnit_of_decode hacc hdec ▸ hu)
    | error e =>
      simp only [commandUnit, acceptedWord_of_accepts hacc, hdec, execIllegal] at hu
      cases hu
      simp [bytesOwed_raise, bytesTakenOn, acceptedWord_of_accepts hacc, hdec]
  · simp only [commandUnit, acceptedWord_of_not hacc] at hu
    simp [bytesOwed_continueCommand hu, bytesTakenOn, acceptedWord_of_not hacc]

/-! The serializer's part of the edge (R60, R62). -/

@[simp] theorem traceBytes_append (xs ys : List Event) : traceBytes (xs ++ ys) = traceBytes xs ++ traceBytes ys := by
  induction xs with
  | nil => rfl
  | cons e xs ih => cases e <;> simp [traceBytes, ih]

/-- The command unit starts no byte. -/
theorem UnitEffect.traceBytes_eq (hu : UnitEffect s u) : traceBytes u.wtrace = traceBytes s.wtrace := by
  rcases hu.wtrace_cases with hkept | ⟨-, hlatch⟩
  · rw [hkept]
  · simp [hlatch, traceBytes]

/-- The serializer moves the byte it starts from the head of the queue to the trace. -/
theorem traceBytes_started (s : State) :
    traceBytes (startEvents (serializerEdge s).started) ++ queueAfter (serializerEdge s).started s.txq = s.txq := by
  rcases serializerEdge_cases s with ⟨v, q, hq, he, -⟩ | ⟨-, -, he⟩ | ⟨-, -, he⟩ | ⟨-, -, he⟩ | ⟨-, -, he⟩ |
    ⟨-, -, -, he⟩ | ⟨-, -, -, -, he⟩ <;> rw [he]
  case inl => simp [hq, traceBytes]
  all_goals rfl

/-- Beside the command unit, the serializer neither loses nor adds a byte. -/
theorem traceBytes_withSerializer (hu : UnitEffect s u) :
    traceBytes (withSerializer s u).wtrace ++ (withSerializer s u).txq = traceBytes u.wtrace ++ u.txq := by
  cases ha : s.eng.active with
  | false => rw [withSerializer_inactive ha]
  | true =>
    have hpushed : u.txq = s.txq ++ appended s.txq u.txq := by
      rcases hu.txq_cases ha with hq | ⟨v, -, hq⟩ <;> simp [hq]
    have hevents : traceBytes (appended s.wtrace u.wtrace) = [] := by
      rcases hu.wtrace_cases with hw | ⟨-, hw⟩ <;> simp [hw, traceBytes]
    calc traceBytes (withSerializer s u).wtrace ++ (withSerializer s u).txq
      _ = traceBytes s.wtrace ++ (traceBytes (startEvents (serializerEdge s).started) ++
            queueAfter (serializerEdge s).started s.txq) ++ appended s.txq u.txq := by
          simp [withSerializer_wtrace ha, withSerializer_txq ha, hevents]
      _ = traceBytes u.wtrace ++ u.txq := by
          rw [traceBytes_started, hu.traceBytes_eq, List.append_assoc, ← hpushed]

/-- Closing an edge keeps the account of bytes: those started, then those owed. -/
theorem account_closeEdge (hu : UnitEffect s u) :
    traceBytes (closeEdge s u).wtrace ++ bytesOwed (closeEdge s u) = traceBytes u.wtrace ++ bytesOwed u := by
  rw [bytesOwed_eq, bytesOwed_eq u, closeEdge_wtrace, closeEdge_txq, closeEdge_cfg, closeEdge_buf, closeEdge_cu,
    ← List.append_assoc, traceBytes_withSerializer hu, List.append_assoc]

/-- A step without reset is the command unit's part of the edge, closed. -/
theorem exists_commandUnit_of_step {t : State} (hr : s.inp.rst = false) (hst : step s = .next t) :
    ∃ u, commandUnit s = .next u ∧ t = closeEdge s u := by
  rw [step_of_noReset (step_cases hst).1 hr] at hst
  cases hu : commandUnit s with
  | next u => rw [hu] at hst; cases hst; exact ⟨u, rfl, rfl⟩
  | fault r => rw [hu] at hst; cases hst
  | refused r => rw [hu] at hst; cases hst

end Account

/-- Settles O52: the command unit adds what it takes on, and closing the edge keeps the account. -/
theorem bytesGoOutInPushOrder : Obligations.BytesGoOutInPushOrder := by
  intro s t h hr hst
  obtain ⟨u, hcu, rfl⟩ := exists_commandUnit_of_step hr hst
  have hu := commandUnit_effect hcu
  rw [account_closeEdge hu, hu.traceBytes_eq, bytesOwed_commandUnit h hcu, List.append_assoc]

end Sys2Proof.Machine

/-! The reach of the pixel buffer (20_memory.md R41, R50; 42_matrix.md R115 to R117): what SET, CLEAR and READ do to it and
read of it, which edges change it, and that EMIT, LATCH and MAP do not read it. -/

namespace Sys2Proof.Machine

/-! Read after write (R50). -/

section ReadAfterWrite
variable {s : State}

/-- SET in INITIALIZED at an index that exists writes the pixel (R115). -/
theorem exec_set_initialized {i : Nat} (r g b : Byte) (heng : s.eng = .initialized) (hi : i < s.cfg.n) :
    exec (.set i r g b) s = .next (respond .ok 0 (bufWrite i ⟨r, g, b⟩ s)) := by
  simp only [exec, execSet, runningCheck_eq_none.mpr heng, if_pos hi]

/-- CLEAR in INITIALIZED zeroes the buffer (R116). -/
theorem exec_clear_initialized (heng : s.eng = .initialized) : exec .clear s = .next (respond .ok 0 (bufClear s)) := by
  simp only [exec, execClear, runningCheck_eq_none.mpr heng]

/-- READ in INITIALIZED at an index that exists answers with the pixel (R117). -/
theorem exec_read_initialized {i : Nat} (heng : s.eng = .initialized) (hi : i < s.cfg.n) :
    exec (.read i) s = .next (respond .ok (pixelData (bufRead s i)) s) := by
  simp only [exec, execRead, runningCheck_eq_none.mpr heng, if_pos hi]

/-- After CLEAR every index reads (0, 0, 0) (R116). -/
theorem bufRead_after_clear (s : State) (j : Nat) : bufRead (respond .ok 0 (bufClear s)) j = Pixel.black := rfl

theorem pixelData_black : pixelData Pixel.black = 0 := by decide

end ReadAfterWrite

/-- Settles O26: a READ answers with what the written buffer reads as, by `Memory.read_write`. -/
theorem readSeesTheLatestWrite : Obligations.ReadSeesTheLatestWrite := by
  intro s t i j r g b heng hwf hi hj
  constructor
  · intro hset
    rw [exec_set_initialized r g b heng hi] at hset
    cases hset
    refine ⟨⟨_, exec_read_initialized heng hi, rfl, ?_⟩, fun hne =>
      ⟨_, _, exec_read_initialized heng hj, exec_read_initialized heng hj, ?_⟩⟩
    · simp [responseWord_pixelData, bufRead, Memory.read_write hwf]
    · simp [bufRead, Memory.read_write hwf, hne]
  · intro hclear
    rw [exec_clear_initialized heng] at hclear
    cases hclear
    refine ⟨_, exec_read_initialized heng hj, rfl, ?_⟩
    rw [respond_rspWord, bufRead_after_clear, pixelData_black, responseWord_ok]

/-! The commands that change the buffer (R41). -/

section Writers
variable {s u : State}

/-- At its acceptance edge only an INIT, a SET or a CLEAR changes the buffer. -/
theorem ExecEffect.writes_buf {i : Instr} (h : ExecEffect s i u) (hne : u.buf ≠ s.buf) :
    (∃ pin, i = .init pin) ∨ (∃ index r g b, i = .set index r g b) ∨ i = .clear := by
  cases h with
  | claims pin => exact .inl ⟨pin, rfl⟩
  | sets index r g b => exact .inr (.inl ⟨index, r, g, b, rfl⟩)
  | clears => exact .inr (.inr rfl)
  | _ => exact absurd rfl hne

/-- A command in progress only reads the buffer. -/
theorem ContinueEffect.buf_eq (h : ContinueEffect s u) : u.buf = s.buf := by
  cases h <;> rfl

/-- At any edge without reset the command unit changes the buffer only by an accepted INIT, SET or CLEAR. -/
theorem UnitEffect.writes_buf (hu : UnitEffect s u) (hne : u.buf ≠ s.buf) :
    ∃ i, accepts s ∧ decode s.inp.cmdWord = .ok i ∧
      ((∃ pin, i = .init pin) ∨ (∃ index r g b, i = .set index r g b) ∨ i = .clear) := by
  cases hu with
  | accepted i t hacc hdec heff => exact ⟨i, hacc, hdec, heff.writes_buf hne⟩
  | illegal e hacc hdec => exact absurd rfl hne
  | goesOn t hacc heff => exact absurd heff.buf_eq hne

end Writers

/-! The commands that do not read the buffer (R41). -/

section NonReaders
variable {s t : State} (m : Memory)

theorem emitPush_withBuf (v : Byte) (s : State) : emitPush v { s with buf := m } = { emitPush v s with buf := m } := by
  by_cases hs : hasSpace s
  · rw [emitPush, emitPush, if_pos hs, if_pos hs]; rfl
  · rw [emitPush, emitPush, if_neg hs, if_neg hs]; rfl

theorem latchTest_withBuf (s : State) : latchTest { s with buf := m } = { latchTest s with buf := m } := by
  by_cases hd : latchDone s
  · rw [latchTest, latchTest, if_pos hd, if_pos hd]; rfl
  · rw [latchTest, latchTest, if_neg hd, if_neg hd]; rfl

theorem exec_emit_withBuf {v : Byte} (h : exec (.emit v) s = .next t) :
    exec (.emit v) { s with buf := m } = .next { t with buf := m } := by
  cases hst : runningCheck s.eng with
  | some st => simp only [exec, execEmit, hst] at h ⊢; cases h; rfl
  | none => simp only [exec, execEmit, hst] at h ⊢; cases h; rw [emitPush_withBuf]

theorem exec_latch_withBuf (h : exec .latch s = .next t) :
    exec .latch { s with buf := m } = .next { t with buf := m } := by
  cases hst : runningCheck s.eng with
  | some st => simp only [exec, execLatch, hst] at h ⊢; cases h; rfl
  | none => simp only [exec, execLatch, hst] at h ⊢; cases h; rw [latchTest_withBuf]

theorem exec_map_withBuf {row column : Nat} (h : exec (.map row column) s = .next t) :
    exec (.map row column) { s with buf := m } = .next { t with buf := m } := by
  cases hst : mapCheck s.eng with
  | some st => simp only [exec, execMap, hst] at h ⊢; cases h; rfl
  | none =>
    by_cases hc : coordInRange s.cfg row column
    · simp only [exec, execMap, hst, if_pos hc] at h ⊢; cases h; rfl
    · simp only [exec, execMap, hst, if_neg hc] at h ⊢; cases h; rfl

end NonReaders

/-- Settles O42: the command unit's effects by whether they write the buffer, which closing the edge keeps; then each of the
three commands over another buffer. -/
theorem onlyTheseCommandsReachTheBuffer : Obligations.OnlyTheseCommandsReachTheBuffer := by
  constructor
  · intro s t hst hne
    obtain ⟨hcfg, ⟨hr, -⟩ | ⟨hr, u, hu, rfl⟩⟩ := step_cases hst
    · exact .inl hr
    · rw [closeEdge_buf] at hne
      obtain ⟨i, hacc, hdec, hwriter⟩ := hu.writes_buf hne
      exact .inr ⟨i, ⟨hcfg, hr, hacc, hdec⟩, hwriter⟩
  · rintro s t i m (⟨v, rfl⟩ | rfl | ⟨row, column, rfl⟩) h
    · exact exec_emit_withBuf m h
    · exact exec_latch_withBuf m h
    · exact exec_map_withBuf m h

end Sys2Proof.Machine

/-! The command word and its opcode table (30_encoding.md R86 to R91, R97). A word decodes as a command exactly when it
matches the command's row and its fields hold the operands (`decode_eq_ok_iff`); the round trips, the opcode table and the
answer to an ILLEGAL word follow from that. -/

namespace Sys2Proof

/-! The bytes within D (R87). -/

theorem rField_append_gField_append_lowByte (w : CmdWord) : rField w ++ gField w ++ lowByte w = dField w := by
  rw [rField, gField, BitVec.extractLsb'_append_extractLsb'_eq_extractLsb' (by rfl)]
  exact BitVec.extractLsb'_append_extractLsb'_eq_extractLsb' rfl

theorem dHigh_append_lowByte (w : CmdWord) : dHigh w ++ lowByte w = dField w :=
  BitVec.extractLsb'_append_extractLsb'_eq_extractLsb' rfl

section Packed
variable (op : BitVec 8) (a b : BitVec 16)

@[simp] theorem lowByte_packWord_append (x : BitVec 16) (z : Byte) : lowByte (packWord op a b (x ++ z)) = z := by
  rw [lowByte_eq, dField_packWord, BitVec.extractLsb'_append_eq_of_add_le (by decide), BitVec.extractLsb'_eq_self]

@[simp] theorem gField_packWord_append (x y z : Byte) : gField (packWord op a b (x ++ y ++ z)) = y := by
  rw [gField_eq, dField_packWord, BitVec.extractLsb'_append_eq_of_le (by decide),
    BitVec.extractLsb'_append_eq_of_add_le (by decide), BitVec.extractLsb'_eq_self]

@[simp] theorem rField_packWord_append (x y z : Byte) : rField (packWord op a b (x ++ y ++ z)) = x := by
  rw [rField_eq, dField_packWord, BitVec.extractLsb'_append_eq_of_le (by decide),
    BitVec.extractLsb'_append_eq_of_le (by decide), BitVec.extractLsb'_eq_self]

end Packed

/-! The rows of the table, field by field (R88, R90). -/

/-- The row of `i`: its opcode, and zero in every field that it does not use. -/
def Instr.fixedFields (i : Instr) (w : CmdWord) : Prop :=
  match i with
  | .init _      => opField w = 0x01 ∧ bField w = 0 ∧ dField w = 0
  | .emit _      => opField w = 0x02 ∧ aField w = 0 ∧ bField w = 0 ∧ dHigh w = 0
  | .latch       => opField w = 0x03 ∧ aField w = 0 ∧ bField w = 0 ∧ dField w = 0
  | .set _ _ _ _ => opField w = 0x10 ∧ bField w = 0
  | .clear       => opField w = 0x11 ∧ aField w = 0 ∧ bField w = 0 ∧ dField w = 0
  | .flush       => opField w = 0x12 ∧ aField w = 0 ∧ bField w = 0 ∧ dField w = 0
  | .read _      => opField w = 0x13 ∧ bField w = 0 ∧ dField w = 0
  | .map _ _     => opField w = 0x14 ∧ dField w = 0

/-- The operands of `i` are those in the fields of the word (R87). -/
def Instr.operandsIn (i : Instr) (w : CmdWord) : Prop :=
  match i with
  | .init pin        => pin = (aField w).toNat
  | .emit v          => v = lowByte w
  | .latch           => True
  | .set index r g b => index = (aField w).toNat ∧ r = rField w ∧ g = gField w ∧ b = lowByte w
  | .clear           => True
  | .flush           => True
  | .read index      => index = (aField w).toNat
  | .map row column  => row = (aField w).toNat ∧ column = (bField w).toNat

@[simp] theorem and_ones16 (x : BitVec 16) : x &&& 0xFFFF#16 = x := BitVec.and_allOnes
@[simp] theorem and_ones24 (x : BitVec 24) : x &&& 0xFFFFFF#24 = x := BitVec.and_allOnes

/-- The part of EMIT's mask in D keeps the two bytes that must be zero (R88). -/
@[simp] theorem dField_masked_eq_zero (w : CmdWord) : dField w &&& 0xFFFF00#24 = 0#24 ↔ dHigh w = 0#16 := by
  have hmask : dField w &&& 0xFFFF00#24 = dHigh w ++ (0 : Byte) := by
    rw [← dHigh_append_lowByte, show 0xFFFF00#24 = BitVec.allOnes 16 ++ 0#8 from rfl, BitVec.and_append,
      BitVec.and_allOnes, BitVec.and_zero]
    rfl
  rw [hmask]
  refine ⟨fun h => ?_, fun h => by rw [h]; rfl⟩
  have h' := congrArg (BitVec.extractLsb' 8 16) h
  rwa [BitVec.extractLsb'_append_eq_of_le (by decide), BitVec.extractLsb'_eq_self] at h'

/-- A row whose mask and value are packed from fields is matched field by field; every mask keeps the whole opcode. -/
theorem matches_iff_of_packed {row : OpcodeRow} {w : CmdWord} (ma mb : BitVec 16) (md : BitVec 24) (op : BitVec 8)
    (hm : row.mask = packWord (BitVec.allOnes 8) ma mb md) (hv : row.value = packWord op 0 0 0) :
    row.Matches w ↔ opField w = op ∧ aField w &&& ma = 0 ∧ bField w &&& mb = 0 ∧ dField w &&& md = 0 := by
  simp only [OpcodeRow.matches_iff, hm, hv, opField_packWord, aField_packWord, bField_packWord, dField_packWord,
    BitVec.and_allOnes]

/-- A word matches a row exactly when it holds the row's opcode and zeros (R90). -/
theorem matches_opcodeRow_iff (i : Instr) (w : CmdWord) : (opcodeRow i).Matches w ↔ i.fixedFields w := by
  cases i with
  | init => exact (matches_iff_of_packed 0 0xFFFF 0xFFFFFF 0x01 rfl rfl).trans (by simp [Instr.fixedFields])
  | emit => exact (matches_iff_of_packed 0xFFFF 0xFFFF 0xFFFF00 0x02 rfl rfl).trans (by simp [Instr.fixedFields])
  | latch => exact (matches_iff_of_packed 0xFFFF 0xFFFF 0xFFFFFF 0x03 rfl rfl).trans (by simp [Instr.fixedFields])
  | set => exact (matches_iff_of_packed 0 0xFFFF 0 0x10 rfl rfl).trans (by simp [Instr.fixedFields])
  | clear => exact (matches_iff_of_packed 0xFFFF 0xFFFF 0xFFFFFF 0x11 rfl rfl).trans (by simp [Instr.fixedFields])
  | flush => exact (matches_iff_of_packed 0xFFFF 0xFFFF 0xFFFFFF 0x12 rfl rfl).trans (by simp [Instr.fixedFields])
  | read => exact (matches_iff_of_packed 0 0xFFFF 0xFFFFFF 0x13 rfl rfl).trans (by simp [Instr.fixedFields])
  | map => exact (matches_iff_of_packed 0 0 0xFFFFFF 0x14 rfl rfl).trans (by simp [Instr.fixedFields])

/-! What the decoder accepts (R90). -/

/-- The inversion of the decoder: each of its arms that accepts tests the fields of one row. -/
theorem fields_of_decode {w : CmdWord} {i : Instr} (h : decode w = .ok i) : i.fixedFields w ∧ i.operandsIn w := by
  unfold decode at h
  repeat' split at h
  all_goals cases h
  all_goals exact ⟨⟨‹_›, ‹_›⟩, by simp [Instr.operandsIn]⟩

theorem decode_of_fields {w : CmdWord} {i : Instr} (hf : i.fixedFields w) (ho : i.operandsIn w) : decode w = .ok i := by
  cases i <;> simp_all [Instr.fixedFields, Instr.operandsIn, decode]

/-- The decoder reads a command exactly from the words of its row, with the operands of their fields. -/
theorem decode_eq_ok_iff {w : CmdWord} {i : Instr} : decode w = .ok i ↔ (opcodeRow i).Matches w ∧ i.operandsIn w := by
  rw [matches_opcodeRow_iff]
  exact ⟨fields_of_decode, fun ⟨hf, ho⟩ => decode_of_fields hf ho⟩

/-- A command without operands is read from every word of its row. -/
theorem decode_eq_ok_iff_matches {w : CmdWord} {i : Instr} (ho : i.operandsIn w) :
    decode w = .ok i ↔ (opcodeRow i).Matches w :=
  decode_eq_ok_iff.trans (and_iff_left ho)

/-! The table (R89, R90). -/

theorem mem_opcodeTable {row : OpcodeRow} : row ∈ opcodeTable ↔ ∃ i, row = opcodeRow i := by
  constructor
  · intro h
    simp only [opcodeTable, List.mem_cons, List.not_mem_nil, or_false] at h
    rcases h with h | h | h | h | h | h | h | h <;> exact ⟨_, h⟩
  · rintro ⟨i, rfl⟩
    cases i <;> simp [opcodeTable, opcodeRow]

/-- Every row has a command with the operands of a given word. -/
theorem exists_operandsIn (i : Instr) (w : CmdWord) : ∃ j, opcodeRow j = opcodeRow i ∧ j.operandsIn w := by
  cases i with
  | init => exact ⟨.init (aField w).toNat, rfl, rfl⟩
  | emit => exact ⟨.emit (lowByte w), rfl, rfl⟩
  | latch => exact ⟨.latch, rfl, trivial⟩
  | set => exact ⟨.set (aField w).toNat (rField w) (gField w) (lowByte w), rfl, rfl, rfl, rfl, rfl⟩
  | clear => exact ⟨.clear, rfl, trivial⟩
  | flush => exact ⟨.flush, rfl, trivial⟩
  | read => exact ⟨.read (aField w).toNat, rfl, rfl⟩
  | map => exact ⟨.map (aField w).toNat (bField w).toNat, rfl, rfl, rfl⟩

/-- A word of a row decodes, as a command of this row. -/
theorem decode_of_matches {row : OpcodeRow} {w : CmdWord} (hrow : row ∈ opcodeTable) (h : row.Matches w) :
    ∃ j, opcodeRow j = row ∧ decode w = .ok j := by
  obtain ⟨i, rfl⟩ := mem_opcodeTable.mp hrow
  obtain ⟨j, hj, ho⟩ := exists_operandsIn i w
  exact ⟨j, hj, decode_eq_ok_iff.mpr ⟨hj ▸ h, ho⟩⟩

/-- A word is ILLEGAL exactly when it matches no row (R90, R91). -/
theorem decode_eq_error_iff {w : CmdWord} : (∃ e, decode w = .error e) ↔ ∀ row ∈ opcodeTable, ¬ row.Matches w := by
  constructor
  · rintro ⟨e, he⟩ row hrow hm
    obtain ⟨j, -, hj⟩ := decode_of_matches hrow hm
    cases he.symm.trans hj
  · intro h
    cases hd : decode w with
    | error e => exact ⟨e, rfl⟩
    | ok i => exact absurd (decode_eq_ok_iff.mp hd).1 (h _ (mem_opcodeTable.mpr ⟨i, rfl⟩))

theorem row_unique {row row' : OpcodeRow} {w : CmdWord} (hrow : row ∈ opcodeTable) (hrow' : row' ∈ opcodeTable)
    (h : row.Matches w) (h' : row'.Matches w) : row = row' := by
  obtain ⟨j, rfl, hj⟩ := decode_of_matches hrow h
  obtain ⟨j', rfl, hj'⟩ := decode_of_matches hrow' h'
  cases hj.symm.trans hj'
  rfl

/-! Encoding (R86, R88). -/

theorem matches_encode (i : Instr) : (opcodeRow i).Matches (encode i) := by
  cases i with
  | init pin => exact Laws.TableRow.init pin
  | emit v => exact Laws.TableRow.emit v
  | latch => exact Laws.TableRow.latch
  | set index r g b => exact Laws.TableRow.set index r g b
  | clear => exact Laws.TableRow.clear
  | flush => exact Laws.TableRow.flush
  | read index => exact Laws.TableRow.read index
  | map row column => exact Laws.TableRow.map row column

/-- The fields of the encoded word hold the operands of a well-formed command. -/
theorem operandsIn_encode {i : Instr} (h : i.Wf) : i.operandsIn (encode i) := by
  have hfits : ∀ x : Nat, x < 65536 → x = x % 65536 := fun x hx => (Nat.mod_eq_of_lt hx).symm
  cases i with
  | init | read => simpa [Instr.operandsIn, encode] using hfits _ (of_decide_eq_true h)
  | set => simpa [Instr.operandsIn, encode] using hfits _ (of_decide_eq_true h)
  | map =>
    obtain ⟨hrow, hcolumn⟩ := Bool.and_eq_true_iff.mp h
    simpa [Instr.operandsIn, encode] using
      And.intro (hfits _ (of_decide_eq_true hrow)) (hfits _ (of_decide_eq_true hcolumn))
  | emit v => exact (lowByte_packWord_append _ _ _ _ v).symm
  | latch | clear | flush => trivial

/-- Operands taken from fields are in range (R87). -/
theorem wf_of_operandsIn {w : CmdWord} {i : Instr} (h : i.operandsIn w) : i.Wf := by
  have ha := (aField w).isLt
  have hb := (bField w).isLt
  cases i <;> simp_all [Instr.Wf, Instr.wfCheck, Instr.operandsIn]

/-- A word of a command's row with the command's operands is the command's word. -/
theorem encode_of_fields {w : CmdWord} {i : Instr} (hf : i.fixedFields w) (ho : i.operandsIn w) : encode i = w := by
  rw [← packWord_fields w]
  cases i with
  | emit v =>
    obtain ⟨hop, ha, hb, hd⟩ := hf
    rw [← dHigh_append_lowByte, hop, ha, hb, hd, ← ho, encode]
  | set index r g b =>
    obtain ⟨hop, hb⟩ := hf
    obtain ⟨rfl, rfl, rfl, rfl⟩ := ho
    simp [encode, hop, hb, rField_append_gField_append_lowByte]
  | _ => simp_all [Instr.fixedFields, Instr.operandsIn, encode]

/-- Settles O2: the encoded word matches the command's row, and its fields hold the operands. -/
theorem decodeUndoesEncode : Obligations.DecodeUndoesEncode := fun i hi =>
  decode_eq_ok_iff.mpr ⟨matches_encode i, operandsIn_encode hi⟩

/-- Settles O3: every field of a word that decodes is fixed by its row or is an operand. -/
theorem encodeUndoesDecode : Obligations.EncodeUndoesDecode := by
  intro w i h
  obtain ⟨hf, ho⟩ := fields_of_decode h
  exact ⟨wf_of_operandsIn ho, encode_of_fields hf ho⟩

/-- Settles O4: each row's clause is `decode_eq_ok_iff` for its command. -/
theorem decodeFollowsTheOpcodeTable : Obligations.DecodeFollowsTheOpcodeTable := fun _ =>
  ⟨fun _ => decode_eq_ok_iff, fun _ => decode_eq_ok_iff, decode_eq_ok_iff_matches trivial, fun _ _ _ _ => decode_eq_ok_iff,
    decode_eq_ok_iff_matches trivial, decode_eq_ok_iff_matches trivial, fun _ => decode_eq_ok_iff,
    fun _ _ => decode_eq_ok_iff, decode_eq_error_iff, fun _ hrow _ hrow' => row_unique hrow hrow'⟩

/-- Settles O1: each text and each word of R97, evaluated. -/
theorem specExampleWordsDecode : Obligations.SpecExampleWordsDecode :=
  ⟨⟨by decide, by decide⟩, ⟨by decide, by decide⟩, ⟨by decide, by decide⟩, ⟨by decide, by decide⟩, ⟨by decide, by decide⟩,
    ⟨by decide, by decide⟩, ⟨by decide, by decide⟩, ⟨by decide, by decide⟩, .nonZeroField, by decide⟩

end Sys2Proof

/-! Command words at an edge (30_encoding.md R91, R93, R94; 40_engine.md R78): the word that `withFetchWord` offers, the
answer to a word of no row, and the status and DATA of every response. -/

namespace Sys2Proof.Machine

/-! The offered word (log entry 8). -/

theorem tableWord_toNat (w : CmdWord) : tableWord 64 w.toNat = w := by
  rw [tableWord, Nat.mod_eq_of_lt w.isLt, BitVec.ofNat_toNat, BitVec.setWidth_eq]

theorem decodeTableWord_of_decode {w : CmdWord} {i : Instr} (h : decode w = .ok i) :
    decodeTableWord 64 w.toNat = some i := by
  rw [decodeTableWord, tableWord_toNat, h]

theorem acceptsCommand_withFetchWord {s : State} {w : CmdWord} {i : Instr} (hcfg : s.cfg.Wf) (h : decode w = .ok i) :
    acceptsCommand (s.withFetchWord 64 w.toNat) i :=
  ⟨hcfg, rfl, ⟨rfl, rfl⟩, (congrArg decode (tableWord_toNat w)).trans h⟩

/-- Settles O6: the offered word is the encoded one, which decodes to the command. -/
theorem offeredWordIsAccepted : Obligations.OfferedWordIsAccepted := by
  intro s i hcfg hi
  have hdec := decodeUndoesEncode i hi
  exact ⟨decodeTableWord_of_decode hdec, acceptsCommand_withFetchWord hcfg hdec⟩

/-! The answer to an ILLEGAL word (R91). -/

/-- An accepted word that does not decode is answered by `execIllegal` (R91). -/
theorem commandUnit_of_illegal {s : State} {e : Illegal} (hacc : accepts s) (hdec : decode s.inp.cmdWord = .error e) :
    commandUnit s = execIllegal s := by
  simp only [commandUnit, acceptedWord_of_accepts hacc, hdec]

/-- A response with DATA 0 alone changes the response register alone (R78, R145). -/
theorem raise_eq_onlyResponse (st : Status) (s : State) : raise st s = onlyResponse (responseWord st 0) s := rfl

/-- Settles O7: a word of no row does not decode, and its answer is the response alone. -/
theorem illegalWordsChangeNothing : Obligations.IllegalWordsChangeNothing := by
  intro s hcfg hr hv hcu hrows
  obtain ⟨e, he⟩ := decode_eq_error_iff.mpr hrows
  rw [step_of_noReset hcfg hr, commandUnit_of_illegal ⟨hv, hcu⟩ he, execIllegal, closeWith_next, raise_eq_onlyResponse,
    responseWord_illegalCommand]

/-! The response of a command (R93, R94). -/

section Response
variable {s t : State}

/-- The response that brings DATA with it: INIT's claim, READ's pixel, MAP's index (R93). -/
inductive DataResponse (s t : State) : Instr → Prop
  | claim (pin : Nat) (p : Periph) (u : Nat) (hp : t.claimInst = some p) (hu : t.claimUnit = some u)
      (hw : t.rspWord = responseWord .ok (claimData p u)) : DataResponse s t (.init pin)
  | pixel (index : Nat) (hw : t.rspWord = responseWord .ok (pixelData (bufRead s index))) : DataResponse s t (.read index)
  | index (row column : Nat) (hw : t.rspWord = responseWord .ok (indexData (serpentine s.cfg.side row column))) :
      DataResponse s t (.map row column)

/-- A command that answers at its acceptance edge answers with an error, with OK and no DATA, or with its DATA. -/
theorem ExecEffect.response_cases {i : Instr} (h : ExecEffect s i t) (hv : t.rspValid = true) :
    (∃ st, t.rspWord = responseWord st 0) ∨ DataResponse s t i := by
  cases h with
  | rejects | exhausts => exact .inl ⟨_, rfl⟩
  | claims pin p u => exact .inr (.claim pin p u rfl rfl rfl)
  | reads index => exact .inr (.pixel index rfl)
  | maps row column => exact .inr (.index row column rfl)
  | emits | latches | sets | clears => exact .inl ⟨.ok, rfl⟩
  | emitWaits | latchWaits | flushPushes | flushWaits => exact Bool.noConfusion hv

/-- A command that answers at a later edge answers OK with DATA 0 (R100, R101, R121). -/
theorem ContinueEffect.response_eq (h : ContinueEffect s t) (hv : t.rspValid = true) : t.rspWord = responseWord .ok 0 := by
  cases h with
  | emits | latches | flushEnds => rfl
  | stays | emitWaits | latchWaits | pushes | pushWaits | flushWaits => exact Bool.noConfusion hv

theorem DataResponse.status {i : Instr} (h : DataResponse s t i) : ∃ d, t.rspWord = responseWord .ok d := by
  cases h with
  | claim _ _ _ _ _ hw | pixel _ hw | index _ _ hw => exact ⟨_, hw⟩

end Response

/-- Settles O37: the responses of a command at its acceptance edge, and of one in progress. -/
theorem responsesCarryTheirData : Obligations.ResponsesCarryTheirData := by
  refine ⟨fun i s t hex hv => ⟨?_, fun _ hdata => ?_⟩, fun s t hcont hv => ?_⟩
  · rcases (exec_effect hex).response_cases hv with ⟨st, hw⟩ | hd
    · rw [hw, responseWord_status]
      exact statusCode_le st
    · obtain ⟨d, hw⟩ := hd.status
      rw [hw, responseWord_status]
      exact statusCode_le .ok
  · rcases (exec_effect hex).response_cases hv with ⟨st, hw⟩ | hd
    · rw [hw, responseWord_data] at hdata
      exact absurd rfl hdata
    · cases hd with
      | claim pin p u hp hu hw =>
        rw [responseWord_claimData] at hw
        exact .inl ⟨pin, p, u, rfl, hp, hu, hw⟩
      | pixel index hw => exact .inr (.inl ⟨index, rfl, hw.trans (responseWord_pixelData _)⟩)
      | index row column hw => exact .inr (.inr ⟨row, column, rfl, hw.trans (responseWord_indexData _)⟩)
  · rw [(continueCommand_effect hcont).response_eq hv, responseWord_ok]

end Sys2Proof.Machine

/-! The assembler (30_encoding.md R95). A line yields a command exactly when its name is the command's mnemonic, its operands
are read as the command's operands, and the command is well-formed (`assembleLine_eq_some_iff`). -/

namespace Sys2Proof.Machine

/-! The mnemonics as texts (R89). -/

@[simp] theorem mnemonicText_init (pin : Nat) : mnemonicText (.init pin) = ['I', 'N', 'I', 'T'] := by
  simp [mnemonicText, opcodeRow]
@[simp] theorem mnemonicText_emit (v : Byte) : mnemonicText (.emit v) = ['E', 'M', 'I', 'T'] := by
  simp [mnemonicText, opcodeRow]
@[simp] theorem mnemonicText_latch : mnemonicText .latch = ['L', 'A', 'T', 'C', 'H'] := by
  simp [mnemonicText, opcodeRow]
@[simp] theorem mnemonicText_set (index : Nat) (r g b : Byte) : mnemonicText (.set index r g b) = ['S', 'E', 'T'] := by
  simp [mnemonicText, opcodeRow]
@[simp] theorem mnemonicText_clear : mnemonicText .clear = ['C', 'L', 'E', 'A', 'R'] := by
  simp [mnemonicText, opcodeRow]
@[simp] theorem mnemonicText_flush : mnemonicText .flush = ['F', 'L', 'U', 'S', 'H'] := by
  simp [mnemonicText, opcodeRow]
@[simp] theorem mnemonicText_read (index : Nat) : mnemonicText (.read index) = ['R', 'E', 'A', 'D'] := by
  simp [mnemonicText, opcodeRow]
@[simp] theorem mnemonicText_map (row column : Nat) : mnemonicText (.map row column) = ['M', 'A', 'P'] := by
  simp [mnemonicText, opcodeRow]

/-! One operand. -/

theorem parseOperand_eq_some_iff {x : List Char} {n : Nat} :
    parseOperand x = some n ↔ parseNumber x = some n ∧ n < 65536 := by
  simp [parseOperand, Option.filter_eq_some_iff]

theorem parseByte_eq_some_iff {x : List Char} {v : Byte} : parseByte x = some v ↔ parseNumber x = some v.toNat := by
  simp only [parseByte, Option.map_eq_some_iff, Option.filter_eq_some_iff, decide_eq_true_iff]
  constructor
  · rintro ⟨n, ⟨hn, hlt⟩, rfl⟩
    rwa [BitVec.toNat_ofNat, Nat.mod_eq_of_lt hlt]
  · exact fun h => ⟨v.toNat, ⟨h, v.isLt⟩, by simp⟩

/-- The pieces of a line are read as these numbers. -/
abbrev readsAs (numbers : List Nat) (pieces : List (List Char)) : Prop :=
  List.Forall₂ (fun n x => parseNumber x = some n) numbers pieces

theorem readsAs_of_operandText {numbers : List Nat} {texts : List (List Char)}
    (h : List.Forall₂ operandText numbers texts) : readsAs numbers (texts.map trimBlanks) :=
  List.forall₂_map_right_iff.mpr (h.imp fun _ _ hn => (parseNumber_operandText hn).1)

/-- A single operand of 16 bits: its number, and that it fits. -/
theorem readsAs_of_parseOperand {x : List Char} {n : Nat} (h : parseOperand x = some n) :
    readsAs [n] [x] ∧ decide (fitsOperand n) = true := by
  obtain ⟨hn, hlt⟩ := parseOperand_eq_some_iff.mp h
  exact ⟨.cons hn .nil, decide_eq_true hlt⟩

theorem readsAs_getElem? {numbers : List Nat} {pieces : List (List Char)} (h : readsAs numbers pieces) {k : Nat}
    {x : List Char} (hx : pieces[k]? = some x) : ∃ n, numbers[k]? = some n ∧ parseNumber x = some n := by
  induction h generalizing k with
  | nil => simp at hx
  | cons hn _ ih =>
    cases k with
    | zero => cases hx; exact ⟨_, rfl, hn⟩
    | succ k => exact ih hx

/-- A written operand is no blank text. -/
theorem exists_not_blanks {numbers : List Nat} {texts : List (List Char)} (h : List.Forall₂ operandText numbers texts)
    (hne : texts ≠ []) : ∃ x ∈ texts, ¬ blanks x := by
  cases h with
  | nil => exact absurd rfl hne
  | cons hx _ => exact ⟨_, List.mem_cons_self, (parseNumber_operandText hx).2⟩

/-! The whole line. -/

section Line
variable {line name : List Char} {pieces : List (List Char)} {i : Instr}
variable (hname : (trimBlanks (stripComment line)).takeWhile (fun c => !isBlank c) = name)
variable (hpieces : lineOperands ((trimBlanks (stripComment line)).drop name.length) = pieces)
include hname hpieces

/-- The arm of the assembler that the mnemonic selects reads the operands as they are written. -/
theorem assembleLine_of_reads (hi : name = mnemonicText i) (hread : readsAs (textOperands i) pieces) (hwf : i.Wf) :
    assembleLine line = some i := by
  subst hi
  simp only [assembleLine, hname, hpieces]
  clear hname hpieces
  cases i with
  | latch | clear | flush => cases hread; simp
  | init | read =>
    rcases hread with _ | ⟨hx, _ | _⟩
    simp [parseOperand_eq_some_iff.mpr ⟨hx, of_decide_eq_true hwf⟩]
  | emit =>
    rcases hread with _ | ⟨hx, _ | _⟩
    simp [parseByte_eq_some_iff.mpr hx]
  | set =>
    rcases hread with _ | ⟨hx, _ | ⟨hy, _ | ⟨hz, _ | ⟨hw, _ | _⟩⟩⟩⟩
    simp [parseOperand_eq_some_iff.mpr ⟨hx, of_decide_eq_true hwf⟩, parseByte_eq_some_iff.mpr hy,
      parseByte_eq_some_iff.mpr hz, parseByte_eq_some_iff.mpr hw]
  | map =>
    obtain ⟨hrow, hcolumn⟩ := Bool.and_eq_true_iff.mp hwf
    rcases hread with _ | ⟨hx, _ | ⟨hy, _ | _⟩⟩
    simp [parseOperand_eq_some_iff.mpr ⟨hx, of_decide_eq_true hrow⟩,
      parseOperand_eq_some_iff.mpr ⟨hy, of_decide_eq_true hcolumn⟩]

/-- The inversion of the assembler: each of its arms yields a command of its own form. -/
theorem reads_of_assembleLine (h : assembleLine line = some i) :
    name = mnemonicText i ∧ readsAs (textOperands i) pieces ∧ i.Wf := by
  simp only [assembleLine, hname, hpieces] at h
  clear hname hpieces
  split at h
  case h_1 =>
    repeat' split at h
    all_goals cases h
    all_goals exact ⟨by simp [*], .nil, rfl⟩
  case h_2 x =>
    split at h
    next hn =>
      obtain ⟨pin, hx, rfl⟩ := Option.map_eq_some_iff.mp h
      exact ⟨hn.trans (by simp), readsAs_of_parseOperand hx⟩
    split at h
    next hn =>
      obtain ⟨index, hx, rfl⟩ := Option.map_eq_some_iff.mp h
      exact ⟨hn.trans (by simp), readsAs_of_parseOperand hx⟩
    split at h
    next hn =>
      obtain ⟨v, hx, rfl⟩ := Option.map_eq_some_iff.mp h
      exact ⟨hn.trans (by simp), .cons (parseByte_eq_some_iff.mp hx) .nil, rfl⟩
    next => cases h
  case h_3 x y =>
    repeat' split at h
    next hn _ _ row column hx hy =>
      cases h
      obtain ⟨hx, hrow⟩ := parseOperand_eq_some_iff.mp hx
      obtain ⟨hy, hcolumn⟩ := parseOperand_eq_some_iff.mp hy
      exact ⟨hn.trans (by simp), .cons hx (.cons hy .nil),
        Bool.and_eq_true_iff.mpr ⟨decide_eq_true hrow, decide_eq_true hcolumn⟩⟩
    all_goals cases h
  case h_4 x y z w =>
    repeat' split at h
    next hn _ _ _ _ index r g b hx hy hz hw =>
      cases h
      obtain ⟨hx, hlt⟩ := parseOperand_eq_some_iff.mp hx
      have hbytes : readsAs [r.toNat, g.toNat, b.toNat] [y, z, w] := .cons (parseByte_eq_some_iff.mp hy)
        (.cons (parseByte_eq_some_iff.mp hz) (.cons (parseByte_eq_some_iff.mp hw) .nil))
      exact ⟨hn.trans (by simp), .cons hx hbytes, decide_eq_true hlt⟩
    all_goals cases h
  case h_5 => cases h

/-- A line yields a command exactly when it names the command and its pieces are read as the command's operands, which are in
range (R95). -/
theorem assembleLine_eq_some_iff :
    assembleLine line = some i ↔ name = mnemonicText i ∧ readsAs (textOperands i) pieces ∧ i.Wf :=
  ⟨reads_of_assembleLine hname hpieces, fun ⟨hi, hread, hwf⟩ => assembleLine_of_reads hname hpieces hi hread hwf⟩

end Line

/-! A line in the form of R95. -/

/-- An operand of a well-formed command lies below the limit of its field. -/
theorem textOperands_lt_fieldLimit {i : Instr} (h : i.Wf) {k n : Nat} (hn : (textOperands i)[k]? = some n) :
    n < fieldLimit i k := by
  cases i with
  | init | read =>
    rcases k with _ | k <;> cases hn
    exact of_decide_eq_true h
  | emit v =>
    rcases k with _ | k <;> cases hn
    exact v.isLt
  | latch | clear | flush => cases hn
  | set index r g b =>
    rcases k with _ | _ | _ | _ | k <;> cases hn
    · exact of_decide_eq_true h
    · exact r.isLt
    · exact g.isLt
    · exact b.isLt
  | map =>
    obtain ⟨hrow, hcolumn⟩ := Bool.and_eq_true_iff.mp h
    rcases k with _ | _ | k <;> cases hn
    · exact of_decide_eq_true hrow
    · exact of_decide_eq_true hcolumn

/-- The limits of the fields depend on the mnemonic alone. -/
theorem fieldLimit_eq (i : Instr) (k : Nat) :
    fieldLimit i k =
      if mnemonicText i = ['E', 'M', 'I', 'T'] ∨ (mnemonicText i = ['S', 'E', 'T'] ∧ k ≠ 0) then 256 else 65536 := by
  cases i <;> simp [fieldLimit]

/-- What the assembler yields for a line in the form of R95: exactly the commands whose operands the line writes. -/
theorem assembleLine_commandLine {i j : Instr} {operands : List (List Char)} {line : List Char}
    (hline : commandLine (mnemonicText i) operands line) (hops : operands ≠ [] → ∃ x ∈ operands, ¬ blanks x) :
    assembleLine line = some j ↔
      mnemonicText i = mnemonicText j ∧ readsAs (textOperands j) (operands.map trimBlanks) ∧ j.Wf := by
  obtain ⟨hne, hword, hsemi⟩ := mnemonicText_word i
  obtain ⟨hname, hpieces⟩ := line_parts hne hword hsemi hline hops
  exact assembleLine_eq_some_iff hname hpieces

/-- A line that writes the operands of a well-formed command yields the command. -/
theorem assembleLine_of_written {i : Instr} {operands : List (List Char)} {line : List Char} (hwf : i.Wf)
    (hops : List.Forall₂ operandText (textOperands i) operands) (hline : commandLine (mnemonicText i) operands line) :
    assembleLine line = some i :=
  (assembleLine_commandLine hline (exists_not_blanks hops)).mpr ⟨rfl, readsAs_of_operandText hops, hwf⟩

/-- A line with an operand out of its field's range yields nothing. -/
theorem assembleLine_of_outOfRange {i : Instr} {operands : List (List Char)} {line x : List Char} {k n : Nat}
    (hline : commandLine (mnemonicText i) operands line) (hk : operands[k]? = some x) (hx : operandText n x)
    (hn : fieldLimit i k ≤ n) : assembleLine line = none := by
  obtain ⟨hparse, hnb⟩ := parseNumber_operandText hx
  rw [Option.eq_none_iff_forall_ne_some]
  intro j hj
  obtain ⟨hname, hread, hwf⟩ := (assembleLine_commandLine hline fun _ => ⟨x, List.mem_of_getElem? hk, hnb⟩).mp hj
  have hkm : (operands.map trimBlanks)[k]? = some (trimBlanks x) := by rw [List.getElem?_map, hk]; rfl
  obtain ⟨m, hm, hmx⟩ := readsAs_getElem? hread hkm
  cases hparse.symm.trans hmx
  have hlt := textOperands_lt_fieldLimit hwf hm
  rw [fieldLimit_eq, ← hname, ← fieldLimit_eq] at hlt
  omega

/-- Settles O57: a line in the form of R95 yields exactly the commands whose operands it writes, so an operand out of range
leaves none; and what is yielded is in range. -/
theorem assemblerRejectsOutOfRangeOperands : Obligations.AssemblerRejectsOutOfRangeOperands := by
  refine ⟨fun i operands line hwf hops hline => ?_, fun i operands line k n x hline hk hx hn => ?_, fun line i h => ?_⟩
  · have h := assembleLine_of_written hwf hops hline
    exact ⟨h, by rw [assembleWord, h]; rfl⟩
  · have h := assembleLine_of_outOfRange hline hk hx hn
    exact ⟨h, by rw [assembleWord, h]; rfl⟩
  · exact (reads_of_assembleLine rfl rfl h).2.2

end Sys2Proof.Machine

/-! The engine commands (40_engine.md R80 to R85, R100, R101): what INIT's success writes, EMIT and LATCH at the edge where
they are accepted and at the edges of their waits, and that no other command than INIT writes the handle or reads the
platform's wires. -/

namespace Sys2Proof.Machine

/-! INIT (R82, R84). -/

section Init
variable {s : State} {p : Periph} {u pin : Nat}

/-- INIT in UNINITIALIZED with a valid pin claims what `claim` finds, where the claimed side has room for the program (R80). -/
theorem exec_init_claims (heng : s.eng = .uninitialized) (hpin : pin ∈ s.cfg.validPins)
    (hclaim : claim s.cfg.units s.inp = some (p, u)) (himem : s.inp.imemOk p = true) :
    exec (.init pin) s = .next (claimed p u pin s) := by
  simp only [exec, execInit, initCheck_eq_none.mpr heng, if_pos hpin, hclaim, himem, if_true]

/-- The writes of INIT's success, field by field (R82, R84). -/
theorem claimed_eq :
    claimed p u pin s = { s with
      claimInst := some p, claimUnit := some u, imemLoaded := some p, pinSel := some pin, buf := [], txq := [],
      ser := Serializer.rest, idleCnt := 0, claimPulse := true, eng := .initialized, cu := .ready, rspValid := true,
      rspWord := (0 : BitVec 16) ++ BitVec.ofNat 8 p.num ++ BitVec.ofNat 8 u } := by
  rw [claimed, respond, responseWord_claimData]
  rfl

end Init

/-- Settles O15: `claim` finds the unit that R81 describes, and the success of INIT by its fields. -/
theorem initClaimsTheFirstFreeUnit : Obligations.InitClaimsTheFirstFreeUnit := by
  intro s pin p u heng hpin hfirst himem
  rw [exec_init_claims heng hpin (claim_eq_some_iff.mpr hfirst) himem, claimed_eq]
  cases p <;> rfl

/-! The engine-state checks of the commands (R147). -/

section Checks
variable {s : State} {i : Instr} {st : Status}

/-- Every command but INIT and MAP is answered by the status of the running check where that fails, and has no effect. -/
theorem exec_of_runningCheck (hinit : ∀ pin, i ≠ .init pin) (hmap : ∀ row column, i ≠ .map row column)
    (hst : runningCheck s.eng = some st) : exec i s = .next (raise st s) := by
  cases i with
  | init pin => exact absurd rfl (hinit pin)
  | map row column => exact absurd rfl (hmap row column)
  | emit | latch | set | clear | flush | read =>
    simp only [exec, execEmit, execLatch, execSet, execClear, execFlush, execRead, hst]

/-- Before INIT every command but INIT and MAP answers NOT_INITIALIZED. -/
theorem exec_uninitialized (hinit : ∀ pin, i ≠ .init pin) (hmap : ∀ row column, i ≠ .map row column)
    (heng : s.eng = .uninitialized) : exec i s = .next (onlyResponse 0x03000000 s) := by
  rw [exec_of_runningCheck hinit hmap (congrArg runningCheck heng), raise_eq_onlyResponse, responseWord_notInitialized]

/-- In FAILED every command answers FAILED. -/
theorem exec_failed (i : Instr) (heng : s.eng = .failed) : exec i s = .next (onlyResponse 0x07000000 s) := by
  rw [← responseWord_failed, ← raise_eq_onlyResponse]
  cases i with
  | init => simp only [exec, execInit, initCheck, heng]
  | map => simp only [exec, execMap, mapCheck, heng]
  | emit | latch | set | clear | flush | read => exact exec_of_runningCheck nofun nofun (congrArg runningCheck heng)

end Checks

/-! EMIT and LATCH in INITIALIZED and in their waits (R100, R101). -/

section Waits
variable {s : State} {v : Byte}

/-- A busy command unit goes on with its command, whatever is offered (R35). -/
theorem commandUnit_of_busy (hbusy : s.cu ≠ .ready) : commandUnit s = continueCommand s := by
  rw [commandUnit, acceptedWord_of_not fun hacc => hbusy hacc.2]

theorem commandUnit_emitWait (hcu : s.cu = .emitWait v) : commandUnit s = .next (emitPush v s) := by
  rw [commandUnit_of_busy (by simp [hcu])]
  simp only [continueCommand, hcu]

theorem commandUnit_latchWait (hcu : s.cu = .latchWait) : commandUnit s = .next (latchTest s) := by
  rw [commandUnit_of_busy (by simp [hcu])]
  simp only [continueCommand, hcu]

theorem exec_latch_initialized (heng : s.eng = .initialized) : exec .latch s = .next (latchTest s) := by
  simp only [exec, execLatch, runningCheck_eq_none.mpr heng]

theorem emitPush_of_space (hspace : hasSpace s) :
    emitPush v s = { s with txq := s.txq ++ [v], cu := .ready, rspValid := true, rspWord := 0, claimPulse := false } := by
  rw [emitPush, if_pos hspace, respond, responseWord_ok]
  rfl

theorem emitPush_of_full (hfull : s.cfg.qDepth ≤ s.txq.length) : emitPush v s = goOn (.emitWait v) s :=
  if_neg (Nat.not_lt.mpr hfull)

theorem latchTest_of_done (hdone : latchDone s) :
    latchTest s =
      { s with wtrace := s.wtrace ++ [.latch], cu := .ready, rspValid := true, rspWord := 0, claimPulse := false } := by
  rw [latchTest, if_pos hdone, respond, responseWord_ok]
  rfl

theorem latchTest_of_not_done (hdone : ¬ latchDone s) : latchTest s = goOn .latchWait s := if_neg hdone

/-- A command unit that goes on in the same state only withdraws the response and the claim pulse (R78). -/
theorem goOn_same {cu : CmdUnit} (hcu : s.cu = cu) : goOn cu s = { s with rspValid := false, claimPulse := false } := by
  subst hcu
  rfl

end Waits

/-- Settles O18: EMIT runs the push at its acceptance edge and at every edge of its wait; the push by the queue's space. -/
theorem emitPushesOrWaits : Obligations.EmitPushesOrWaits := by
  intro s v
  refine ⟨fun heng hspace => ?_, fun heng hfull => ?_, fun hcu hspace => ?_, fun hcu hfull => ?_,
    exec_uninitialized nofun nofun, exec_failed _⟩
  · rw [exec_emit_initialized v heng, emitPush_of_space hspace]
  · rw [exec_emit_initialized v heng, emitPush_of_full hfull, goOn]
  · rw [commandUnit_emitWait hcu, emitPush_of_space hspace]
  · rw [commandUnit_emitWait hcu, emitPush_of_full hfull, goOn_same hcu]

/-- Settles O20: LATCH runs the latch test at its acceptance edge and at every edge of its wait; the test by `latch_done`. -/
theorem latchEndsTheFrameOrWaits : Obligations.LatchEndsTheFrameOrWaits := by
  intro s
  refine ⟨fun heng hq hidle hcnt => ?_, fun heng hdone => ?_, fun hcu hq hidle hcnt => ?_, fun hcu hdone => ?_,
    exec_uninitialized nofun nofun, exec_failed _⟩
  · rw [exec_latch_initialized heng, latchTest_of_done ⟨hq, hidle, hcnt⟩]
  · rw [exec_latch_initialized heng, latchTest_of_not_done hdone, goOn]
  · rw [commandUnit_latchWait hcu, latchTest_of_done ⟨hq, hidle, hcnt⟩]
  · rw [commandUnit_latchWait hcu, latchTest_of_not_done hdone, goOn_same hcu]

/-! The handle and the engine state (R85): only INIT writes the handle. -/

section Handle
variable {s t : State}

theorem ExecEffect.handle_eq {i : Instr} (h : ExecEffect s i t) (hinit : ∀ pin, i ≠ .init pin) :
    t.claimInst = s.claimInst ∧ t.claimUnit = s.claimUnit ∧ t.imemLoaded = s.imemLoaded ∧ t.pinSel = s.pinSel := by
  cases h with
  | claims pin => exact absurd rfl (hinit pin)
  | _ => exact ⟨rfl, rfl, rfl, rfl⟩

theorem ContinueEffect.handle_eq (h : ContinueEffect s t) :
    t.claimInst = s.claimInst ∧ t.claimUnit = s.claimUnit ∧ t.imemLoaded = s.imemLoaded ∧ t.pinSel = s.pinSel := by
  cases h <;> exact ⟨rfl, rfl, rfl, rfl⟩

/-- At its acceptance edge only INIT or FLUSH moves the engine state. -/
theorem ExecEffect.writes_eng {i : Instr} (h : ExecEffect s i t) (hne : t.eng ≠ s.eng) :
    (∃ pin, i = .init pin) ∨ i = .flush := by
  cases h with
  | exhausts pin | claims pin => exact .inl ⟨pin, rfl⟩
  | flushPushes | flushWaits => exact .inr rfl
  | _ => exact absurd rfl hne

/-- At a later edge only the end of a FLUSH moves the engine state. -/
theorem ContinueEffect.writes_eng (h : ContinueEffect s t) (hne : t.eng ≠ s.eng) : s.cu = .flushLatch := by
  cases h with
  | flushEnds hcu => exact hcu
  | _ => exact absurd rfl hne

/-- INIT answers at its acceptance edge, with success or an error. -/
theorem ExecEffect.init_responds {pin : Nat} (h : ExecEffect s (.init pin) t) : t.rspValid = true ∧ t.cu = .ready := by
  cases h <;> exact ⟨rfl, rfl⟩

end Handle

/-! The input ports (R85): only INIT reads the platform's wires. -/

section Ports
variable {s t : State} (inp' : Inputs)

/-- The outcome `o` with the ports `inp'` in its next state. -/
def withInputs (o : Host.Outcome State Fault Refusal) : Host.Outcome State Fault Refusal :=
  match o with
  | .next t => .next { t with inp := inp' }
  | .fault r => .fault r
  | .refused r => .refused r

theorem emitPush_withInputs (v : Byte) (s : State) : emitPush v { s with inp := inp' } = { emitPush v s with inp := inp' } := by
  simp only [emitPush]
  split <;> rfl

theorem latchTest_withInputs (s : State) : latchTest { s with inp := inp' } = { latchTest s with inp := inp' } := by
  simp only [latchTest]
  split <;> rfl

theorem flushPush_withInputs (i : Nat) (ch : Chan) (s : State) :
    flushPush i ch { s with inp := inp' } = withInputs inp' (flushPush i ch s) := by
  simp only [flushPush]
  split
  · split <;> rfl
  · rfl

/-- Every command but INIT runs alike whatever the ports carry. -/
theorem exec_withInputs {i : Instr} (hinit : ∀ pin, i ≠ .init pin) (s : State) :
    exec i { s with inp := inp' } = withInputs inp' (exec i s) := by
  cases i with
  | init pin => exact absurd rfl (hinit pin)
  | emit v =>
    simp only [exec, execEmit, emitPush_withInputs]
    split <;> rfl
  | latch =>
    simp only [exec, execLatch, latchTest_withInputs]
    split <;> rfl
  | clear =>
    simp only [exec, execClear]
    split <;> rfl
  | flush =>
    simp only [exec, execFlush]
    split
    · rfl
    · exact flushPush_withInputs inp' 0 .green { s with eng := .streaming }
  | set | read | map =>
    simp only [exec, execSet, execRead, execMap]
    split
    · rfl
    · split <;> rfl

theorem ContinueEffect.script_eq (h : ContinueEffect s t) : t.script = s.script := by
  cases h <;> rfl

/-- A command in progress goes on alike whatever the ports carry. -/
theorem ContinueEffect.continueCommand_withInputs (h : ContinueEffect s t) :
    continueCommand { s with inp := inp' } = .next { t with inp := inp' } := by
  rw [h.script_eq]
  exact (h.ports inp' s.script).continueCommand_eq

end Ports

/-- Settles O40: the effects of the commands and of those in progress, and that neither reads the ports. -/
theorem onlyInitWritesTheHandle : Obligations.OnlyInitWritesTheHandle := by
  refine ⟨fun i s t hinit hex => ?_, fun s t hcont => ?_, fun pin s t hex => (exec_effect hex).init_responds⟩
  · have heff := exec_effect hex
    obtain ⟨hinst, hunit, himem, hpin⟩ := heff.handle_eq hinit
    refine ⟨hinst, hunit, himem, hpin, fun hne => ?_, fun inp' => ?_⟩
    · exact (heff.writes_eng hne).resolve_left fun ⟨pin, hi⟩ => hinit pin hi
    · rw [exec_withInputs inp' hinit, hex, withInputs]
  · have heff := continueCommand_effect hcont
    obtain ⟨hinst, hunit, himem, hpin⟩ := heff.handle_eq
    exact ⟨hinst, hunit, himem, hpin, heff.writes_eng, heff.continueCommand_withInputs⟩

end Sys2Proof.Machine

/-! The serializer beside the command unit (41_serializer.md R55 to R60, R62): what an edge of a running engine leaves of the
serializer, the idle count, the queue and the trace. -/

namespace Sys2Proof.Machine

section RunningEdge
variable {s t u : State}

/-- Where a byte starts, the serializer starts the head of the queue (R56, R58). -/
theorem serializerEdge_of_byteStarts {v : Byte} {q : List Byte} (hstart : byteStarts s) (hq : s.txq = v :: q) :
    serializerEdge s = startByte s.cfg v := by
  rcases hstart with ⟨hp | ⟨hp, hc, hb⟩, -⟩
  · exact serializerEdge_idle_start hp hq
  · exact serializerEdge_low_nextByte hp hc hb hq

/-- Where no byte starts, the serializer pops nothing, and outside IDLE it keeps the idle count (R59). -/
theorem serializerEdge_of_not_byteStarts (hstart : ¬ byteStarts s) :
    (serializerEdge s).started = none ∧ (s.ser.phase ≠ .idle → (serializerEdge s).idleCnt = s.idleCnt) := by
  rcases serializerEdge_cases s with ⟨v, q, hq, -, hfree⟩ | ⟨-, hp, he⟩ | ⟨-, -, he⟩ | ⟨-, -, he⟩ | ⟨-, -, he⟩ |
    ⟨-, -, -, he⟩ | ⟨-, -, -, -, he⟩
  case inl => exact absurd ⟨hfree, by simp [hq]⟩ hstart
  case inr.inl => exact ⟨by rw [he], fun hne => absurd hp hne⟩
  all_goals exact ⟨by rw [he], fun _ => by rw [he]⟩

/-- The queue loses its head exactly where a byte starts. -/
theorem queueAfter_started (s : State) :
    queueAfter (serializerEdge s).started s.txq = if byteStarts s then s.txq.tail else s.txq := by
  split
  next hstart =>
    obtain ⟨v, q, hq⟩ := List.exists_cons_of_ne_nil hstart.2
    rw [serializerEdge_of_byteStarts hstart hq, startByte_started, queueAfter_some]
  next hstart => rw [(serializerEdge_of_not_byteStarts hstart).1, queueAfter_none]

/-- The trace gains the head of the queue exactly where a byte starts (R62). -/
theorem startEvents_started (s : State) :
    startEvents (serializerEdge s).started = if byteStarts s then (s.txq.take 1).map Event.byte else [] := by
  split
  next hstart =>
    obtain ⟨v, q, hq⟩ := List.exists_cons_of_ne_nil hstart.2
    rw [serializerEdge_of_byteStarts hstart hq, startByte_started, startEvents_some, hq]
    rfl
  next hstart => rw [(serializerEdge_of_not_byteStarts hstart).1, startEvents_none]

/-- An edge without reset is the command unit's effect, closed. -/
theorem unitEffect_of_step (hr : s.inp.rst = false) (hst : step s = .next t) : ∃ u, UnitEffect s u ∧ t = closeEdge s u := by
  obtain ⟨u, hu, rfl⟩ := exists_commandUnit_of_step hr hst
  exact ⟨u, commandUnit_effect hu, rfl⟩

/-- While the engine runs, the serializer's fields after an edge are those of its step, whatever the command unit does (R60). -/
theorem step_ser (hr : s.inp.rst = false) (ha : s.eng.active = true) (hst : step s = .next t) :
    t.ser = (serializerEdge s).ser ∧ t.idleCnt = (serializerEdge s).idleCnt := by
  obtain ⟨u, -, rfl⟩ := unitEffect_of_step hr hst
  exact ⟨withSerializer_ser ha, withSerializer_idleCnt ha⟩

/-- What the command unit appends to the queue at an edge of a running engine: at most one byte, with space (R60). -/
theorem UnitEffect.appended_txq (hu : UnitEffect s u) (ha : s.eng.active = true) :
    (appended s.txq u.txq).length ≤ 1 ∧ (appended s.txq u.txq ≠ [] → hasSpace s) := by
  rcases hu.txq_cases ha with hq | ⟨v, hspace, hq⟩ <;> simp [hq]
  exact hspace

/-- What the command unit appends to the trace: nothing, or a Latch where `latch_done` holds (R62). -/
theorem UnitEffect.appended_wtrace (hu : UnitEffect s u) :
    appended s.wtrace u.wtrace = [] ∨ (appended s.wtrace u.wtrace = [.latch] ∧ latchDone s) := by
  rcases hu.wtrace_cases with hw | ⟨hdone, hw⟩ <;> simp [hw]
  exact hdone

/-- A byte that starts is the edge's only event, and leaves the rest of the queue, then what is pushed (R56, R58, R60). -/
theorem step_of_byteStarts {v : Byte} {q : List Byte} (hr : s.inp.rst = false) (ha : s.eng.active = true)
    (hst : step s = .next t) (hstart : byteStarts s) (hq : s.txq = v :: q) :
    t.ser = bitCell s.cfg v 8 ∧ t.idleCnt = 0 ∧ t.wtrace = s.wtrace ++ [.byte v] ∧ ∃ pushed, t.txq = q ++ pushed := by
  have he := serializerEdge_of_byteStarts hstart hq
  obtain ⟨hser, hcnt⟩ := step_ser hr ha hst
  obtain ⟨u, hu, rfl⟩ := unitEffect_of_step hr hst
  have hnoLatch : appended s.wtrace u.wtrace = [] :=
    hu.appended_wtrace.resolve_right fun ⟨_, hdone⟩ => hstart.2 hdone.1
  refine ⟨by rw [hser, he, startByte_ser], by rw [hcnt, he, startByte_idleCnt], ?_, appended s.txq u.txq, ?_⟩
  · rw [closeEdge_wtrace, withSerializer_wtrace ha, he, hnoLatch, startByte_started, startEvents_some, List.append_nil]
  · rw [closeEdge_txq, withSerializer_txq ha, he, startByte_started, queueAfter_some, hq, List.tail_cons]

end RunningEdge

/-- Settles O51: the queue and the trace after closing the edge, with what the command unit appends to each. -/
theorem queuePopsThenPushes : Obligations.QueuePopsThenPushes := by
  intro s t hr ha hst
  obtain ⟨u, hu, rfl⟩ := unitEffect_of_step hr hst
  obtain ⟨hlen, hspace⟩ := hu.appended_txq ha
  refine ⟨appended s.txq u.txq, appended s.wtrace u.wtrace, ?_, ?_, hlen, hspace, hu.appended_wtrace, fun hqueue => ?_⟩
  · rw [closeEdge_txq, withSerializer_txq ha, queueAfter_started]
  · rw [closeEdge_wtrace, withSerializer_wtrace ha, startEvents_started]
  · have hle := queueOk_closeEdge_running hqueue hu ha
    rwa [queueOk, closeEdge_cfg, hu.cfg_eq] at hle

/-- Settles O46: in IDLE a queued byte starts, and an empty queue lets the idle count go on. -/
theorem serializerIdlePhase : Obligations.SerializerIdlePhase := by
  intro s t hr ha hp hst
  refine ⟨fun v q hq => step_of_byteStarts hr ha hst ⟨.inl hp, by simp [hq]⟩ hq, fun hq => ?_⟩
  obtain ⟨hser, hcnt⟩ := step_ser hr ha hst
  rw [hser, hcnt, serializerEdge_idle_empty hp hq]
  exact ⟨rfl, rfl⟩

/-- Settles O49: an IDLE edge with an empty queue counts, an edge where a byte starts clears, every other edge keeps. -/
theorem idleCounterFollowsItsRule : Obligations.IdleCounterFollowsItsRule := by
  intro s t hr ha hst
  obtain ⟨-, hcnt⟩ := step_ser hr ha hst
  refine ⟨fun hp hq => ?_, fun hstart => ?_, fun hp hstart => ?_⟩
  · rw [hcnt, serializerEdge_idle_empty hp hq]
  · obtain ⟨v, q, hq⟩ := List.exists_cons_of_ne_nil hstart.2
    obtain ⟨-, hzero, -⟩ := step_of_byteStarts hr ha hst hstart hq
    exact hzero
  · rw [hcnt, (serializerEdge_of_not_byteStarts hstart).2 hp]

/-- Settles O50: outside INITIALIZED and STREAMING everything is at rest, and INIT's claim writes the rest values again. -/
theorem serializerRestsOutsideRunning : Obligations.SerializerRestsOutsideRunning := by
  intro s t h hr ha hst
  obtain ⟨u, hu, rfl⟩ := unitEffect_of_step hr hst
  obtain ⟨-, -, -, -, -, hq, hser, hcnt⟩ := h.handle.2 ha
  rw [closeEdge_inactive ha, hq, hser, hcnt]
  rcases hu.inactive_cases h ha with ⟨p, n, pin, -, -, rfl⟩ | ⟨-, -, -, -, -, -, hq', hser', hcnt'⟩
  · exact ⟨rfl, rfl, rfl, rfl, rfl, rfl⟩
  · exact ⟨hser', hcnt', hq', rfl, rfl, rfl⟩

end Sys2Proof.Machine

/-! Runs of a running engine (41_serializer.md R57, R58): the block never stops, and the phases of the serializer last exactly
their counts, whatever commands run meanwhile. -/

namespace Sys2Proof.Machine

/-! No state within the invariant faults (60_exceptions.md R145, R153). -/

section NoFault
variable {s : State}

theorem flushPush_ne_fault {i : Nat} (ch : Chan) (hi : i < s.cfg.n) (r : Fault) : flushPush i ch s ≠ .fault r := by
  unfold flushPush
  rw [if_pos hi]
  split <;> simp

theorem exec_ne_fault (hcfg : s.cfg.Wf) (i : Instr) (r : Fault) : exec i s ≠ .fault r := by
  obtain ⟨⟨hside, -⟩, -⟩ := hcfg
  have hn : 0 < s.cfg.n := Nat.mul_pos hside hside
  cases i with
  | flush =>
    simp only [exec, execFlush]
    split
    · simp
    · exact flushPush_ne_fault (s := { s with eng := .streaming }) .green hn r
  | emit | latch | clear => simp only [exec, execEmit, execLatch, execClear]; split <;> simp
  | init | set | read | map =>
    simp only [exec, execInit, execSet, execRead, execMap]
    repeat' split
    all_goals simp

/-- The push loop is always at a pixel that exists (R120). -/
theorem continueCommand_ne_fault (h : commandUnitOk s = true) (r : Fault) : continueCommand s ≠ .fault r := by
  cases hcu : s.cu with
  | flushPush i ch =>
    obtain ⟨-, hi⟩ : s.eng = .streaming ∧ i < s.cfg.n := by simpa only [commandUnitOk, hcu, decide_eq_true_iff] using h
    simpa only [continueCommand, hcu] using flushPush_ne_fault ch hi r
  | ready | emitWait | latchWait | flushLatch => simp [continueCommand, hcu]

theorem commandUnit_ne_fault (h : Inv s) (r : Fault) : commandUnit s ≠ .fault r := by
  unfold commandUnit
  split
  · exact continueCommand_ne_fault h.commandUnit r
  · split
    · exact exec_ne_fault h.cfg _ r
    · simp [execIllegal]

/-- In every state within the invariant the step goes on. -/
theorem Inv.exists_step (h : Inv s) : ∃ t, step s = .next t := by
  cases hr : s.inp.rst with
  | true => exact ⟨_, step_of_reset h.cfg hr⟩
  | false =>
    rw [step_of_noReset h.cfg hr]
    cases ho : Machine.commandUnit s with
    | next u => exact ⟨_, rfl⟩
    | fault r => exact absurd ho (commandUnit_ne_fault h r)
    | refused r => exact absurd ho (commandUnit_ne_refused s r)

end NoFault

/-! A running engine runs on. -/

/-- The engine runs, within the invariant, and no reset is to come. -/
structure Running (s : State) : Prop where
  inv    : Inv s
  quiet  : noReset s
  active : s.eng.active = true

section Runs
variable {s t : State} {x y : Serializer} {j k : Nat}

theorem Running.of_step (h : Running s) (hst : step s = .next t) : Running t where
  inv := stepKeepsInvariant s t h.inv hst
  quiet := noReset_step h.quiet hst
  active := by
    obtain ⟨u, hu, rfl⟩ := unitEffect_of_step h.quiet.1 hst
    rw [closeEdge_eng]
    exact hu.active_keeps h.active

/-- A running engine drives its pin high in the HIGH phase and low in the others (R36). -/
theorem Running.line_eq (h : Running s) : line s = decide (s.ser.phase = .high) :=
  line_of_driven (lineOe_eq_active s ▸ h.active)

theorem Running.pinLevel_eq (h : Running s) : pinLevel s = some (decide (s.ser.phase = .high)) := by
  rw [pinLevel_of_driven (lineOe_eq_active s ▸ h.active), h.line_eq]

/-- The engine runs on for `k` edges, and then the serializer's fields are `x`. -/
def RunsTo (k : Nat) (s : State) (x : Serializer) : Prop := ∃ t, runSteps k s = .next t ∧ Running t ∧ t.ser = x

theorem RunsTo.refl (h : Running s) : RunsTo 0 s s.ser := ⟨s, rfl, h, rfl⟩

/-- What the serializer does in every state with the fields `x` may follow any run to `x`. -/
theorem RunsTo.trans (hrun : RunsTo j s x) (h : ∀ t, Running t → t.cfg = s.cfg → t.ser = x → RunsTo k t y) :
    RunsTo (j + k) s y := by
  obtain ⟨t, ht, htr, htx⟩ := hrun
  rw [RunsTo, runSteps_add ht]
  exact h t htr (runSteps_cfg ht) htx

/-- One edge runs to the fields of the serializer's step. -/
theorem Running.runsTo_one (h : Running s) : RunsTo 1 s (serializerEdge s).ser := by
  obtain ⟨t, hst⟩ := h.inv.exists_step
  obtain ⟨hser, -⟩ := step_ser h.quiet.1 h.active hst
  exact ⟨t, by rw [runSteps_succ hst, runSteps_zero], h.of_step hst, hser⟩

end Runs

/-! The phases last their counts (R57, R58). -/

section Phases
variable {s : State} {j : Nat}

/-- Outside IDLE a count above 1 goes down, and nothing else changes (R57, R58). -/
theorem serializerEdge_count (hp : s.ser.phase ≠ .idle) (hc : 1 < s.ser.cnt) :
    serializerEdge s = ⟨{ s.ser with cnt := s.ser.cnt - 1 }, s.idleCnt, none⟩ := by
  cases hph : s.ser.phase with
  | idle => exact absurd hph hp
  | high => exact serializerEdge_high_count hph hc
  | low => exact serializerEdge_low_count hph hc

/-- At the end of a LOW phase the serializer leaves LOW (R58). -/
theorem serializerEdge_low_end_phase (hp : s.ser.phase = .low) (hc : s.ser.cnt ≤ 1) : (serializerEdge s).ser.phase ≠ .low := by
  by_cases hb : 1 < s.ser.bits
  · rw [serializerEdge_low_nextBit hp hc hb]
    simp
  · cases hq : s.txq with
    | nil => simp [serializerEdge_low_rest hp hc (Nat.not_lt.mp hb) hq, Serializer.rest]
    | cons v q => simp [serializerEdge_low_nextByte hp hc (Nat.not_lt.mp hb) hq]

theorem Running.cnt_pos (h : Running s) (hp : s.ser.phase ≠ .idle) : 1 ≤ s.ser.cnt := by
  obtain ⟨-, -, -, hbusy⟩ := h.inv.serializer
  obtain ⟨hpos, -⟩ := hbusy hp
  exact hpos

/-- The phase goes on while its count lasts. -/
theorem Running.countdown (h : Running s) (hp : s.ser.phase ≠ .idle) (hj : j < s.ser.cnt) :
    RunsTo j s { s.ser with cnt := s.ser.cnt - j } := by
  induction j with
  | zero => exact .refl h
  | succ j ih =>
    refine (ih (by omega)).trans fun t ht _ hx => ?_
    have he := serializerEdge_count (s := t) (by rw [hx]; exact hp) (by rw [hx]; show 1 < s.ser.cnt - j; omega)
    have hone := ht.runsTo_one
    rw [he, hx] at hone
    exact hone

/-- The last cycle of a phase. -/
theorem Running.last_cycle (h : Running s) (hp : s.ser.phase ≠ .idle) :
    RunsTo (s.ser.cnt - 1) s { s.ser with cnt := 1 } := by
  have hpos := h.cnt_pos hp
  have hrun := h.countdown hp (j := s.ser.cnt - 1) (by omega)
  rwa [Nat.sub_sub_self hpos] at hrun

/-- After a phase the serializer does what it does in the phase's last cycle. -/
theorem Running.phase_end {y : Serializer} (h : Running s) (hp : s.ser.phase ≠ .idle)
    (hend : ∀ t, t.cfg = s.cfg → t.ser = { s.ser with cnt := 1 } → (serializerEdge t).ser = y) : RunsTo s.ser.cnt s y := by
  have hrun := (h.last_cycle hp).trans (k := 1) (y := y) fun t ht hcfg hx => hend t hcfg hx ▸ ht.runsTo_one
  rwa [Nat.sub_add_cancel (h.cnt_pos hp)] at hrun

/-- A HIGH phase turns LOW at its end, with TL of the current bit to go (R57). -/
theorem Running.high_end (h : Running s) (hp : s.ser.phase = .high) :
    RunsTo s.ser.cnt s { s.ser with phase := .low, cnt := lowTime s.cfg s.ser.cur } :=
  h.phase_end (by simp [hp]) fun t hcfg hx => by
    rw [serializerEdge_high_end (by rw [hx]; exact hp) (by simp [hx]), hx, hcfg]

/-- A LOW phase with bits left in the byte begins the next bit at its end (R58). -/
theorem Running.low_end (h : Running s) (hp : s.ser.phase = .low) (hb : 1 < s.ser.bits) :
    RunsTo s.ser.cnt s (bitCell s.cfg s.ser.sh (s.ser.bits - 1)) :=
  h.phase_end (by simp [hp]) fun t hcfg hx => by
    rw [serializerEdge_low_nextBit (by rw [hx]; exact hp) (by simp [hx]) (by rw [hx]; exact hb), hx, hcfg]

end Phases

/-- Settles O47: the HIGH phase by its count, and its run from `Running.countdown` and `Running.high_end`. -/
theorem serializerHighPhase : Obligations.SerializerHighPhase := by
  refine ⟨fun s t hr ha hp hst => ?_, fun s hinv hquiet ha hp => ?_⟩
  · obtain ⟨hser, -⟩ := step_ser hr ha hst
    refine ⟨fun hc => by rw [hser, serializerEdge_high_count hp hc], fun hc => ?_⟩
    rw [hser, serializerEdge_high_end hp hc, lowTime]
  · have h : Running s := ⟨hinv, hquiet, ha⟩
    refine ⟨fun j hj => ?_, ?_⟩
    · obtain ⟨t, ht, -, hx⟩ := h.countdown (by simp [hp]) hj
      exact ⟨t, ht, by rw [hx]; exact hp⟩
    · obtain ⟨t, ht, -, hx⟩ := h.high_end hp
      exact ⟨t, ht, by rw [hx]⟩

/-- Settles O48: the LOW phase by its count, the bits left and the queue, and its run from `Running.countdown`. -/
theorem serializerLowPhase : Obligations.SerializerLowPhase := by
  refine ⟨fun s t hr ha hp hst => ?_, fun s hinv hquiet ha hp => ?_⟩
  · obtain ⟨hser, -⟩ := step_ser hr ha hst
    refine ⟨fun hc => ?_, fun hc hb => ?_, fun hc hb v q hq => ?_, fun hc hb hq => ?_⟩
    · rw [hser, serializerEdge_low_count hp hc]
    · rw [hser, serializerEdge_low_nextBit hp hc hb, bitCell, highTime]
    · exact step_of_byteStarts hr ha hst ⟨.inr ⟨hp, hc, hb⟩, by simp [hq]⟩ hq
    · rw [hser, serializerEdge_low_rest hp hc hb hq, Serializer.rest]
  · have h : Running s := ⟨hinv, hquiet, ha⟩
    have hbusy : s.ser.phase ≠ .idle := by simp [hp]
    refine ⟨fun j hj => ?_, ?_⟩
    · obtain ⟨t, ht, -, hx⟩ := h.countdown hbusy hj
      exact ⟨t, ht, by rw [hx]; exact hp⟩
    · obtain ⟨t, ht, htr, hx⟩ := h.last_cycle hbusy
      obtain ⟨u, hst⟩ := htr.inv.exists_step
      obtain ⟨hser, -⟩ := step_ser htr.quiet.1 htr.active hst
      refine ⟨u, ?_, ?_⟩
      · rw [← hst, ← runSteps_step ht, Nat.sub_add_cancel (h.cnt_pos hbusy)]
      · rw [hser]
        exact serializerEdge_low_end_phase (by rw [hx]; exact hp) (by simp [hx])

end Sys2Proof.Machine

/-! The waveform and its receiver (41_serializer.md R61, R63): a bit cell is one high pulse, whose length gives the bit back,
and eight bits give the byte back. -/

namespace Sys2Proof.Machine

/-! The high pulses of a waveform. -/

section Pulses
variable {cfg : Config}

/-- Low cycles before a waveform bring no pulse. -/
theorem pulsesFrom_gap (n : Nat) (wave : List Bool) : pulsesFrom 0 (List.replicate n false ++ wave) = pulsesFrom 0 wave := by
  induction n with
  | zero => rfl
  | succ n ih => exact ih

/-- High cycles lengthen the pulse under way. -/
theorem pulsesFrom_high (cur n : Nat) (wave : List Bool) :
    pulsesFrom cur (List.replicate n true ++ wave) = pulsesFrom (cur + n) wave := by
  induction n generalizing cur with
  | zero => rfl
  | succ n ih =>
    rw [List.replicate_succ, List.cons_append, pulsesFrom, ih]
    congr 1
    omega

/-- The first low cycle ends the pulse under way. -/
theorem pulsesFrom_end {cur n : Nat} (hcur : 1 ≤ cur) (hn : 1 ≤ n) (wave : List Bool) :
    pulsesFrom cur (List.replicate n false ++ wave) = cur :: pulsesFrom 0 wave := by
  obtain ⟨n, rfl⟩ := Nat.exists_eq_add_of_le' hn
  rw [List.replicate_succ, List.cons_append, pulsesFrom, if_neg (by omega), pulsesFrom_gap]

/-- A bit cell is one pulse of TH cycles. -/
theorem pulsesFrom_bitWave (hcfg : cfg.Wf) (b : Bool) (wave : List Bool) :
    pulsesFrom 0 (bitWave cfg b ++ wave) = highTime cfg b :: pulsesFrom 0 wave := by
  rw [bitWave, List.append_assoc, pulsesFrom_high, Nat.zero_add, pulsesFrom_end (highTime_pos hcfg b) (lowTime_pos hcfg b)]

/-- The top `k` bits of a byte, bit 7 first: those that `topBitsWave` sends. -/
def topBits (k : Nat) (v : Byte) : List Bool :=
  match k with
  | 0 => []
  | k + 1 => v.getLsbD 7 :: topBits k (v <<< 1)

theorem pulsesFrom_topBitsWave (hcfg : cfg.Wf) (k : Nat) (v : Byte) (wave : List Bool) :
    pulsesFrom 0 (topBitsWave cfg k v ++ wave) = (topBits k v).map (highTime cfg) ++ pulsesFrom 0 wave := by
  induction k generalizing v with
  | zero => rfl
  | succ k ih => rw [topBitsWave, List.append_assoc, pulsesFrom_bitWave hcfg, ih, topBits, List.map_cons, List.cons_append]

/-- The pulses of bytes sent with gaps before each are those of their bits; the gaps bring none. -/
theorem pulsesFrom_sent (hcfg : cfg.Wf) (sent : List (Nat × Byte)) (tail : Nat) :
    pulsesFrom 0 (sent.flatMap (fun x => List.replicate x.1 false ++ byteWave cfg x.2) ++ List.replicate tail false) =
      (sent.flatMap fun x => topBits 8 x.2).map (highTime cfg) := by
  induction sent with
  | nil => simpa [pulsesFrom] using pulsesFrom_gap tail []
  | cons x sent ih =>
    rw [List.flatMap_cons, List.append_assoc, List.append_assoc, pulsesFrom_gap, byteWave, pulsesFrom_topBitsWave hcfg, ih,
      List.flatMap_cons, List.map_append]

end Pulses

/-! What the receiver makes of them. -/

/-- The length of a pulse gives its bit back, as T0H and T1H differ (R7). -/
theorem pulseBit_highTime {cfg : Config} (hcfg : cfg.Wf) (b : Bool) : pulseBit cfg (highTime cfg b) = some b := by
  obtain ⟨-, -, -, -, -, hlt, -⟩ := hcfg
  cases b with
  | true => simp [pulseBit, highTime]
  | false => simp [pulseBit, highTime, Nat.ne_of_lt hlt]

theorem mapM_pulseBit_highTime {cfg : Config} (hcfg : cfg.Wf) (bits : List Bool) :
    (bits.map (highTime cfg)).mapM (pulseBit cfg) = some bits := by
  have hbits : pulseBit cfg ∘ highTime cfg = fun b => pure (id b) := funext (pulseBit_highTime hcfg)
  rw [List.mapM_map, hbits, List.mapM_pure, List.map_id]
  rfl

/-- The eight bits of a byte give it back. -/
theorem bytesOfBits_topBits (v : Byte) (bits : List Bool) : bytesOfBits (topBits 8 v ++ bits) = v :: bytesOfBits bits := by
  simp only [topBits, List.cons_append, List.nil_append, bytesOfBits, List.cons.injEq, and_true]
  revert v
  decide

theorem bytesOfBits_sent (sent : List (Nat × Byte)) :
    bytesOfBits (sent.flatMap fun x => topBits 8 x.2) = sent.map Prod.snd := by
  induction sent with
  | nil => rfl
  | cons x sent ih => rw [List.flatMap_cons, bytesOfBits_topBits, ih, List.map_cons]

/-- Settles O54: the pulses are those of the bits sent, each pulse gives its bit back, and each eight bits their byte. -/
theorem waveformDecodesToItsBytes : Obligations.WaveformDecodesToItsBytes := by
  intro cfg sent tail hcfg
  rw [decodeWave, pulsesFrom_sent hcfg, mapM_pulseBit_highTime hcfg, Option.map_some, bytesOfBits_sent]

end Sys2Proof.Machine

/-! The waveform of a byte on the line (41_serializer.md R61): the eight bit cells of a byte that starts, each high for TH
cycles and low for the rest of T_BIT, and what follows the byte. -/

namespace Sys2Proof.Machine

/-! One bit cell. -/

section BitCell
variable {s : State} {w : Byte} {b c : Nat}

/-- The first TH cycles of a bit cell are HIGH. -/
theorem Running.bitCell_high (h : Running s) (hs : s.ser = bitCell s.cfg w b) (hc : c < highTime s.cfg (w.getLsbD 7)) :
    RunsTo c s { bitCell s.cfg w b with cnt := highTime s.cfg (w.getLsbD 7) - c } := by
  have hrun := h.countdown (j := c) (by simp [hs]) (by simpa [hs] using hc)
  rwa [hs] at hrun

/-- The other TL cycles of a bit cell are LOW. -/
theorem Running.bitCell_low (h : Running s) (hs : s.ser = bitCell s.cfg w b) (hc : c < lowTime s.cfg (w.getLsbD 7)) :
    RunsTo (highTime s.cfg (w.getLsbD 7) + c) s
      { bitCell s.cfg w b with phase := .low, cnt := lowTime s.cfg (w.getLsbD 7) - c } := by
  have hhigh := h.high_end (by rw [hs]; rfl)
  rw [hs] at hhigh
  refine hhigh.trans fun t ht _ hx => ?_
  have hrun := ht.countdown (j := c) (by simp [hx]) (by simpa [hx] using hc)
  rwa [hx] at hrun

/-- A bit cell lasts T_BIT cycles, the line high in the first TH of them. -/
theorem Running.bitCell_line (h : Running s) (hs : s.ser = bitCell s.cfg w b) (hc : c < s.cfg.tBit) :
    ∃ t, runSteps c s = .next t ∧ Running t ∧ t.ser.phase ≠ .idle ∧ line t = decide (c < highTime s.cfg (w.getLsbD 7)) := by
  have hcell := cell_time h.inv.cfg (w.getLsbD 7)
  by_cases hhigh : c < highTime s.cfg (w.getLsbD 7)
  · obtain ⟨t, ht, htr, hx⟩ := h.bitCell_high hs hhigh
    exact ⟨t, ht, htr, by simp [hx], by rw [htr.line_eq, hx, decide_eq_true hhigh]; rfl⟩
  · obtain ⟨t, ht, htr, hx⟩ := h.bitCell_low hs (c := c - highTime s.cfg (w.getLsbD 7)) (by omega)
    rw [Nat.add_sub_cancel' (Nat.not_lt.mp hhigh)] at ht
    exact ⟨t, ht, htr, by simp [hx], by rw [htr.line_eq, hx, decide_eq_false hhigh]; rfl⟩

/-- With bits left, the next bit cell follows (R58). -/
theorem Running.bitCell_next (h : Running s) (hs : s.ser = bitCell s.cfg w b) (hb : 1 < b) :
    RunsTo s.cfg.tBit s (bitCell s.cfg (w <<< 1) (b - 1)) := by
  have hhigh := h.high_end (by rw [hs]; rfl)
  rw [← cell_time h.inv.cfg (w.getLsbD 7)]
  rw [hs] at hhigh
  refine hhigh.trans fun t ht hcfg hx => ?_
  have hrun := ht.low_end (by rw [hx]) (by simpa [hx] using hb)
  rwa [hx, hcfg] at hrun

end BitCell

/-! The eight bit cells of a byte. -/

section ByteCells
variable {s : State} {v : Byte} {q : List Byte} {k : Nat}

/-- Bit `7 - k` of a byte is the top bit after `k` shifts (R45). -/
theorem getLsbD_shiftLeft_top (v : Byte) (hk : k < 8) : (v <<< k).getLsbD 7 = v.getLsbD (7 - k) := by
  have hlow : ¬ 7 < k := by omega
  simp only [BitVec.getLsbD_shiftLeft, hlow, decide_false, Bool.not_false, Bool.and_true, Nat.reduceLT, decide_true,
    Bool.true_and]

/-- Bit cell `k` begins `k` bit times after the byte's first. -/
theorem Running.bitCells (h : Running s) (hs : s.ser = bitCell s.cfg v 8) (hk : k < 8) :
    RunsTo (k * s.cfg.tBit) s (bitCell s.cfg (v <<< k) (8 - k)) := by
  induction k with
  | zero => rw [Nat.zero_mul, BitVec.shiftLeft_zero, ← hs]; exact .refl h
  | succ k ih =>
    rw [Nat.succ_mul, BitVec.shiftLeft_add]
    refine (ih (by omega)).trans fun t ht hcfg hx => ?_
    rw [← hcfg] at hx ⊢
    exact ht.bitCell_next (b := 8 - k) hx (by omega)

/-- The edge where a byte starts begins its first bit cell (R56). -/
theorem Running.byte_begins (h : Running s) (hstart : byteStarts s) (hq : s.txq = v :: q) :
    RunsTo 1 s (bitCell s.cfg v 8) := by
  have hone := h.runsTo_one
  rwa [serializerEdge_of_byteStarts hstart hq] at hone

/-- From the edge where a byte starts, bit cell `k` begins `k` bit times after the next cycle. -/
theorem Running.byte_cells (h : Running s) (hstart : byteStarts s) (hq : s.txq = v :: q) (hk : k < 8) :
    RunsTo (1 + k * s.cfg.tBit) s (bitCell s.cfg (v <<< k) (8 - k)) :=
  (h.byte_begins hstart hq).trans fun t ht hcfg hx => by
    rw [← hcfg] at hx ⊢
    exact ht.bitCells hx hk

/-- In cycle `c` of bit cell `k` the line shows bit `7 - k`: high for TH cycles, then low (R61). -/
theorem Running.byte_line {c : Nat} (h : Running s) (hstart : byteStarts s) (hq : s.txq = v :: q) (hk : k < 8)
    (hc : c < s.cfg.tBit) :
    ∃ t, runSteps (1 + k * s.cfg.tBit + c) s = .next t ∧ Running t ∧ t.ser.phase ≠ .idle ∧
      line t = decide (c < highTime s.cfg (v.getLsbD (7 - k))) := by
  obtain ⟨t, ht, htr, hx⟩ := h.byte_cells hstart hq hk
  have hcfg := runSteps_cfg ht
  rw [← hcfg] at hx hc
  rw [runSteps_add ht, ← getLsbD_shiftLeft_top v hk, ← hcfg]
  exact htr.bitCell_line hx hc

/-- The last cycle of a byte, `8 * T_BIT` cycles after the edge where it starts, is the end of its last bit. -/
theorem Running.byte_last (h : Running s) (hstart : byteStarts s) (hq : s.txq = v :: q) :
    ∃ t, runSteps (8 * s.cfg.tBit) s = .next t ∧ Running t ∧ t.ser.phase = .low ∧ t.ser.cnt = 1 ∧ t.ser.bits = 1 := by
  obtain ⟨t, ht, htr, hx⟩ := h.byte_cells hstart hq (k := 7) (by omega)
  have hcfg := runSteps_cfg ht
  have hcell := cell_time h.inv.cfg ((v <<< 7).getLsbD 7)
  have hlow := lowTime_pos h.inv.cfg ((v <<< 7).getLsbD 7)
  rw [← hcfg] at ht hx hcell hlow ⊢
  obtain ⟨r, hr, hrr, hy⟩ := htr.bitCell_low hx (c := lowTime t.cfg ((v <<< 7).getLsbD 7) - 1) (by omega)
  refine ⟨r, ?_, hrr, by rw [hy], by rw [hy]; exact Nat.sub_sub_self hlow, by rw [hy]; rfl⟩
  rw [← hr, ← runSteps_add ht]
  congr 1
  omega

end ByteCells

/-- Settles O53: the levels by bit cell, and the edge after the byte's last cycle by what the queue holds then. -/
theorem byteDrivesItsWaveform : Obligations.ByteDrivesItsWaveform := by
  intro s v q hinv hquiet ha hstart hq
  have h : Running s := ⟨hinv, hquiet, ha⟩
  refine ⟨fun k hk c hc => ?_, ?_⟩
  · obtain ⟨t, ht, htr, hbusy, hline⟩ := h.byte_line hstart hq hk hc
    exact ⟨t, ht, hbusy, by rw [pinLevel_of_driven (lineOe_eq_active t ▸ htr.active), hline, highTime]⟩
  · obtain ⟨t, ht, htr, hp, hc, hb⟩ := h.byte_last hstart hq
    obtain ⟨u, hst⟩ := htr.inv.exists_step
    have hur := htr.of_step hst
    refine ⟨t, u, ht, hst, fun w r hr => ?_, fun hempty => ?_⟩
    · have hnext : byteStarts t := ⟨.inr ⟨hp, hc.le, hb.le⟩, by simp [hr]⟩
      obtain ⟨hser, -, htrace, -⟩ := step_of_byteStarts htr.quiet.1 htr.active hst hnext hr
      exact ⟨hnext, htrace, by simp [hur.pinLevel_eq, hser]⟩
    · obtain ⟨hser, -⟩ := step_ser htr.quiet.1 htr.active hst
      rw [serializerEdge_low_rest hp hc.le hb.le hempty] at hser
      exact ⟨by simp [hser, Serializer.rest], by simp [hur.pinLevel_eq, hser, Serializer.rest]⟩

/-! The levels that the line shows are the waveform of the byte. -/

section Wave
variable {cfg : Config}

theorem length_bitWave (hcfg : cfg.Wf) (b : Bool) : (bitWave cfg b).length = cfg.tBit := by
  rw [bitWave, List.length_append, List.length_replicate, List.length_replicate, cell_time hcfg]

theorem length_topBitsWave (hcfg : cfg.Wf) (n : Nat) (v : Byte) : (topBitsWave cfg n v).length = n * cfg.tBit := by
  induction n generalizing v with
  | zero => simp [topBitsWave]
  | succ n ih => rw [topBitsWave, List.length_append, length_bitWave hcfg, ih, Nat.succ_mul, Nat.add_comm]

theorem getElem?_bitWave (hcfg : cfg.Wf) (b : Bool) {c : Nat} (hc : c < cfg.tBit) :
    (bitWave cfg b)[c]? = some (decide (c < highTime cfg b)) := by
  have hcell := cell_time hcfg b
  rw [bitWave, List.getElem?_append, List.length_replicate]
  split
  next hhigh => simp [hhigh]
  next hlow =>
    have hin : c - highTime cfg b < lowTime cfg b := by omega
    simp [hlow, hin]

/-- Cycle `c` of bit cell `k` in the waveform of the top `n` bits of a byte. -/
theorem getElem?_topBitsWave (hcfg : cfg.Wf) {n k c : Nat} (v : Byte) (hk : k < n) (hc : c < cfg.tBit) :
    (topBitsWave cfg n v)[k * cfg.tBit + c]? = some (decide (c < highTime cfg ((v <<< k).getLsbD 7))) := by
  induction n generalizing k v with
  | zero => omega
  | succ n ih =>
    rw [topBitsWave]
    cases k with
    | zero =>
      rw [Nat.zero_mul, Nat.zero_add, List.getElem?_append_left (by rwa [length_bitWave hcfg]), getElem?_bitWave hcfg _ hc,
        BitVec.shiftLeft_zero]
    | succ k =>
      have hpos : (k + 1) * cfg.tBit + c = cfg.tBit + (k * cfg.tBit + c) := by rw [Nat.succ_mul]; omega
      have hlen := length_bitWave hcfg (v.getLsbD 7)
      rw [hpos, List.getElem?_append_right (by omega), hlen, Nat.add_sub_cancel_left, ih (v <<< 1) (by omega),
        ← BitVec.shiftLeft_add, Nat.add_comm 1 k]

/-- The waveform of a byte, cell by cell (R61). -/
theorem getElem?_byteWave (hcfg : cfg.Wf) {k c : Nat} (v : Byte) (hk : k < 8) (hc : c < cfg.tBit) :
    (byteWave cfg v)[k * cfg.tBit + c]? = some (decide (c < highTime cfg (v.getLsbD (7 - k)))) := by
  rw [byteWave, getElem?_topBitsWave hcfg v hk hc, getLsbD_shiftLeft_top v hk]

theorem length_byteWave (hcfg : cfg.Wf) (v : Byte) : (byteWave cfg v).length = 8 * cfg.tBit := length_topBitsWave hcfg 8 v

/-- The receiver reads a byte from its waveform. -/
theorem decodeWave_byteWave (hcfg : cfg.Wf) (v : Byte) : decodeWave cfg (byteWave cfg v) = some [v] := by
  simpa using waveformDecodesToItsBytes cfg [(0, v)] 0 hcfg

end Wave

/-- The line in the `j`-th cycle after the edge where a byte starts is the byte's waveform at `j` (R61). -/
theorem Running.byte_line_wave {s : State} {v : Byte} {q : List Byte} {j : Nat} (h : Running s) (hstart : byteStarts s)
    (hq : s.txq = v :: q) (hj : j < 8 * s.cfg.tBit) :
    ∃ t, runSteps (1 + j) s = .next t ∧ (byteWave s.cfg v)[j]? = some (line t) := by
  have hpos : 0 < s.cfg.tBit := by omega
  have hk : j / s.cfg.tBit < 8 := (Nat.div_lt_iff_lt_mul hpos).mpr hj
  have hc : j % s.cfg.tBit < s.cfg.tBit := Nat.mod_lt _ hpos
  have hsplit : j / s.cfg.tBit * s.cfg.tBit + j % s.cfg.tBit = j := Nat.div_add_mod' j s.cfg.tBit
  obtain ⟨t, ht, -, -, hline⟩ := h.byte_line hstart hq hk hc
  have hwave := getElem?_byteWave h.inv.cfg v hk hc
  rw [Nat.add_assoc, hsplit] at ht
  rw [hsplit, ← hline] at hwave
  exact ⟨t, ht, hwave⟩

/-- Settles O55: the levels are those of the waveform one by one, and the receiver reads the waveform. -/
theorem drivenLineDecodesToTheByte : Obligations.DrivenLineDecodesToTheByte := by
  intro s v q wave hinv hquiet ha hstart hq hlen hlevels
  have h : Running s := ⟨hinv, hquiet, ha⟩
  have hwave : wave = byteWave s.cfg v := by
    refine List.ext_getElem? fun j => ?_
    by_cases hj : j < 8 * s.cfg.tBit
    · obtain ⟨t, ht, hl⟩ := hlevels j hj
      obtain ⟨t', ht', hl'⟩ := h.byte_line_wave hstart hq hj
      cases ht.symm.trans ht'
      rw [hl, hl']
    · rw [List.getElem?_eq_none (by omega), List.getElem?_eq_none (by rw [length_byteWave hinv.cfg]; omega)]
  exact ⟨hwave, hwave ▸ decodeWave_byteWave hinv.cfg v⟩

end Sys2Proof.Machine

/-! The waits of EMIT and LATCH end (41_serializer.md R64; 40_engine.md R100 to R102): the serializer comes to the end of its
byte within `8 * T_BIT` edges, so the queue empties, and then the idle counter reaches T_LATCH. -/

namespace Sys2Proof.Machine

/-! The edges until the serializer can start a byte. -/

/-- The serializer could start a byte at this edge: IDLE, or in a byte's last cycle (R56, R58). -/
abbrev serializerFree (s : State) : Prop := s.ser.phase = .idle ∨ (s.ser.phase = .low ∧ s.ser.cnt ≤ 1 ∧ s.ser.bits ≤ 1)

/-- The edges to come, this one included, up to the first at which the serializer is free. -/
def edgesToStart (cfg : Config) (x : Serializer) : Nat :=
  match x.phase with
  | .idle => 1
  | .high => x.cnt + lowTime cfg x.cur + (x.bits - 1) * cfg.tBit
  | .low => x.cnt + (x.bits - 1) * cfg.tBit

section EdgesToStart
variable {s : State}

theorem edgesToStart_bitCell {cfg : Config} (hcfg : cfg.Wf) (v : Byte) {k : Nat} (hk : 1 ≤ k) :
    edgesToStart cfg (bitCell cfg v k) = k * cfg.tBit := by
  obtain ⟨k, rfl⟩ := Nat.exists_eq_add_of_le' hk
  rw [Nat.succ_mul]
  simp only [edgesToStart, bitCell_phase, bitCell_cnt, bitCell_cur, bitCell_bits, cell_time hcfg, Nat.add_sub_cancel]
  exact Nat.add_comm _ _

theorem edgesToStart_of_free (h : serializerOk s) (hfree : serializerFree s) : edgesToStart s.cfg s.ser = 1 := by
  obtain ⟨-, -, -, hbusy⟩ := h
  rcases hfree with hp | ⟨hp, hc, hb⟩
  · simp only [edgesToStart, hp]
  · obtain ⟨hpos, -⟩ := hbusy (by simp [hp])
    have hcnt : s.ser.cnt = 1 := by omega
    have hbits : s.ser.bits - 1 = 0 := by omega
    simp only [edgesToStart, hp, hcnt, hbits, Nat.zero_mul]

theorem edgesToStart_pos (h : serializerOk s) : 0 < edgesToStart s.cfg s.ser := by
  obtain ⟨-, -, -, hbusy⟩ := h
  cases hp : s.ser.phase with
  | idle => simp [edgesToStart, hp]
  | high | low =>
    obtain ⟨hpos, -⟩ := hbusy (by simp [hp])
    simp only [edgesToStart, hp]
    omega

/-- A serializer that is not free comes one edge nearer to the end of its byte (R57, R58). -/
theorem edgesToStart_step (hcfg : s.cfg.Wf) (h : serializerOk s) (hfree : ¬ serializerFree s) :
    (serializerEdge s).ser.phase ≠ .idle ∧ edgesToStart s.cfg (serializerEdge s).ser + 1 = edgesToStart s.cfg s.ser := by
  obtain ⟨-, -, -, hbusy⟩ := h
  obtain ⟨hpos, -⟩ := hbusy fun hp => hfree (.inl hp)
  rcases serializerEdge_cases s with ⟨v, q, -, -, hf⟩ | ⟨-, hp, -⟩ | ⟨hp, hc, he⟩ | ⟨hp, hc, he⟩ | ⟨hp, hc, he⟩ |
    ⟨hp, hc, hb, he⟩ | ⟨-, hp, hc, hb, -⟩
  · exact absurd hf hfree
  · exact absurd (.inl hp) hfree
  · refine ⟨by simp [he, hp], ?_⟩
    simp only [he, edgesToStart, hp]
    omega
  · refine ⟨by simp [he], ?_⟩
    simp only [he, edgesToStart, hp]
    omega
  · refine ⟨by simp [he, hp], ?_⟩
    simp only [he, edgesToStart, hp]
    omega
  · refine ⟨by simp [he], ?_⟩
    rw [he, edgesToStart_bitCell hcfg _ (by omega)]
    simp only [edgesToStart, hp]
    omega
  · exact absurd (.inr ⟨hp, hc, hb⟩) hfree

/-- The serializer is free again within `8 * T_BIT` edges (R64). -/
theorem edgesToStart_le (hcfg : s.cfg.Wf) (h : serializerOk s) : edgesToStart s.cfg s.ser ≤ 8 * s.cfg.tBit := by
  obtain ⟨-, hhigh, hlow, hbusy⟩ := h
  have hcell := cell_time hcfg s.ser.cur
  have hpos := highTime_pos hcfg s.ser.cur
  have hbits : s.ser.phase ≠ .idle → (s.ser.bits - 1) * s.cfg.tBit ≤ 7 * s.cfg.tBit := fun hp => by
    obtain ⟨-, -, hb, -⟩ := hbusy hp
    exact Nat.mul_le_mul_right _ (by omega)
  cases hp : s.ser.phase with
  | idle =>
    simp only [edgesToStart, hp]
    omega
  | high =>
    have hcnt := hhigh hp
    have hrest := hbits (by simp [hp])
    simp only [edgesToStart, hp]
    omega
  | low =>
    have hcnt := hlow hp
    have hrest := hbits (by simp [hp])
    simp only [edgesToStart, hp]
    omega

end EdgesToStart

/-! A command that waits. -/

/-- The command unit waits in state `c`, and gives no response. -/
def Waits (c : CmdUnit) (s : State) : Prop := s.rspValid = false ∧ s.cu = c

/-- After `k` edges from `s` the block is in a state `done`, and the command unit waits in `c` in every cycle between. -/
def WaitEnds (k : Nat) (s : State) (c : CmdUnit) (done : State → Prop) : Prop :=
  ∃ t, runSteps k s = .next t ∧ done t ∧ ∀ j, 0 < j → j < k → ∃ u, runSteps j s = .next u ∧ Waits c u

section Waiting
variable {s t : State} {c : CmdUnit} {done : State → Prop} {k : Nat}

theorem WaitEnds.now (hst : step s = .next t) (hdone : done t) : WaitEnds 1 s c done :=
  ⟨t, by rw [runSteps_succ hst, runSteps_zero], hdone, fun j _ _ => by omega⟩

theorem WaitEnds.later (hst : step s = .next t) (hwait : Waits c t) (h : WaitEnds k t c done) : WaitEnds (k + 1) s c done := by
  obtain ⟨u, hu, hdone, hbetween⟩ := h
  refine ⟨u, by rw [runSteps_succ hst, hu], hdone, fun j hj hjk => ?_⟩
  obtain ⟨j, rfl⟩ := Nat.exists_eq_add_of_le' hj
  rw [runSteps_succ hst]
  cases j with
  | zero => exact ⟨t, rfl, hwait⟩
  | succ j => exact hbetween (j + 1) (by omega) (by omega)

theorem waits_closeEdge_goOn (c : CmdUnit) (s : State) : Waits c (closeEdge s (goOn c s)) := by simp [Waits]

/-- An edge of a wait pushes nothing: the queue only loses the byte that starts. -/
theorem txq_closeEdge_goOn (ha : s.eng.active = true) :
    (closeEdge s (goOn c s)).txq = if byteStarts s then s.txq.tail else s.txq := by
  rw [closeEdge_txq, withSerializer_txq ha, queueAfter_started, goOn_txq, appended_self, List.append_nil]

/-- An edge of a wait moves at most the head of the queue, from the queue to the trace. -/
theorem wtrace_closeEdge_goOn (ha : s.eng.active = true) :
    (closeEdge s (goOn c s)).wtrace ++ (closeEdge s (goOn c s)).txq.map Event.byte = s.wtrace ++ s.txq.map Event.byte := by
  rw [txq_closeEdge_goOn ha, closeEdge_wtrace, withSerializer_wtrace ha, startEvents_started, goOn_wtrace, appended_self,
    List.append_nil, List.append_assoc]
  split
  · rw [← List.map_append, ← List.drop_one, List.take_append_drop]
  · rfl

theorem ser_closeEdge_goOn (ha : s.eng.active = true) :
    (closeEdge s (goOn c s)).ser = (serializerEdge s).ser ∧ (closeEdge s (goOn c s)).idleCnt = (serializerEdge s).idleCnt :=
  ⟨withSerializer_ser ha, withSerializer_idleCnt ha⟩

end Waiting

/-! EMIT (R100). -/

section EmitWait
variable {s : State} {v : Byte}

/-- The edge that ends EMIT's wait leaves its response, and its byte at the tail of the queue. -/
def EmitEnded (v : Byte) (t : State) : Prop := t.rspValid = true ∧ t.rspWord = 0 ∧ t.cu = .ready ∧ t.txq.getLast? = some v

/-- With space in the queue, a waiting EMIT ends at this edge. -/
theorem emitWait_ends_of_space (h : Running s) (hcu : s.cu = .emitWait v) (hspace : hasSpace s) :
    WaitEnds 1 s (.emitWait v) (EmitEnded v) := by
  refine .now (step_of_busy h.inv.cfg h.quiet.1 (by simp [hcu]) (.emits v hcu hspace)) ?_
  refine ⟨by simp, by rw [closeEdge_rspWord, respond_rspWord, responseWord_ok], by simp, ?_⟩
  rw [closeEdge_txq, withSerializer_txq h.active, respond_txq, push_txq, appended_append, List.getLast?_concat]

/-- A waiting EMIT that finds the queue full, and the serializer free to take a byte from it, ends at the next edge. -/
theorem emitWait_ends_of_free (h : Running s) (hcu : s.cu = .emitWait v) (hfull : ¬ hasSpace s) (hfree : serializerFree s) :
    WaitEnds 2 s (.emitWait v) (EmitEnded v) := by
  have hst := step_of_busy h.inv.cfg h.quiet.1 (by simp [hcu]) (.emitWaits v hcu hfull)
  have hqueue := h.inv.queue
  have hcfg := step_cfg hst
  have htxq := txq_closeEdge_goOn (c := .emitWait v) h.active
  obtain ⟨-, -, hdepth, -⟩ := h.inv.cfg
  have hstart : byteStarts s := ⟨hfree, fun hq => hfull (by rw [hasSpace, hq]; exact hdepth)⟩
  rw [if_pos hstart] at htxq
  have hspace : hasSpace (closeEdge s (goOn (.emitWait v) s)) := by
    rw [hasSpace, htxq, hcfg, List.length_tail]
    omega
  exact (emitWait_ends_of_space (h.of_step hst) (by simp) hspace).later hst (waits_closeEdge_goOn _ _)

/-- With a full queue, a waiting EMIT ends at the edge after the one where the serializer takes a byte. -/
theorem emitWait_ends_of_full (h : Running s) (hcu : s.cu = .emitWait v) (hfull : ¬ hasSpace s) :
    WaitEnds (edgesToStart s.cfg s.ser + 1) s (.emitWait v) (EmitEnded v) := by
  induction hn : edgesToStart s.cfg s.ser generalizing s with
  | zero => exact absurd hn (edgesToStart_pos h.inv.serializer).ne'
  | succ n ih =>
    by_cases hfree : serializerFree s
    · rw [edgesToStart_of_free h.inv.serializer hfree] at hn
      rw [← hn]
      exact emitWait_ends_of_free h hcu hfull hfree
    · have hst := step_of_busy h.inv.cfg h.quiet.1 (by simp [hcu]) (.emitWaits v hcu hfull)
      have hcfg := step_cfg hst
      have htxq := txq_closeEdge_goOn (c := .emitWait v) h.active
      obtain ⟨hser, -⟩ := ser_closeEdge_goOn (c := .emitWait v) h.active
      obtain ⟨-, hedges⟩ := edgesToStart_step h.inv.cfg h.inv.serializer hfree
      rw [if_neg fun hstart => hfree hstart.1] at htxq
      have hends := ih (h.of_step hst) (by simp) (by rwa [hasSpace, htxq, hcfg]) (by rw [hser, hcfg]; omega)
      exact hends.later hst (waits_closeEdge_goOn _ _)

end EmitWait

/-- Settles O19: with space the wait ends at once; else at the edge after the serializer takes a byte, within `8 * T_BIT`. -/
theorem emitWaitIsBounded : Obligations.EmitWaitIsBounded := by
  intro s v hinv hquiet hcu
  have heng : s.eng = .initialized := by simpa [commandUnitOk, hcu] using hinv.commandUnit
  have h : Running s := ⟨hinv, hquiet, by simp [heng, Eng.active]⟩
  have hends : ∃ k ≤ 8 * s.cfg.tBit + 1, WaitEnds k s (.emitWait v) (EmitEnded v) := by
    by_cases hspace : hasSpace s
    · exact ⟨1, by omega, emitWait_ends_of_space h hcu hspace⟩
    · exact ⟨_, Nat.succ_le_succ (edgesToStart_le hinv.cfg hinv.serializer), emitWait_ends_of_full h hcu hspace⟩
  obtain ⟨k, hk, t, ht, ⟨hvalid, hword, hready, hlast⟩, hbetween⟩ := hends
  exact ⟨k, t, hk, ht, hvalid, hword, hready, hlast, hbetween⟩

/-! LATCH (R101, R102). -/

/-- The edges to come, this one included, up to the one that ends a waiting LATCH: the rest of the byte on the line, eight bit
times for each queued byte, the idle period, and the edge of the latch itself. -/
def edgesToLatch (s : State) : Nat :=
  if s.txq = [] ∧ s.ser.phase = .idle then s.cfg.tLatch - s.idleCnt + 1
  else edgesToStart s.cfg s.ser + s.txq.length * (8 * s.cfg.tBit) + s.cfg.tLatch + 1

section LatchWait
variable {s : State} {trace : List Event}

theorem edgesToLatch_resting (hq : s.txq = []) (hp : s.ser.phase = .idle) :
    edgesToLatch s = s.cfg.tLatch - s.idleCnt + 1 := if_pos ⟨hq, hp⟩

theorem edgesToLatch_sending (h : s.txq ≠ [] ∨ s.ser.phase ≠ .idle) :
    edgesToLatch s = edgesToStart s.cfg s.ser + s.txq.length * (8 * s.cfg.tBit) + s.cfg.tLatch + 1 :=
  if_neg fun ⟨hq, hp⟩ => h.elim (· hq) (· hp)

theorem edgesToLatch_pos (s : State) : 0 < edgesToLatch s := by
  unfold edgesToLatch
  split <;> omega

theorem edgesToLatch_of_done (hdone : latchDone s) : edgesToLatch s = 1 := by
  obtain ⟨hq, hp, hfull⟩ := hdone
  rw [edgesToLatch_resting hq hp, Nat.sub_eq_zero_of_le hfull]

theorem edgesToLatch_le (h : Inv s) : edgesToLatch s ≤ (s.cfg.qDepth + 1) * 8 * s.cfg.tBit + s.cfg.tLatch + 1 := by
  have hstart := edgesToStart_le h.cfg h.serializer
  have hqueue : s.txq.length * (8 * s.cfg.tBit) ≤ s.cfg.qDepth * (8 * s.cfg.tBit) := Nat.mul_le_mul_right _ h.queue
  rw [Nat.mul_assoc, Nat.succ_mul]
  unfold edgesToLatch
  split <;> omega

/-! The state `t` after an edge at which the serializer steps and nothing is pushed. -/

section Step
variable {t : State} (hcfg : t.cfg = s.cfg) (hser : t.ser = (serializerEdge s).ser)
  (hcnt : t.idleCnt = (serializerEdge s).idleCnt) (htxq : t.txq = if byteStarts s then s.txq.tail else s.txq)
include hcfg hser htxq

/-- Where a byte starts, its eight bit times begin. -/
theorem edgesToLatch_of_byteStarts (h : Inv s) (hstart : byteStarts s) : edgesToLatch t + 1 = edgesToLatch s := by
  obtain ⟨v, q, hq⟩ := List.exists_cons_of_ne_nil hstart.2
  rw [if_pos hstart, hq, List.tail_cons] at htxq
  rw [serializerEdge_of_byteStarts hstart hq, startByte_ser] at hser
  have hone := edgesToStart_of_free h.serializer hstart.1
  have height : edgesToStart t.cfg t.ser = 8 * s.cfg.tBit := by rw [hcfg, hser, edgesToStart_bitCell h.cfg v (by decide)]
  rw [edgesToLatch_sending (s := s) (.inl hstart.2), edgesToLatch_sending (s := t) (.inr (by simp [hser])), hone, height, htxq,
    hcfg, hq, List.length_cons, Nat.succ_mul q.length]
  omega

/-- Within a byte, the end of the byte comes nearer. -/
theorem edgesToLatch_of_busy (h : Inv s) (hfree : ¬ serializerFree s) : edgesToLatch t + 1 = edgesToLatch s := by
  obtain ⟨hbusy, hedges⟩ := edgesToStart_step h.cfg h.serializer hfree
  rw [if_neg fun hstart => hfree hstart.1] at htxq
  rw [← hser] at hbusy hedges
  rw [edgesToLatch_sending (s := s) (.inr fun hp => hfree (.inl hp)), edgesToLatch_sending (s := t) (.inr hbusy), htxq, hcfg]
  omega

include hcnt

/-- With nothing left to send, the idle period begins or goes on (R59). -/
theorem edgesToLatch_of_empty (h : Inv s) (hfree : serializerFree s) (hq : s.txq = []) (hdone : ¬ latchDone s) :
    edgesToLatch t + 1 = edgesToLatch s := by
  have hone := edgesToStart_of_free h.serializer hfree
  rw [if_neg fun hstart => hstart.2 hq, hq] at htxq
  rcases hfree with hp | ⟨hp, hc, hb⟩
  · have hshort : ¬ s.cfg.tLatch ≤ s.idleCnt := fun hfull => hdone ⟨hq, hp, hfull⟩
    rw [serializerEdge_idle_empty hp hq] at hser hcnt
    simp only at hser hcnt
    rw [edgesToLatch_resting hq hp, edgesToLatch_resting htxq (by rw [hser]; exact hp), hcfg, hcnt]
    omega
  · obtain ⟨-, hzero⟩ := h.idleCounter
    rw [serializerEdge_low_rest hp hc hb hq] at hser hcnt
    simp only [hzero (by simp [hp] : s.ser.phase ≠ .idle)] at hser hcnt
    rw [edgesToLatch_sending (s := s) (.inr (by simp [hp])), edgesToLatch_resting htxq (by rw [hser]; rfl), hcfg, hcnt, hone, hq,
      List.length_nil]
    omega

end Step

/-- Every edge of the wait brings the latch one edge nearer. -/
theorem edgesToLatch_step (h : Running s) (hdone : ¬ latchDone s) :
    edgesToLatch (closeEdge s (goOn .latchWait s)) + 1 = edgesToLatch s := by
  have htxq := txq_closeEdge_goOn (c := .latchWait) h.active
  obtain ⟨hser, hcnt⟩ := ser_closeEdge_goOn (c := .latchWait) h.active
  have hcfg : (closeEdge s (goOn .latchWait s)).cfg = s.cfg := by simp
  by_cases hfree : serializerFree s
  · by_cases hq : s.txq = []
    · exact edgesToLatch_of_empty hcfg hser hcnt htxq h.inv hfree hq hdone
    · exact edgesToLatch_of_byteStarts hcfg hser htxq h.inv ⟨hfree, hq⟩
  · exact edgesToLatch_of_busy hcfg hser htxq h.inv hfree

/-- The edge that ends LATCH's wait leaves its response, an empty queue, and the trace `trace` ended by a Latch. -/
def LatchEnded (trace : List Event) (t : State) : Prop :=
  t.rspValid = true ∧ t.rspWord = 0 ∧ t.cu = .ready ∧ t.txq = [] ∧ t.wtrace = trace ++ [.latch]

/-- Where `latch_done` holds, a waiting LATCH ends at this edge. -/
theorem latchWait_ends_of_done (h : Running s) (hcu : s.cu = .latchWait) (hdone : latchDone s) :
    WaitEnds 1 s .latchWait (LatchEnded (s.wtrace ++ s.txq.map Event.byte)) := by
  refine .now (step_of_busy h.inv.cfg h.quiet.1 (by simp [hcu]) (.latches hcu hdone)) ?_
  obtain ⟨hq, hp, -⟩ := hdone
  have he := serializerEdge_idle_empty hp hq
  refine ⟨by simp, by rw [closeEdge_rspWord, respond_rspWord, responseWord_ok], by simp, ?_, ?_⟩
  · simp [withSerializer_txq h.active, he, hq]
  · simp [withSerializer_wtrace h.active, he, hq]

/-- A waiting LATCH ends when the queued bytes have gone out and the idle period is over. -/
theorem latchWait_ends (h : Running s) (hcu : s.cu = .latchWait) :
    WaitEnds (edgesToLatch s) s .latchWait (LatchEnded (s.wtrace ++ s.txq.map Event.byte)) := by
  induction hn : edgesToLatch s generalizing s with
  | zero => exact absurd hn (edgesToLatch_pos s).ne'
  | succ n ih =>
    by_cases hdone : latchDone s
    · rw [edgesToLatch_of_done hdone] at hn
      rw [show n = 0 by omega]
      exact latchWait_ends_of_done h hcu hdone
    · have hst := step_of_busy h.inv.cfg h.quiet.1 (by simp [hcu]) (.latchWaits hcu hdone)
      have hedges := edgesToLatch_step h hdone
      have hends := ih (h.of_step hst) (by simp) (by omega)
      rw [wtrace_closeEdge_goOn h.active] at hends
      exact hends.later hst (waits_closeEdge_goOn _ _)

end LatchWait

/-- Settles O21: the wait takes `edgesToLatch` edges, which its three parts bound. -/
theorem latchWaitIsBounded : Obligations.LatchWaitIsBounded := by
  intro s hinv hquiet hcu
  have heng : s.eng = .initialized := by simpa [commandUnitOk, hcu] using hinv.commandUnit
  have h : Running s := ⟨hinv, hquiet, by simp [heng, Eng.active]⟩
  obtain ⟨t, ht, ⟨hvalid, hword, hready, hq, htrace⟩, hbetween⟩ := latchWait_ends h hcu
  exact ⟨_, t, edgesToLatch_le hinv, ht, hvalid, hword, hready, hq, htrace, hbetween⟩

end Sys2Proof.Machine

/-! The matrix commands (42_matrix.md R115 to R126): the serpentine mapping and its inverse, SET, CLEAR, READ and MAP at the
edge where they are accepted, and FLUSH at its acceptance edge, in its push loop and at its latch test. -/

namespace Sys2Proof.Machine

/-! The serpentine mapping (R122, R126). -/

/-- The place of column `x` along row `row`, counted from the row's lowest index, and back from the place to the column: even
rows run against the columns. -/
def alongRow (side row x : Nat) : Nat := if row % 2 = 0 then side - 1 - x else x

section Serpentine
variable {side row column idx : Nat}

theorem alongRow_lt (hcol : column < side) : alongRow side row column < side := by
  unfold alongRow
  split <;> omega

theorem alongRow_alongRow (hcol : column < side) : alongRow side row (alongRow side row column) = column := by
  unfold alongRow
  split <;> omega

/-- The pixels below row `row`, its own, and those above make the whole panel. -/
theorem panel_eq (hrow : row < side) : side * side = row * side + side + (side - 1 - row) * side := by
  obtain ⟨k, rfl⟩ := Nat.exists_eq_add_of_lt hrow
  rw [show row + k + 1 - 1 - row = k by omega]
  ring

/-- The mapping in closed form (R122): rows from the last one up, each row in its own direction. -/
theorem serpentine_eq (hrow : row < side) (hcol : column < side) :
    serpentine side row column = (side - 1 - row) * side + alongRow side row column := by
  have hpanel := panel_eq hrow
  unfold serpentine alongRow
  split <;> omega

theorem serpentine_lt (hrow : row < side) (hcol : column < side) : serpentine side row column < side * side := by
  have hpanel := panel_eq hrow
  have halong := alongRow_lt (row := row) hcol
  rw [serpentine_eq hrow hcol]
  omega

theorem unmap_eq (side idx : Nat) :
    unmap side idx = (side - 1 - idx / side, alongRow side (side - 1 - idx / side) (idx % side)) := rfl

/-- `unmap` undoes the mapping. -/
theorem unmap_serpentine (hrow : row < side) (hcol : column < side) :
    unmap side (serpentine side row column) = (row, column) := by
  have halong := alongRow_lt (row := row) hcol
  have hdiv : serpentine side row column / side = side - 1 - row := by
    rw [serpentine_eq hrow hcol, Nat.add_comm, Nat.add_mul_div_right _ _ (by omega), Nat.div_eq_of_lt halong, Nat.zero_add]
  have hmod : serpentine side row column % side = alongRow side row column := by
    rw [serpentine_eq hrow hcol, Nat.mul_add_mod', Nat.mod_eq_of_lt halong]
  rw [unmap_eq, hdiv, hmod, Nat.sub_sub_self (Nat.le_sub_one_of_lt hrow), alongRow_alongRow hcol]

/-- The mapping undoes `unmap`, which gives a coordinate of the panel. -/
theorem serpentine_unmap (hside : 1 ≤ side) (hidx : idx < side * side) :
    (unmap side idx).1 < side ∧ (unmap side idx).2 < side ∧ serpentine side (unmap side idx).1 (unmap side idx).2 = idx := by
  have hdiv : idx / side < side := Nat.div_lt_of_lt_mul hidx
  have hmod : idx % side < side := Nat.mod_lt _ hside
  have hrow : side - 1 - idx / side < side := Nat.lt_of_le_of_lt (Nat.sub_le _ _) (Nat.sub_one_lt_of_lt hside)
  have hcol := alongRow_lt (row := side - 1 - idx / side) hmod
  rw [unmap_eq]
  refine ⟨hrow, hcol, ?_⟩
  rw [serpentine_eq hrow hcol, alongRow_alongRow hmod, Nat.sub_sub_self (Nat.le_sub_one_of_lt hdiv), Nat.div_add_mod']

end Serpentine

/-- Settles O33: the mapping and `unmap` undo each other, and index 0 is at the end of the last row, in closed form. -/
theorem serpentineIsABijection : Obligations.SerpentineIsABijection := by
  intro side hside
  refine ⟨fun row column hrow hcol => ⟨serpentine_lt hrow hcol, unmap_serpentine hrow hcol⟩,
    fun idx hidx => serpentine_unmap hside hidx, fun hodd => ?_, fun heven => ?_⟩
  · have hlast : (side - 1) % 2 = 0 := by omega
    rw [serpentine_eq (by omega) (by omega), Nat.sub_self, Nat.zero_mul, alongRow, if_pos hlast, Nat.sub_self]
  · have hlast : ¬ (side - 1) % 2 = 0 := by omega
    rw [serpentine_eq (by omega) (by omega), Nat.sub_self, Nat.zero_mul, alongRow, if_neg hlast]

/-! SET, CLEAR, READ and MAP (R115 to R117, R122). -/

section OneEdge
variable {s : State} {index row column : Nat} {r g b : Byte} {w : RspWord}

/-- A response OK changes the response register alone. -/
theorem respond_eq_onlyResponse (st : Status) (data : RspData) (s : State) :
    respond st data s = onlyResponse (responseWord st data) s := rfl

theorem raise_outOfRange (s : State) : raise .outOfRange s = onlyResponse 0x02000000 s := by
  rw [raise_eq_onlyResponse, responseWord_outOfRange]

/-- SET at an index that does not exist answers OUT_OF_RANGE (R115). -/
theorem exec_set_outOfRange (heng : s.eng = .initialized) (hi : s.cfg.n ≤ index) :
    exec (.set index r g b) s = .next (onlyResponse 0x02000000 s) := by
  rw [← raise_outOfRange]
  simp only [exec, execSet, runningCheck_eq_none.mpr heng, if_neg (Nat.not_lt.mpr hi)]

/-- READ at an index that does not exist answers OUT_OF_RANGE (R117). -/
theorem exec_read_outOfRange (heng : s.eng = .initialized) (hi : s.cfg.n ≤ index) :
    exec (.read index) s = .next (onlyResponse 0x02000000 s) := by
  rw [← raise_outOfRange]
  simp only [exec, execRead, runningCheck_eq_none.mpr heng, if_neg (Nat.not_lt.mpr hi)]

theorem mapCheck_of_working (heng : s.eng = .uninitialized ∨ s.eng = .initialized) : mapCheck s.eng = none :=
  mapCheck_eq_none.mpr (by rcases heng with heng | heng <;> simp [heng])

/-- MAP of a coordinate of the panel answers with its index (R122). -/
theorem exec_map_inRange (heng : s.eng = .uninitialized ∨ s.eng = .initialized) (hrow : row < s.cfg.side)
    (hcol : column < s.cfg.side) :
    exec (.map row column) s = .next (onlyResponse
      ((0 : BitVec 16) ++ BitVec.ofNat 16 (serpentine s.cfg.side row column)) s) := by
  rw [← responseWord_indexData, ← respond_eq_onlyResponse]
  simp only [exec, execMap, mapCheck_of_working heng, if_pos (show coordInRange s.cfg row column from ⟨hrow, hcol⟩)]

/-- MAP of a coordinate off the panel answers OUT_OF_RANGE (R122). -/
theorem exec_map_outOfRange (heng : s.eng = .uninitialized ∨ s.eng = .initialized)
    (hout : s.cfg.side ≤ row ∨ s.cfg.side ≤ column) : exec (.map row column) s = .next (onlyResponse 0x02000000 s) := by
  have hoff : ¬ coordInRange s.cfg row column := fun ⟨hrow, hcol⟩ => by omega
  rw [← raise_outOfRange]
  simp only [exec, execMap, mapCheck_of_working heng, if_neg hoff]

end OneEdge

/-- Settles O23: in range the buffer is the written one, whose reads are `Memory.read_write`. -/
theorem setWritesOnePixel : Obligations.SetWritesOnePixel := by
  intro s index r g b
  refine ⟨fun heng hi hwf => ⟨s.buf.write index ⟨r, g, b⟩, ?_, Memory.write_wf hwf _ _, fun j =>
    Memory.read_write hwf index j _⟩, exec_set_outOfRange, exec_uninitialized nofun nofun, exec_failed _⟩
  rw [exec_set_initialized r g b heng hi, respond_eq_onlyResponse, responseWord_ok]
  rfl

/-- Settles O24: the cleared buffer lists nothing, so every pixel reads (0, 0, 0). -/
theorem clearZeroesEveryPixel : Obligations.ClearZeroesEveryPixel := by
  intro s
  refine ⟨fun heng => ⟨[], ?_, Memory.wf_nil, fun _ => rfl⟩, exec_uninitialized nofun nofun, exec_failed _⟩
  rw [exec_clear_initialized heng, respond_eq_onlyResponse, responseWord_ok]
  rfl

/-- Settles O25: the answer is the pixel's response word, and only the response register is written. -/
theorem readReturnsThePixel : Obligations.ReadReturnsThePixel := by
  intro s index
  refine ⟨fun heng hi => ?_, exec_read_outOfRange, exec_uninitialized nofun nofun, exec_failed _⟩
  rw [exec_read_initialized heng hi, respond_eq_onlyResponse, responseWord_pixelData]
  rfl

/-- Settles O32: the index is `serpentine`, by its definition and in closed form. -/
theorem mapComputesTheSerpentineIndex : Obligations.MapComputesTheSerpentineIndex := by
  intro s row column hside
  refine ⟨fun heng hrow hcol => ?_, exec_map_outOfRange, exec_failed _⟩
  have hpanel := panel_eq hrow
  have hlt := serpentine_lt hrow hcol
  have hmax : s.cfg.side * s.cfg.side ≤ 255 * 255 := Nat.mul_le_mul hside hside
  have heq := serpentine_eq hrow hcol
  refine ⟨_, exec_map_inRange heng hrow hcol, hlt, by omega, fun heven => ?_, fun hodd => ?_, heq⟩
  · rw [alongRow, if_pos heven] at heq
    omega
  · rw [alongRow, if_neg (by omega)] at heq
    omega

/-! FLUSH (R119 to R121). -/

/-- A panel has a pixel (R6, R7). -/
theorem n_pos_of_wf {cfg : Config} (h : cfg.Wf) : 0 < cfg.n := by
  obtain ⟨⟨hside, -⟩, -⟩ := h
  exact Nat.mul_pos hside hside

section Flush
variable {s t : State} {i : Nat} {ch : Chan}

/-- With space the push loop pushes the channel it is at, and moves on (R120). -/
theorem flushPush_of_space (hi : i < s.cfg.n) (hspace : hasSpace s) :
    flushPush i ch s = .next { s with
      txq := s.txq ++ [chanOf (s.buf.read i) ch], cu := afterPush s.cfg.n i ch, rspValid := false, claimPulse := false } := by
  rw [flushPush, if_pos hspace, if_pos hi]
  rfl

/-- Without space the push loop stays at its channel (R120). -/
theorem flushPush_of_full (hfull : s.cfg.qDepth ≤ s.txq.length) : flushPush i ch s = .next (goOn (.flushPush i ch) s) :=
  if_neg (Nat.not_lt.mpr hfull)

theorem commandUnit_flushPush (hcu : s.cu = .flushPush i ch) : commandUnit s = flushPush i ch s := by
  rw [commandUnit_of_busy (by simp [hcu])]
  simp only [continueCommand, hcu]

theorem commandUnit_flushLatch (hcu : s.cu = .flushLatch) : commandUnit s = .next (flushLatchTest s) := by
  rw [commandUnit_of_busy (by simp [hcu])]
  simp only [continueCommand, hcu]

theorem flushLatchTest_of_done (hdone : latchDone s) :
    flushLatchTest s = { s with
      eng := .initialized, wtrace := s.wtrace ++ [.latch], cu := .ready, rspValid := true, rspWord := 0,
      claimPulse := false } := by
  rw [flushLatchTest, if_pos hdone, respond, responseWord_ok]
  rfl

theorem flushLatchTest_of_not_done (hdone : ¬ latchDone s) : flushLatchTest s = goOn .flushLatch s := if_neg hdone

/-- After blue comes the green of the next pixel (R120). -/
theorem afterPush_blue_next {n : Nat} (hi : i + 1 < n) : afterPush n i .blue = .flushPush (i + 1) .green := by
  simp only [afterPush, nextPush, if_pos hi]

/-- After the blue of the last pixel comes the latch (R120). -/
theorem afterPush_blue_last {n : Nat} (hi : i + 1 = n) : afterPush n i .blue = .flushLatch := by
  simp only [afterPush, nextPush, if_neg (Nat.not_lt.mpr hi.ge)]

end Flush

/-- Settles O27: the acceptance edge is the first push, or the first edge that waits for space. -/
theorem flushStartsStreaming : Obligations.FlushStartsStreaming := by
  intro s hcfg
  refine ⟨fun heng hspace => ?_, fun heng hfull => ?_, exec_uninitialized nofun nofun, exec_failed _⟩
  · rw [exec_flush_initialized heng, flushPush_of_space (s := { s with eng := .streaming }) (n_pos_of_wf hcfg) hspace]
    rfl
  · rw [exec_flush_initialized heng, flushPush_of_full (s := { s with eng := .streaming }) hfull]
    rfl

/-- Settles O28: each push by its channel, and what `afterPush` moves on to. -/
theorem flushPushesChannelByChannel : Obligations.FlushPushesChannelByChannel := by
  intro s i hi
  refine ⟨fun hcu hspace => ?_, fun hcu hspace => ?_, fun hcu hnext hspace => ?_, fun hcu hlast hspace => ?_,
    fun ch hcu hfull => ?_⟩
  · rw [commandUnit_flushPush hcu, flushPush_of_space hi hspace]
    rfl
  · rw [commandUnit_flushPush hcu, flushPush_of_space hi hspace]
    rfl
  · rw [commandUnit_flushPush hcu, flushPush_of_space hi hspace, afterPush_blue_next hnext, chanOf]
  · rw [commandUnit_flushPush hcu, flushPush_of_space hi hspace, afterPush_blue_last hlast, chanOf]
  · rw [commandUnit_flushPush hcu, flushPush_of_full hfull, goOn_same hcu]

/-- Settles O29: the latch test, by `latch_done`. -/
theorem flushEndsWithOneLatch : Obligations.FlushEndsWithOneLatch := by
  intro s hcu
  refine ⟨fun hq hidle hfull => ?_, fun hdone => ?_⟩
  · rw [commandUnit_flushLatch hcu, flushLatchTest_of_done ⟨hq, hidle, hfull⟩]
  · rw [commandUnit_flushLatch hcu, flushLatchTest_of_not_done hdone, goOn_same hcu]

end Sys2Proof.Machine

/-! FLUSH from its acceptance to its response (42_matrix.md R119 to R121, R124, R125): a FLUSH in progress goes on exactly as a
LATCH would that waits behind all the bytes the FLUSH still owes (`asLatchWait_closeEdge`), so it ends after `edgesToLatch`
edges of that wait, and each byte starts when it would there. -/

namespace Sys2Proof.Machine

/-! The bytes of a frame and what the block owes (R44, R120). -/

section Owed
variable {s u : State}

theorem length_frameBytes (cfg : Config) (m : Memory) : (frameBytes cfg m).length = 3 * cfg.n := by
  simp [frameBytes, pixelBytes, Nat.mul_comm]

/-- What the command unit pushes stands at the tail of the queue (R60). -/
theorem UnitEffect.txq_eq_append (hu : UnitEffect s u) (ha : s.eng.active = true) :
    u.txq = s.txq ++ appended s.txq u.txq := by
  rcases hu.txq_cases ha with hq | ⟨v, -, hq⟩ <;> simp [hq]

/-- A byte that starts leaves the queue at its head, whatever stands behind. -/
theorem queueAfter_started_append (s : State) (q : List Byte) :
    queueAfter (serializerEdge s).started (s.txq ++ q) = queueAfter (serializerEdge s).started s.txq ++ q := by
  by_cases hstart : byteStarts s
  · obtain ⟨v, r, hr⟩ := List.exists_cons_of_ne_nil hstart.2
    rw [serializerEdge_of_byteStarts hstart hr, hr]
    rfl
  · rw [(serializerEdge_of_not_byteStarts hstart).1]
    rfl

/-- Closing an edge takes the byte that starts from those the command unit owes. -/
theorem bytesOwed_closeEdge (hu : UnitEffect s u) (ha : s.eng.active = true) :
    bytesOwed (closeEdge s u) = queueAfter (serializerEdge s).started (bytesOwed u) := by
  rw [bytesOwed_eq, bytesOwed_eq u, closeEdge_txq, withSerializer_txq ha, closeEdge_cfg, closeEdge_buf, closeEdge_cu,
    hu.txq_eq_append ha, appended_append, List.append_assoc, List.append_assoc, queueAfter_started_append]

/-- A byte that starts goes from the bytes owed to the trace, and the order of the two together stays (R62). -/
theorem trace_owed_closeEdge (hu : UnitEffect s u) (ha : s.eng.active = true) (hw : u.wtrace = s.wtrace) :
    (closeEdge s u).wtrace ++ (bytesOwed (closeEdge s u)).map Event.byte = s.wtrace ++ (bytesOwed u).map Event.byte := by
  rw [bytesOwed_closeEdge hu ha, closeEdge_wtrace, withSerializer_wtrace ha, hw, appended_self, List.append_nil,
    List.append_assoc]
  by_cases hstart : byteStarts s
  · obtain ⟨v, q, hq⟩ := List.exists_cons_of_ne_nil hstart.2
    rw [serializerEdge_of_byteStarts hstart hq, bytesOwed_eq, hu.txq_eq_append ha, hq]
    rfl
  · rw [(serializerEdge_of_not_byteStarts hstart).1]
    rfl

/-- After a push of the FLUSH loop, made or still waiting for space, the queue is not empty (R120). -/
theorem txq_ne_nil_of_flushPush {i : Nat} {ch : Chan} (hcfg : s.cfg.Wf) (h : flushPush i ch s = .next u) : u.txq ≠ [] := by
  obtain ⟨-, -, hdepth, -⟩ := hcfg
  rcases flushPush_next h with ⟨-, -, rfl⟩ | ⟨hfull, rfl⟩
  · simp
  · exact fun hq => hfull (by rw [hasSpace, show s.txq = [] from hq]; exact hdepth)

end Owed

/-! A FLUSH in progress. -/

/-- Where the serializer could start a byte and the block owes one, the queue holds one: no byte starts late. -/
def Fed (s : State) : Prop := serializerFree s → bytesOwed s ≠ [] → s.txq ≠ []

/-- A FLUSH is in progress. -/
structure Flushing (s : State) : Prop where
  running   : Running s
  streaming : s.eng = .streaming
  fed       : Fed s

/-- The wait of a LATCH that a FLUSH in progress amounts to: all the bytes owed stand in a queue deep enough to hold them. -/
def asLatchWait (s : State) : State :=
  { s with
    cfg := { s.cfg with qDepth := s.cfg.qDepth + 3 * s.cfg.n }
    eng := .initialized
    cu := .latchWait
    txq := bytesOwed s }

section Flush
variable {s t u : State}

theorem fed_closeEdge (hu : UnitEffect s u) (ha : s.eng.active = true) (h : bytesOwed u ≠ [] → u.txq ≠ []) :
    Fed (closeEdge s u) := by
  intro hfree howed
  rw [bytesOwed_closeEdge hu ha] at howed
  rw [closeEdge_txq, withSerializer_txq ha]
  by_cases hstart : byteStarts s
  · obtain ⟨v, q, hq⟩ := List.exists_cons_of_ne_nil hstart.2
    simp [serializerFree, withSerializer_ser ha, serializerEdge_of_byteStarts hstart hq] at hfree
  · rw [(serializerEdge_of_not_byteStarts hstart).1, queueAfter_none] at howed ⊢
    rw [← hu.txq_eq_append ha]
    exact h howed

/-- In STREAMING the command unit pushes or waits for the latch (R32). -/
theorem Flushing.cu_cases (h : Flushing s) : (∃ i ch, s.cu = .flushPush i ch ∧ i < s.cfg.n) ∨ s.cu = .flushLatch := by
  have hok := h.running.inv.commandUnit
  cases hcu : s.cu with
  | flushPush i ch => exact .inl ⟨i, ch, rfl, by simpa [commandUnitOk, hcu, h.streaming] using hok⟩
  | flushLatch => exact .inr rfl
  | ready | emitWait | latchWait => simp [commandUnitOk, hcu, h.streaming] at hok

theorem Flushing.length_bytesOwed_le (h : Flushing s) : (bytesOwed s).length ≤ s.txq.length + 3 * s.cfg.n := by
  rcases h.cu_cases with ⟨i, ch, hcu, -⟩ | hcu <;> simp [bytesOwed, hcu, bytesFrom, length_frameBytes]

theorem Flushing.busy (h : Flushing s) : s.cu ≠ .ready := by
  rcases h.cu_cases with ⟨i, ch, hcu, -⟩ | hcu <;> simp [hcu]

theorem Flushing.rspValid_eq (h : Flushing s) : s.rspValid = false := by
  obtain ⟨hvalid, -⟩ := h.running.inv.response
  exact Bool.eq_false_iff.mpr fun hv => h.busy (hvalid hv)

/-- The wait that stands for a FLUSH in progress is a state of a running engine. -/
theorem Flushing.running_asLatchWait (h : Flushing s) : Running (asLatchWait s) where
  inv := {
    cfg := by
      obtain ⟨hside, hunits, hdepth, hrest⟩ := h.running.inv.cfg
      exact ⟨hside, hunits, Nat.le_add_right_of_le hdepth, hrest⟩
    buffer := h.running.inv.buffer
    queue := Nat.le_trans h.length_bytesOwed_le (Nat.add_le_add_right h.running.inv.queue _)
    serializer := h.running.inv.serializer
    idleCounter := h.running.inv.idleCounter
    commandUnit := rfl
    handle := ⟨fun _ => h.running.inv.handle.1 h.running.active, nofun⟩
    response := by
      obtain ⟨-, hst, hdata, hpulse⟩ := h.running.inv.response
      exact ⟨fun hv => absurd (h.rspValid_eq.symm.trans hv) Bool.false_ne_true, hst, hdata, fun hp => ⟨(hpulse hp).1, rfl⟩⟩ }
  quiet := h.running.quiet
  active := rfl

/-- Being fed, the serializer steps as if all the bytes owed were queued. -/
theorem Flushing.serializerEdge_asLatchWait (h : Flushing s) : serializerEdge (asLatchWait s) = serializerEdge s := by
  have howed : serializerFree s → s.txq = [] → bytesOwed s = [] := fun hfree hq =>
    Classical.byContradiction fun hne => h.fed hfree hne hq
  rcases serializerEdge_cases s with ⟨v, q, hq, he, hfree⟩ | ⟨hq, hp, he⟩ | ⟨hp, hc, he⟩ | ⟨hp, hc, he⟩ | ⟨hp, hc, he⟩ |
    ⟨hp, hc, hb, he⟩ | ⟨hq, hp, hc, hb, he⟩ <;> rw [he]
  · have hhead : bytesOwed s = v :: (q ++ bytesToPush s.cfg s.buf s.cu) := by rw [bytesOwed_eq, hq, List.cons_append]
    exact serializerEdge_of_byteStarts (s := asLatchWait s) ⟨hfree, by simp [asLatchWait, hhead]⟩ hhead
  · exact serializerEdge_idle_empty (s := asLatchWait s) hp (howed (.inl hp) hq)
  · exact serializerEdge_high_count (s := asLatchWait s) hp hc
  · exact serializerEdge_high_end (s := asLatchWait s) hp hc
  · exact serializerEdge_low_count (s := asLatchWait s) hp hc
  · exact serializerEdge_low_nextBit (s := asLatchWait s) hp hc hb
  · exact serializerEdge_low_rest (s := asLatchWait s) hp hc hb (howed (.inr ⟨hp, hc, hb⟩) hq)

/-- Before its latch is due, a FLUSH at any edge pushes or waits, and writes nothing but the queue (R120, R121). -/
theorem Flushing.goesOn (h : Flushing s) (hu : ContinueEffect s u) (hdone : ¬ latchDone (asLatchWait s)) :
    (∃ c q, u = goOn c { s with txq := q }) ∧ bytesOwed u = bytesOwed s ∧ (bytesOwed u ≠ [] → u.txq ≠ []) := by
  have hstep := hu.continueCommand_eq
  rcases h.cu_cases with ⟨i, ch, hcu, -⟩ | hcu
  · refine ⟨?_, bytesOwed_continueCommand hstep, fun _ => ?_⟩ <;> simp only [continueCommand, hcu] at hstep
    · rcases flushPush_next hstep with ⟨-, -, rfl⟩ | ⟨-, rfl⟩ <;> exact ⟨_, _, rfl⟩
    · exact txq_ne_nil_of_flushPush h.running.inv.cfg hstep
  · have howed : bytesOwed s = s.txq := by simp only [bytesOwed, hcu]
    have hwait : ¬ latchDone s := by rwa [latchDone, ← howed]
    simp only [continueCommand, hcu, flushLatchTest_of_not_done hwait] at hstep
    cases hstep
    exact ⟨⟨_, _, rfl⟩, howed.symm, id⟩

/-- An edge of a FLUSH is the edge of the LATCH wait that it amounts to. -/
theorem Flushing.asLatchWait_closeEdge {c : CmdUnit} {q : List Byte} (h : Flushing s) (hu : UnitEffect s u)
    (hgo : u = goOn c { s with txq := q }) (howed : bytesOwed u = bytesOwed s) :
    asLatchWait (closeEdge s u) = closeEdge (asLatchWait s) (goOn .latchWait (asLatchWait s)) := by
  have hq := bytesOwed_closeEdge hu h.running.active
  have hports : nextInputs (asLatchWait s) = nextInputs s := by
    have hheld : wordHeld (asLatchWait s) ↔ wordHeld s := by simp [wordHeld, asLatchWait, h.busy]
    simp only [nextInputs, hheld]
    rfl
  have hon : (asLatchWait s).eng.active = true := rfl
  rw [asLatchWait, hq, howed]
  subst hgo
  simp only [closeEdge, withSerializer, hon, h.running.active, if_true, hports, h.serializerEdge_asLatchWait]
  simp [asLatchWait, goOn]

/-- The edges to come, this one included, up to the one that ends a FLUSH in progress. -/
def edgesToFlushEnd (s : State) : Nat := edgesToLatch (asLatchWait s)

/-- A FLUSH in progress in `s` is still in progress in `t`, `k` edges later: the buffer is as it was, the end is `k` edges
nearer, and the bytes that have started are the first of those that were owed. -/
structure FlushGoesOn (k : Nat) (s t : State) : Prop where
  flushing : Flushing t
  buffer   : t.buf = s.buf
  edges    : edgesToFlushEnd t + k = edgesToFlushEnd s
  bytes    : t.wtrace ++ (bytesOwed t).map Event.byte = s.wtrace ++ (bytesOwed s).map Event.byte

/-- Before its latch is due a FLUSH goes on at any edge. -/
theorem Flushing.exists_next (h : Flushing s) (hdone : ¬ latchDone (asLatchWait s)) :
    ∃ t, step s = .next t ∧ FlushGoesOn 1 s t := by
  obtain ⟨t, hst⟩ := h.running.inv.exists_step
  obtain ⟨u, hu, rfl⟩ := unitEffect_of_step h.running.quiet.1 hst
  obtain ⟨⟨c, q, hgo⟩, howed, hqueued⟩ := h.goesOn (hu.continue_of_busy h.busy) hdone
  have hwtrace : u.wtrace = s.wtrace := by rw [hgo]; rfl
  refine ⟨_, hst, ⟨h.running.of_step hst, ?_, fed_closeEdge hu h.running.active hqueued⟩, ?_, ?_, ?_⟩
  · rw [closeEdge_eng, hgo]
    exact h.streaming
  · rw [closeEdge_buf, hgo]
    rfl
  · rw [edgesToFlushEnd, h.asLatchWait_closeEdge hu hgo howed]
    exact edgesToLatch_step h.running_asLatchWait hdone
  · rw [trace_owed_closeEdge hu h.running.active hwtrace, howed]

/-- A FLUSH goes on until its last edge. -/
theorem Flushing.runs {k : Nat} (h : Flushing s) (hk : k < edgesToFlushEnd s) :
    ∃ t, runSteps k s = .next t ∧ FlushGoesOn k s t := by
  induction k with
  | zero => exact ⟨s, rfl, h, rfl, rfl, rfl⟩
  | succ k ih =>
    obtain ⟨t, ht, hgo⟩ := ih (by omega)
    have hleft := hgo.edges
    have hdone : ¬ latchDone (asLatchWait t) := fun hdone => by
      have hone := edgesToLatch_of_done hdone
      rw [edgesToFlushEnd] at hleft
      omega
    obtain ⟨u, hu, hnext⟩ := hgo.flushing.exists_next hdone
    have hone := hnext.edges
    exact ⟨u, by rw [runSteps_step ht, hu], hnext.flushing, hnext.buffer.trans hgo.buffer, by omega,
      hnext.bytes.trans hgo.bytes⟩

/-- At its last edge a FLUSH owes nothing, and the idle period is over. -/
theorem Flushing.done_of_last (h : Flushing s) (hlast : edgesToFlushEnd s = 1) :
    bytesOwed s = [] ∧ s.ser.phase = .idle ∧ s.cfg.tLatch ≤ s.idleCnt := by
  change latchDone (asLatchWait s)
  by_contra hdone
  have hnext := edgesToLatch_step h.running_asLatchWait hdone
  have hpos := edgesToLatch_pos (closeEdge (asLatchWait s) (goOn .latchWait (asLatchWait s)))
  rw [edgesToFlushEnd] at hlast
  omega

/-- The block after the edge that ends a FLUSH: INITIALIZED with the response OK, nothing queued, and the trace `trace` ended
by a Latch. -/
structure FlushEnded (trace : List Event) (m : Memory) (t : State) : Prop where
  rspValid : t.rspValid = true
  rspWord  : t.rspWord = 0
  ready    : t.cu = .ready
  eng      : t.eng = .initialized
  buffer   : t.buf = m
  queue    : t.txq = []
  trace    : t.wtrace = trace ++ [.latch]

/-- While a FLUSH has a pixel to push, it owes bytes. -/
theorem Flushing.cu_of_nothing_owed (h : Flushing s) (howed : bytesOwed s = []) : s.cu = .flushLatch := by
  rcases h.cu_cases with ⟨i, ch, hcu, hi⟩ | hcu
  · simp [bytesOwed, hcu, bytesFrom_eq_cons s.cfg s.buf ch hi] at howed
  · exact hcu

/-- The last edge of a FLUSH (R121). -/
theorem Flushing.ends (h : Flushing s) (hlast : edgesToFlushEnd s = 1) :
    ∃ t, step s = .next t ∧ FlushEnded s.wtrace s.buf t := by
  obtain ⟨howed, hp, hfull⟩ := h.done_of_last hlast
  have hcu := h.cu_of_nothing_owed howed
  have hq : s.txq = [] := by simpa only [bytesOwed, hcu] using howed
  have he := serializerEdge_idle_empty hp hq
  refine ⟨_, step_of_busy h.running.inv.cfg h.running.quiet.1 h.busy (.flushEnds hcu ⟨hq, hp, hfull⟩), ?_⟩
  exact {
    rspValid := by simp
    rspWord := by rw [closeEdge_rspWord, respond_rspWord, responseWord_ok]
    ready := by simp
    eng := by simp
    buffer := by simp
    queue := by simp [withSerializer_txq h.running.active, he, hq]
    trace := by simp [withSerializer_wtrace h.running.active, he] }

/-- A FLUSH runs to its end, `edgesToFlushEnd` edges from now: what it owes goes out, then one Latch. -/
theorem Flushing.runs_to_end (h : Flushing s) :
    ∃ k t, edgesToFlushEnd s = k + 1 ∧ runSteps (k + 1) s = .next t ∧
      FlushEnded (s.wtrace ++ (bytesOwed s).map Event.byte) s.buf t := by
  obtain ⟨k, hk⟩ := Nat.exists_eq_add_of_lt (edgesToLatch_pos (asLatchWait s))
  rw [Nat.zero_add] at hk
  obtain ⟨u, hu, hgo⟩ := h.runs (k := k) (by rw [edgesToFlushEnd]; omega)
  have hlast : edgesToFlushEnd u = 1 := by
    have hedges := hgo.edges
    rw [show edgesToFlushEnd s = k + 1 from hk] at hedges
    omega
  obtain ⟨t, ht, hend⟩ := hgo.flushing.ends hlast
  obtain ⟨howed, -⟩ := hgo.flushing.done_of_last hlast
  have htrace := hgo.bytes
  rw [howed, List.map_nil, List.append_nil] at htrace
  rw [htrace, hgo.buffer] at hend
  exact ⟨k, t, hk, by rw [runSteps_step hu, ht], hend⟩

/-- The acceptance edge of a FLUSH (R119): its frame is owed behind what the queue holds. -/
theorem flushing_of_accepted (h : Inv s) (hquiet : noReset s) (hacc : acceptsCommand s .flush) (heng : s.eng = .initialized) :
    ∃ t, step s = .next t ∧ Flushing t ∧ t.buf = s.buf ∧ t.ser = (serializerEdge s).ser ∧
      bytesOwed t = queueAfter (serializerEdge s).started (s.txq ++ frameBytes s.cfg s.buf) ∧
      t.wtrace ++ (bytesOwed t).map Event.byte = s.wtrace ++ (s.txq ++ frameBytes s.cfg s.buf).map Event.byte := by
  have hrun : Running s := ⟨h, hquiet, by rw [heng]; rfl⟩
  obtain ⟨hcfg, hr, hport, hdec⟩ := hacc
  obtain ⟨t, hst⟩ := h.exists_step
  obtain ⟨u, hcu, rfl⟩ := exists_commandUnit_of_step hr hst
  have hu := commandUnit_effect hcu
  rw [commandUnit_of_decode hport hdec, exec_flush_initialized heng] at hcu
  have howed : bytesOwed u = s.txq ++ frameBytes s.cfg s.buf := bytesOwed_flushPush hcu
  obtain ⟨heng', hbuf, hwtrace⟩ : u.eng = .streaming ∧ u.buf = s.buf ∧ u.wtrace = s.wtrace := by
    rcases flushPush_next hcu with ⟨-, -, rfl⟩ | ⟨-, rfl⟩ <;> exact ⟨rfl, rfl, rfl⟩
  refine ⟨_, hst, ⟨hrun.of_step hst, ?_, ?_⟩, ?_, withSerializer_ser hrun.active, ?_, ?_⟩
  · rw [closeEdge_eng, heng']
  · exact fed_closeEdge hu hrun.active fun _ => txq_ne_nil_of_flushPush (s := { s with eng := .streaming }) hcfg hcu
  · rw [closeEdge_buf, hbuf]
  · rw [bytesOwed_closeEdge hu hrun.active, howed]
  · rw [trace_owed_closeEdge hu hrun.active hwtrace, howed]

end Flush

/-! The frame that a FLUSH latches (R62). -/

theorem latchedFrom_append (cur : List Byte) (xs ys : List Event) :
    latchedFrom cur (xs ++ ys) = latchedFrom cur xs ++ latchedFrom (openFrom cur xs) ys := by
  induction xs generalizing cur with
  | nil => rfl
  | cons e xs ih => cases e <;> simp [latchedFrom, openFrom, ih]

theorem latchedFrom_bytes_latch (cur bytes : List Byte) :
    latchedFrom cur (bytes.map Event.byte ++ [.latch]) = [cur ++ bytes] := by
  induction bytes generalizing cur with
  | nil => simp [latchedFrom]
  | cons v bytes ih => simp [latchedFrom, ih]

/-- Bytes and a Latch behind a trace latch one frame: its open frame, then the bytes. -/
theorem latchedFrames_bytes_latch (trace : List Event) (bytes : List Byte) :
    latchedFrames (trace ++ bytes.map Event.byte ++ [.latch]) = latchedFrames trace ++ [openFrame trace ++ bytes] := by
  rw [List.append_assoc, latchedFrames, latchedFrom_append, latchedFrom_bytes_latch]
  rfl

/-- Settles O30: the acceptance edge begins a FLUSH that owes the queue's bytes and the frame, and it runs to its end. -/
theorem flushSendsTheWholeBuffer : Obligations.FlushSendsTheWholeBuffer := by
  intro s hinv hquiet hacc heng
  obtain ⟨r, hst, hflush, hbuf, -, -, hbytes⟩ := flushing_of_accepted hinv hquiet hacc heng
  obtain ⟨k, t, hk, ht, hend⟩ := hflush.runs_to_end
  rw [hbytes, hbuf] at hend
  refine ⟨k + 1, t, by rw [runSteps_succ hst, ht], hend.rspValid, hend.rspWord, hend.ready, hend.eng, hend.buffer, hend.queue,
    hend.trace, ?_, fun j hj hjk => ?_⟩
  · rw [hend.trace, latchedFrames_bytes_latch, List.append_assoc]
  · obtain ⟨j, rfl⟩ := Nat.exists_eq_add_of_le' hj
    obtain ⟨u, hu, hgo⟩ := hflush.runs (k := j) (by omega)
    exact ⟨u, by rw [runSteps_succ hst, hu], hgo.flushing.streaming, hgo.flushing.busy, hgo.flushing.rspValid_eq,
      hgo.buffer.trans hbuf⟩

/-! The time of a FLUSH (R125). -/

section Time
variable {s t : State} {r e : Nat}

/-- While there is something to send, the edges to come are those of the byte on the line, of the bytes owed and of the idle
period, and that of the latch. -/
theorem edgesToFlushEnd_sending (h : bytesOwed s ≠ [] ∨ s.ser.phase ≠ .idle) :
    edgesToFlushEnd s = edgesToStart s.cfg s.ser + (bytesOwed s).length * (8 * s.cfg.tBit) + s.cfg.tLatch + 1 :=
  edgesToLatch_sending (s := asLatchWait s) h

theorem edgesToFlushEnd_resting (howed : bytesOwed s = []) (hp : s.ser.phase = .idle) :
    edgesToFlushEnd s = s.cfg.tLatch - s.idleCnt + 1 :=
  edgesToLatch_resting (s := asLatchWait s) howed hp

/-- Before the last `T_LATCH + 1` edges there is something to send. -/
theorem sending_of_edges (h : s.cfg.tLatch + 1 < edgesToFlushEnd s) : bytesOwed s ≠ [] ∨ s.ser.phase ≠ .idle := by
  by_contra hnone
  rw [not_or, not_not, not_not] at hnone
  obtain ⟨howed, hp⟩ := hnone
  have hrest := edgesToFlushEnd_resting howed hp
  omega

/-- In the last `T_LATCH + 1` edges the serializer is IDLE. -/
theorem Flushing.idle_of_edges (h : Flushing s) (hedges : edgesToFlushEnd s ≤ s.cfg.tLatch + 1) : s.ser.phase = .idle := by
  by_contra hp
  have hsend := edgesToFlushEnd_sending (.inr hp)
  have hpos := edgesToStart_pos h.running.inv.serializer
  omega

/-- The edges to come tell the bytes owed: a byte takes `8 * T_BIT` edges, and the one on the line has from 1 to that many
left. -/
theorem Flushing.length_bytesOwed (h : Flushing s) (he : 1 ≤ e ∧ e ≤ 8 * s.cfg.tBit)
    (hedges : edgesToFlushEnd s = e + r * (8 * s.cfg.tBit) + s.cfg.tLatch + 1) : (bytesOwed s).length = r := by
  have hsend := edgesToFlushEnd_sending (s := s) (sending_of_edges (by omega))
  have hpos := edgesToStart_pos h.running.inv.serializer
  have hle := edgesToStart_le h.running.inv.cfg h.running.inv.serializer
  have hdiv {a n : Nat} (ha : 1 ≤ a ∧ a ≤ 8 * s.cfg.tBit) : (a - 1 + n * (8 * s.cfg.tBit)) / (8 * s.cfg.tBit) = n := by
    rw [Nat.add_mul_div_right _ _ (by omega), Nat.div_eq_of_lt (by omega), Nat.zero_add]
  rw [← hdiv (n := (bytesOwed s).length) ⟨hpos, hle⟩, ← hdiv (n := r) he]
  congr 1
  omega

/-- Of the bytes owed in `s`, those not owed any more have started. -/
theorem FlushGoesOn.wtrace_eq {j k : Nat} (h : FlushGoesOn j s t) (hk : (bytesOwed t).length + k = (bytesOwed s).length) :
    t.wtrace = s.wtrace ++ ((bytesOwed s).take k).map Event.byte := by
  have hbytes := h.bytes
  rw [← List.take_append_drop k (bytesOwed s), List.map_append, ← List.append_assoc] at hbytes
  exact List.append_inj_left' hbytes (by simp; omega)

/-- From IDLE a FLUSH that owes bytes takes one edge to start the first, their times, the idle period, and one edge for the
latch. -/
theorem Flushing.edges_of_idle (h : Flushing s) (hidle : s.ser.phase = .idle) (howed : bytesOwed s ≠ []) :
    edgesToFlushEnd s = (bytesOwed s).length * (8 * s.cfg.tBit) + s.cfg.tLatch + 2 := by
  rw [edgesToFlushEnd_sending (.inl howed), edgesToStart_of_free h.running.inv.serializer (.inl hidle)]
  omega

/-- When the serializer is IDLE and a FLUSH owes bytes, byte `k` of them starts `8 * T_BIT * k` edges later. -/
theorem Flushing.byte_starts (h : Flushing s) (hidle : s.ser.phase = .idle) {k : Nat} (hk : k < (bytesOwed s).length) :
    ∃ u v, runSteps (8 * s.cfg.tBit * k) s = .next u ∧ u.wtrace = s.wtrace ++ ((bytesOwed s).take k).map Event.byte ∧
      runSteps (8 * s.cfg.tBit * k + 1) s = .next v ∧ v.wtrace = s.wtrace ++ ((bytesOwed s).take (k + 1)).map Event.byte := by
  obtain ⟨m, hm⟩ := Nat.exists_eq_add_of_lt hk
  have hcell := cell_time h.running.inv.cfg true
  have hhigh := highTime_pos h.running.inv.cfg true
  have htotal : edgesToFlushEnd s = 8 * s.cfg.tBit * k + 1 + (8 * s.cfg.tBit + m * (8 * s.cfg.tBit) + s.cfg.tLatch + 1) := by
    rw [h.edges_of_idle hidle (List.ne_nil_of_length_pos (by omega)), hm]
    ring
  obtain ⟨u, hu, hgo⟩ := h.runs (k := 8 * s.cfg.tBit * k) (by omega)
  obtain ⟨v, hv, hgo'⟩ := h.runs (k := 8 * s.cfg.tBit * k + 1) (by omega)
  have hedges := hgo.edges
  have hedges' := hgo'.edges
  have hcfg := runSteps_cfg hu
  have hcfg' := runSteps_cfg hv
  refine ⟨u, v, hu, hgo.wtrace_eq ?_, hv, hgo'.wtrace_eq ?_⟩
  · rw [hgo.flushing.length_bytesOwed (e := 1) (r := m + 1) (by rw [hcfg]; omega) (by rw [hcfg, Nat.succ_mul]; omega), hm]
    omega
  · rw [hgo'.flushing.length_bytesOwed (e := 8 * s.cfg.tBit) (r := m) (by rw [hcfg']; omega) (by rw [hcfg']; omega), hm]
    omega

/-- The serializer enters IDLE at the end of the last byte owed. -/
theorem Flushing.enters_idle (h : Flushing s) (hidle : s.ser.phase = .idle) (howed : bytesOwed s ≠ []) :
    ∃ u v, runSteps ((bytesOwed s).length * (8 * s.cfg.tBit)) s = .next u ∧ u.ser.phase ≠ .idle ∧
      runSteps ((bytesOwed s).length * (8 * s.cfg.tBit) + 1) s = .next v ∧ v.ser.phase = .idle := by
  have htotal := h.edges_of_idle hidle howed
  have hpos := highTime_pos h.running.inv.cfg true
  have hcell := cell_time h.running.inv.cfg true
  obtain ⟨u, hu, hgo⟩ := h.runs (k := (bytesOwed s).length * (8 * s.cfg.tBit)) (by omega)
  obtain ⟨v, hv, hgo'⟩ := h.runs (k := (bytesOwed s).length * (8 * s.cfg.tBit) + 1) (by omega)
  have hedges := hgo.edges
  have hedges' := hgo'.edges
  have hcfg := runSteps_cfg hu
  have hcfg' := runSteps_cfg hv
  have hnone := hgo.flushing.length_bytesOwed (e := 1) (r := 0) (by rw [hcfg]; omega) (by rw [hcfg]; omega)
  refine ⟨u, v, hu, ?_, hv, hgo'.flushing.idle_of_edges (by rw [hcfg']; omega)⟩
  exact (sending_of_edges (by rw [hcfg]; omega)).resolve_left (not_not.mpr (List.eq_nil_of_length_eq_zero hnone))

end Time

/-- An accepted FLUSH that finds the queue empty and the serializer IDLE owes its frame in the next cycle, with nothing
started (R125). -/
theorem flushing_of_accepted_idle {s : State} (h : Inv s) (hquiet : noReset s) (hacc : acceptsCommand s .flush)
    (heng : s.eng = .initialized) (hq : s.txq = []) (hp : s.ser.phase = .idle) :
    ∃ t, step s = .next t ∧ Flushing t ∧ t.buf = s.buf ∧ t.ser.phase = .idle ∧ bytesOwed t = frameBytes s.cfg s.buf ∧
      t.wtrace = s.wtrace := by
  obtain ⟨t, hst, hflush, hbuf, hser, howed, hbytes⟩ := flushing_of_accepted h hquiet hacc heng
  rw [serializerEdge_idle_empty hp hq] at hser howed
  rw [hq, queueAfter_none, List.nil_append] at howed
  rw [hq, howed] at hbytes
  exact ⟨t, hst, hflush, hbuf, by rw [hser]; exact hp, howed, List.append_cancel_right hbytes⟩

/-- Settles O31: from the cycle after acceptance the bytes of the frame start one byte time apart, the serializer enters IDLE
after the last, and the end of the FLUSH is `edgesToFlushEnd` edges away. -/
theorem flushTakesItsExactTime : Obligations.FlushTakesItsExactTime := by
  intro s hinv hquiet hacc heng hq hp
  obtain ⟨r, hst, hflush, hbuf, hidle, howed, htrace⟩ := flushing_of_accepted_idle hinv hquiet hacc heng hq hp
  have hcfg := step_cfg hst
  have hlen : (bytesOwed r).length = 3 * s.cfg.n := by rw [howed, length_frameBytes]
  have hn := n_pos_of_wf hinv.cfg
  have hne : bytesOwed r ≠ [] := List.ne_nil_of_length_pos (by omega)
  have hframe : (bytesOwed r).length * (8 * r.cfg.tBit) = 24 * s.cfg.n * s.cfg.tBit := by rw [hlen, hcfg]; ring
  have hfrom (k : Nat) : runSteps (1 + k) s = runSteps k r := by rw [Nat.add_comm, runSteps_succ hst]
  refine ⟨fun k hk => ?_, ?_, ?_⟩
  · obtain ⟨u, v, hu, hut, hv, hvt⟩ := hflush.byte_starts hidle (k := k) (by omega)
    rw [hcfg] at hu hv
    rw [howed, htrace] at hut hvt
    exact ⟨u, v, by rw [hfrom, hu], hut, by rw [← hv, ← hfrom]; congr 1; omega, hvt⟩
  · obtain ⟨u, v, hu, hup, hv, hvp⟩ := hflush.enters_idle hidle hne
    rw [hframe] at hu hv
    exact ⟨u, v, by rw [hfrom, hu], hup, by rw [← hv, ← hfrom]; congr 1; omega, hvp⟩
  · have htotal := hflush.edges_of_idle hidle hne
    rw [hframe, hcfg] at htotal
    obtain ⟨u, hu, hgo⟩ := hflush.runs (k := 24 * s.cfg.n * s.cfg.tBit + s.cfg.tLatch + 1) (by omega)
    obtain ⟨k, v, hk, hv, hend⟩ := hflush.runs_to_end
    rw [htrace, howed] at hend
    refine ⟨u, v, ?_, hgo.flushing.streaming, hgo.flushing.rspValid_eq, ?_, hend.eng, hend.rspValid, hend.rspWord, hend.trace⟩
    · rw [← hu, ← hfrom]; congr 1; omega
    · rw [← hv, ← hfrom]; congr 1; omega

end Sys2Proof.Machine

/-! Errors (60_exceptions.md R145 to R150, R153): an error is a response and no trap, the answers of the checks of INIT that no
other section states, what an error status leaves unchanged, and the engine state FAILED. -/

namespace Sys2Proof.Machine

/-- Settles O14: no part of an edge faults within the invariant, and none is ever refused. -/
theorem invariantStatesNeverStop : Obligations.InvariantStatesNeverStop := fun _ h => h.exists_step

/-! The checks of INIT, in their order (R147, R148). -/

section InitChecks
variable {s : State} {p : Periph} {u pin : Nat}

/-- RESOURCE_EXHAUSTED changes the response register and enters FAILED (R148). -/
theorem exhaust_eq_onlyResponse (s : State) : exhaust s = onlyResponse 0x01000000 { s with eng := .failed } := by
  rw [exhaust, raise_eq_onlyResponse, responseWord_resourceExhausted]

theorem exec_init_initialized (pin : Nat) (heng : s.eng = .initialized) :
    exec (.init pin) s = .next (onlyResponse 0x04000000 s) := by
  rw [← responseWord_alreadyInitialized, ← raise_eq_onlyResponse]
  simp only [exec, execInit, heng, initCheck]

theorem exec_init_invalidPin (heng : s.eng = .uninitialized) (hpin : pin ∉ s.cfg.validPins) :
    exec (.init pin) s = .next (onlyResponse 0x05000000 s) := by
  rw [← responseWord_invalidPin, ← raise_eq_onlyResponse]
  simp only [exec, execInit, initCheck_eq_none.mpr heng, if_neg hpin]

/-- INIT finds no free unit on either side (R148). -/
theorem exec_init_noUnit (heng : s.eng = .uninitialized) (hpin : pin ∈ s.cfg.validPins)
    (hnone : claim s.cfg.units s.inp = none) :
    exec (.init pin) s = .next (onlyResponse 0x01000000 { s with eng := .failed }) := by
  rw [← exhaust_eq_onlyResponse]
  simp only [exec, execInit, initCheck_eq_none.mpr heng, if_pos hpin, hnone]

/-- The side on which INIT would claim has no room for the program (R148). -/
theorem exec_init_noRoom (heng : s.eng = .uninitialized) (hpin : pin ∈ s.cfg.validPins)
    (hclaim : claim s.cfg.units s.inp = some (p, u)) (himem : s.inp.imemOk p = false) :
    exec (.init pin) s = .next (onlyResponse 0x01000000 { s with eng := .failed }) := by
  rw [← exhaust_eq_onlyResponse]
  simp only [exec, execInit, initCheck_eq_none.mpr heng, if_pos hpin, hclaim, himem, Bool.false_eq_true, if_false]

end InitChecks

/-! What an error status says about the edge that answers it (R145, R148, R149). -/

section ErrorAnswers
variable {s t u : State} {i : Instr}

/-- A command that answers with another status than OK has only raised it, or is an INIT that found no resources. -/
theorem ExecEffect.error_cases (h : ExecEffect s i t) (hv : t.rspValid = true) (herr : t.rspWord.extractLsb' 24 8 ≠ 0) :
    (∃ st, st ≠ .resourceExhausted ∧ t = raise st s) ∨ ((∃ pin, i = .init pin) ∧ t = exhaust s) := by
  cases h with
  | rejects i st hok hres => exact .inl ⟨st, hres, rfl⟩
  | exhausts pin => exact .inr ⟨⟨pin, rfl⟩, rfl⟩
  | claims | emits | latches | sets | clears | reads | maps => exact absurd (responseWord_status .ok _) herr
  | emitWaits | latchWaits | flushPushes | flushWaits => exact Bool.noConfusion hv

/-- A raised status is 0x01 for RESOURCE_EXHAUSTED alone (R94). -/
theorem status_raise_ne_one {st : Status} (hres : st ≠ .resourceExhausted) :
    (raise st s).rspWord.extractLsb' 24 8 ≠ 0x01 := by
  rw [raise_rspWord, responseWord_status]
  exact fun h => hres (statusCode_eq_one.mp h)

theorem status_exhaust (s : State) : (exhaust s).rspWord.extractLsb' 24 8 = 0x01 := responseWord_status .resourceExhausted 0

/-- An edge answers RESOURCE_EXHAUSTED only to an INIT accepted at it (R148). -/
theorem UnitEffect.init_of_exhausted (hu : UnitEffect s u) (hv : u.rspValid = true)
    (hone : u.rspWord.extractLsb' 24 8 = 0x01) : accepts s ∧ ∃ pin, decode s.inp.cmdWord = .ok (.init pin) := by
  cases hu with
  | accepted i t hacc hdec heff =>
    rcases heff.error_cases hv (by rw [hone]; decide) with ⟨st, hres, rfl⟩ | ⟨⟨pin, rfl⟩, -⟩
    · exact absurd hone (status_raise_ne_one hres)
    · exact ⟨hacc, pin, hdec⟩
  | illegal e hacc hdec => exact absurd hone (status_raise_ne_one (by decide))
  | goesOn t hacc heff =>
    rw [heff.response_eq hv, responseWord_status] at hone
    exact absurd hone (by decide)

end ErrorAnswers

/-- Settles O16: INIT by what `claim` finds and whether there is room; status 0x01 is INIT's, by the command unit's effect. -/
theorem initFailsWithoutResources : Obligations.InitFailsWithoutResources := by
  refine ⟨fun s pin heng hpin hcause => ?_, fun s t hst hv hone => ?_⟩
  · rcases hcause with hnone | ⟨p, u, hfirst, himem⟩
    · exact exec_init_noUnit heng hpin (claim_eq_none_iff.mpr hnone)
    · exact exec_init_noRoom heng hpin (claim_eq_some_iff.mpr hfirst) himem
  · obtain ⟨hcfg, ⟨-, rfl⟩ | ⟨hr, u, hu, rfl⟩⟩ := step_cases hst
    · exact Bool.noConfusion hv
    · rw [closeEdge_rspValid] at hv
      rw [closeEdge_rspWord] at hone
      obtain ⟨hacc, pin, hdec⟩ := hu.init_of_exhausted hv hone
      exact ⟨pin, hcfg, hr, hacc, hdec⟩

/-- Settles O35: an error is raised over the present state, or over its FAILED. -/
theorem errorsHaveNoEffect : Obligations.ErrorsHaveNoEffect := by
  intro i s t hex hv herr
  rcases (exec_effect hex).error_cases hv herr with ⟨st, hres, rfl⟩ | ⟨-, rfl⟩
  · exact ⟨responseWord_data st 0, fun _ => rfl, fun hone => absurd hone (status_raise_ne_one hres)⟩
  · exact ⟨responseWord_data .resourceExhausted 0, fun hne => absurd (status_exhaust s) hne, fun _ => rfl⟩

/-- During a FLUSH the command unit is not READY, so it accepts no word (R147). -/
theorem Inv.not_accepts_of_streaming {s : State} (h : Inv s) (heng : s.eng = .streaming) : ¬ accepts s := by
  rintro ⟨-, hcu⟩
  have hok := h.commandUnit
  simp [commandUnitOk, hcu, heng] at hok

/-- Settles O34: each check in its order, by the lemma that states its answer; an ILLEGAL word by O7. -/
theorem statusFollowsThePriority : Obligations.StatusFollowsThePriority := by
  refine ⟨fun s e hcfg hr hacc hdec => illegalWordsChangeNothing s hcfg hr hacc.1 hacc.2 (decode_eq_error_iff.mp ⟨e, hdec⟩),
    fun s i => exec_failed i, fun s v r g b index heng => ?_,
    fun s pin => exec_init_initialized pin, fun s pin => exec_init_invalidPin,
    fun s index r g b heng hi => ⟨exec_set_outOfRange heng hi, exec_read_outOfRange heng hi⟩,
    fun s row column => exec_map_outOfRange,
    fun s pin heng hpin h0 h1 => exec_init_noUnit heng hpin (claim_eq_none_iff.mpr ⟨h0, h1⟩),
    fun s => Inv.not_accepts_of_streaming⟩
  refine ⟨?_, ?_, ?_, ?_, ?_, ?_⟩ <;> exact exec_uninitialized nofun nofun heng

/-! FAILED (R150). -/

section Failed
variable {s t u : State}

/-- What the command unit does in FAILED: it answers the accepted word, or stays READY. -/
inductive FailedEffect (s : State) : State → Prop
  | command (i : Instr) (hdec : decode s.inp.cmdWord = .ok i) : FailedEffect s (onlyResponse 0x07000000 s)
  | illegal (e : Illegal) (hdec : decode s.inp.cmdWord = .error e) : FailedEffect s (onlyResponse 0x06000000 s)
  | stays (hacc : ¬ accepts s) : FailedEffect s (goOn .ready s)

theorem failedEffect_of_commandUnit (h : Inv s) (heng : s.eng = .failed) (hcom : commandUnit s = .next u) :
    FailedEffect s u := by
  have hcu : s.cu = .ready := ready_of_inactive h.commandUnit (Eng.inactive_iff.mpr (.inr heng))
  cases commandUnit_effect hcom with
  | accepted i _ hacc hdec =>
    rw [commandUnit_of_decode hacc hdec, exec_failed i heng] at hcom
    cases hcom
    exact .command i hdec
  | illegal e hacc hdec =>
    rw [raise_eq_onlyResponse, responseWord_illegalCommand]
    exact .illegal e hdec
  | goesOn _ hacc heff =>
    cases heff with
    | stays => exact .stays hacc
    | emits _ hbusy | emitWaits _ hbusy | latches hbusy | latchWaits hbusy | pushes _ _ hbusy | pushWaits _ _ hbusy
    | flushEnds hbusy | flushWaits hbusy => cases hcu.symm.trans hbusy

/-- In FAILED the command unit writes the response register alone. -/
theorem FailedEffect.frame (h : FailedEffect s u) :
    u.eng = s.eng ∧ u.txq = s.txq ∧ u.ser = s.ser ∧ u.wtrace = s.wtrace := by
  cases h <;> exact ⟨rfl, rfl, rfl, rfl⟩

/-- In FAILED an accepted word answers FAILED if it decodes, and ILLEGAL_COMMAND if not. -/
theorem FailedEffect.answers (h : FailedEffect s u) (hacc : accepts s) :
    u.rspValid = true ∧ ((∃ i, decode s.inp.cmdWord = .ok i) → u.rspWord = 0x07000000) ∧
      ((∃ e, decode s.inp.cmdWord = .error e) → u.rspWord = 0x06000000) := by
  cases h with
  | command i hdec => simp [hdec, onlyResponse]
  | illegal e hdec => simp [hdec, onlyResponse]
  | stays hnot => exact absurd hacc hnot

/-- FAILED is entered by INIT's RESOURCE_EXHAUSTED alone (R148, R150). -/
theorem UnitEffect.enters_failed (hu : UnitEffect s u) (hne : s.eng ≠ .failed) (hto : u.eng = .failed) :
    s.eng = .uninitialized ∧ u = exhaust s := by
  cases hu with
  | accepted i t hacc hdec heff =>
    cases heff with
    | exhausts pin heng => exact ⟨heng, rfl⟩
    | claims | flushPushes | flushWaits => exact Eng.noConfusion hto
    | _ => exact absurd hto hne
  | illegal e hacc hdec => exact absurd hto hne
  | goesOn t hacc heff =>
    cases heff with
    | flushEnds => exact Eng.noConfusion hto
    | _ => exact absurd hto hne

end Failed

/-- Settles O36: in FAILED the serializer does not step and the command unit writes the response register alone; a reset edge
does not enter FAILED, and any other enters it by `exhaust`. -/
theorem failedIsLeftOnlyByReset : Obligations.FailedIsLeftOnlyByReset := by
  refine ⟨fun s t h heng hr hst => ?_, fun s t h hne hst hto => ?_⟩
  · have hoff : s.eng.active = false := Eng.inactive_iff.mpr (.inr heng)
    obtain ⟨-, -, -, -, -, hrestq, hrestser, -⟩ := h.handle.2 hoff
    obtain ⟨u, hcom, rfl⟩ := exists_commandUnit_of_step hr hst
    have heff := failedEffect_of_commandUnit h heng hcom
    obtain ⟨heng', hq, hser, htrace⟩ := heff.frame
    rw [heng] at heng'
    rw [closeEdge_inactive hoff]
    exact ⟨heng', pinLevel_of_undriven (by simp [lineOe, heng']), hq.trans hrestq, hser.trans hrestser, htrace, heff.answers⟩
  · rcases (step_cases hst).2 with ⟨-, rfl⟩ | ⟨-, u, hu, rfl⟩
    · exact Eng.noConfusion hto
    · obtain ⟨heng, rfl⟩ := hu.enters_failed hne (by rwa [closeEdge_eng] at hto)
      exact ⟨heng, by simp, by rw [closeEdge_rspWord, exhaust_rspWord, responseWord_resourceExhausted]⟩

end Sys2Proof.Machine

/-! Reset and the time of a command (70_reset_and_hazards.md R181, R188, R192): a reset edge ends the open frame without
latching it, a second INIT changes nothing, and only an EMIT, LATCH or FLUSH of a running engine outlasts its acceptance
edge. -/

namespace Sys2Proof.Machine

/-- Settles O17: the two checks of INIT that leave UNINITIALIZED and INITIALIZED as they are, each by its own lemma. -/
theorem initIsGuarded : Obligations.InitIsGuarded :=
  fun _ pin => ⟨exec_init_initialized pin, exec_init_invalidPin⟩

/-! The wire trace at a reset edge (R62, R181). -/

theorem openFrom_append (cur : List Byte) (xs ys : List Event) : openFrom cur (xs ++ ys) = openFrom (openFrom cur xs) ys := by
  induction xs generalizing cur with
  | nil => rfl
  | cons e xs ih => cases e <;> simp [openFrom, ih]

/-- Reset is a boundary that latches nothing. -/
theorem latchedFrames_reset (trace : List Event) : latchedFrames (trace ++ [.reset]) = latchedFrames trace := by
  simp [latchedFrames, latchedFrom_append, latchedFrom]

theorem openFrame_reset (trace : List Event) : openFrame (trace ++ [.reset]) = [] := by
  simp [openFrame, openFrom_append, openFrom]

/-- Settles O11: the edge is `resetEdge`, whose trace ends in Reset and whose queue, command unit and engine are at rest. -/
theorem resetEndsTheFrameUnlatched : Obligations.ResetEndsTheFrameUnlatched := by
  intro s t hr hst
  obtain ⟨-, ⟨-, rfl⟩ | ⟨hno, -⟩⟩ := step_cases hst
  · rw [resetEdge_wtrace]
    exact ⟨latchedFrames_reset _, openFrame_reset _, rfl, pinLevel_of_undriven rfl⟩
  · exact Bool.noConfusion (hr.symm.trans hno)

/-! The commands that last one edge (R192). -/

/-- A command leaves the command unit READY at its acceptance edge, or it is an EMIT, LATCH or FLUSH in INITIALIZED. -/
theorem ExecEffect.ready_or_lasts {s t : State} {i : Instr} (h : ExecEffect s i t) :
    t.cu = .ready ∨ (s.eng = .initialized ∧ ((∃ v, i = .emit v) ∨ i = .latch ∨ i = .flush)) := by
  cases h with
  | emitWaits v heng => exact .inr ⟨heng, .inl ⟨v, rfl⟩⟩
  | latchWaits heng => exact .inr ⟨heng, .inr (.inl rfl)⟩
  | flushPushes heng | flushWaits heng => exact .inr ⟨heng, .inr (.inr rfl)⟩
  | _ => exact .inl rfl

/-- Settles O39: the commands named are no EMIT, LATCH or FLUSH, or the engine is not INITIALIZED; a READY command unit has
responded. -/
theorem oneEdgeCommandsRespondAtOnce : Obligations.OneEdgeCommandsRespondAtOnce := by
  intro s t i _ hex honce
  have heff := exec_effect hex
  have hready : t.cu = .ready := by
    refine heff.ready_or_lasts.resolve_right ?_
    rintro ⟨heng, hlasts⟩
    rcases hlasts with ⟨v, rfl⟩ | rfl | rfl <;> simp [heng] at honce
  exact ⟨heff.rspValid_iff.mpr hready, hready⟩

end Sys2Proof.Machine
